-- ==== Sys2Proof/Word.lean ====
section
/-! DEFINITION. The words of the block: their widths, nothing else. -/

namespace Sys2Proof

/-- A command word, `30_encoding.md` R70. -/
abbrev CmdWord := BitVec 32

/-- A word of `CM` or `SQ`: a 16-bit two's-complement sample (`00_scope.md` R9 `SAMPLE_BITS`, R11 `Int16`). -/
abbrev Sample := BitVec 16

/-- A byte of `OB` or `IB`. -/
abbrev Byte := BitVec 8

end Sys2Proof
end

