-- ==== Sys2Proof/Syntax.lean ====
section
/-! DEFINITION. The commands of VDP-1: one constructor per row of spec/opcode_table.json (`30_encoding.md` R74). -/

namespace Sys2Proof

/-- The registers `SETR` reaches, `10_state.md` R28 (numbers 0 to 4). -/
inductive CtrlReg where
  | org
  | stride
  | w
  | h
  | scale
  deriving DecidableEq, Repr

/-- The 34 commands with their operands. The kernel-select operand `k` of the lifting commands has the one legal
value 0 (`30_encoding.md` R79), so it is no argument: a word with another `k` is no command. -/
inductive Instr where
  -- system commands, `45_system.md`
  | nop
  | halt
  | setr (reg : CtrlReg) (v : BitVec 16)
  | ldval (v : BitVec 16)
  | ldvalh (v : BitVec 16)
  | clrf
  -- lifting transform, `40_dwt.md`
  | fliftr (row : BitVec 16)
  | fliftc (col : BitVec 16)
  | iliftr (row : BitVec 16)
  | iliftc (col : BitVec 16)
  | fdwt2
  | idwt2
  | fdwt2l
  | idwt2l
  -- quantizer, `41_quantizer.md`
  | quant
  | dequant
  -- scanner, `42_zigzag.md`
  | zigzag
  | unzigzag
  -- bitstream, `43_bitstream.md`
  | putbits (n : BitVec 8)
  | flush
  | putu8
  | putu16
  | putu32
  | putscale
  | getbits (n : BitVec 8)
  | ralign
  | getu8
  | getu16
  | getu32
  | getscale
  -- entropy coder, `44_entropy.md`
  | riceenc (kk : BitVec 8)
  | ricedec (kk : BitVec 8)
  | rleenc
  | rledec
  deriving DecidableEq, Repr

end Sys2Proof
end

