-- ==== Sys2Proof/WellFormed.lean ====
section
/-! DEFINITION. Which commands have a legal word: the operand limits of `30_encoding.md` R74. -/

namespace Sys2Proof

/-- "legal operand values" of `30_encoding.md` R74: `SETR SCALE` takes at most 255, a bit count is at most 32, a Rice
parameter at most 15; every other operand value is legal. -/
def Instr.WellFormed : Instr → Bool
  | .setr .scale v => v.toNat ≤ 255
  | .setr _ _ => true
  | .putbits n => n.toNat ≤ 32
  | .getbits n => n.toNat ≤ 32
  | .riceenc kk => kk.toNat ≤ 15
  | .ricedec kk => kk.toNat ≤ 15
  | .nop | .halt | .ldval _ | .ldvalh _ | .clrf => true
  | .fliftr _ | .fliftc _ | .iliftr _ | .iliftc _ | .fdwt2 | .idwt2 | .fdwt2l | .idwt2l => true
  | .quant | .dequant | .zigzag | .unzigzag => true
  | .flush | .putu8 | .putu16 | .putu32 | .putscale => true
  | .ralign | .getu8 | .getu16 | .getu32 | .getscale => true
  | .rleenc | .rledec => true

end Sys2Proof
end

