-- ==== Sys2Proof/Decode.lean ====
section
/-! DEFINITION. The command word and its fields, the decoder and the encoder (`30_encoding.md` R70 to R79). -/

namespace Sys2Proof

/-- The three fields of a command word, `30_encoding.md` R71. -/
structure Fields where
  op  : BitVec 8
  a   : BitVec 8
  imm : BitVec 16
  deriving DecidableEq, Repr

/-- The fields of a word, used as they stand: R71, R73. -/
def fieldsOf (cw : CmdWord) : Fields :=
  { op := cw.extractLsb' 24 8, a := cw.extractLsb' 16 8, imm := cw.extractLsb' 0 16 }

/-- `cw = {op, a, imm}`: R71, R75. -/
def wordOf (f : Fields) : CmdWord :=
  f.op ++ f.a ++ f.imm

/-- Why a word is no command: the cases of `30_encoding.md` R77. All of them raise `IllegalCommand`. -/
inductive Illegal where
  /-- The opcode is in no row of R74. -/
  | unassignedOpcode
  /-- A field that carries no operand is not zero. -/
  | fieldNotZero
  /-- An operand is outside its row's legal values. -/
  | operandOutOfRange
  /-- A lifting command with kernel select other than 0 (R79; 1 is the reserved Haar kernel). -/
  | kernelNotZero
  deriving DecidableEq, Repr

/-- Format `Z`: `a` and `imm` must be 0. -/
def decodeZ (f : Fields) (i : Instr) : Except Illegal Instr :=
  if f.a = 0 ∧ f.imm = 0 then .ok i else .error .fieldNotZero

/-- Format `A` with an operand from 0 to `limit`: `imm` must be 0. -/
def decodeA (f : Fields) (limit : Nat) (mk : BitVec 8 → Instr) : Except Illegal Instr :=
  if f.imm ≠ 0 then .error .fieldNotZero
  else if f.a.toNat ≤ limit then .ok (mk f.a) else .error .operandOutOfRange

/-- Format `I`: `a` must be 0. -/
def decodeI (f : Fields) (mk : BitVec 16 → Instr) : Except Illegal Instr :=
  if f.a = 0 then .ok (mk f.imm) else .error .fieldNotZero

/-- Format `AI` of the four line commands: `a` is the kernel select, `imm` the row or column. -/
def decodeLine (f : Fields) (mk : BitVec 16 → Instr) : Except Illegal Instr :=
  if f.a = 0 then .ok (mk f.imm) else .error .kernelNotZero

/-- Format `A` of the four block transforms: `a` is the kernel select, `imm` must be 0. -/
def decodeKernel (f : Fields) (i : Instr) : Except Illegal Instr :=
  if f.imm ≠ 0 then .error .fieldNotZero
  else if f.a = 0 then .ok i else .error .kernelNotZero

/-- Format `AI` of `SETR`: register numbers 0 to 4, `SCALE` takes at most 255 (`45_system.md` R202). -/
def decodeSetr (f : Fields) : Except Illegal Instr :=
  match f.a with
  | 0#8 => .ok (.setr .org f.imm)
  | 1#8 => .ok (.setr .stride f.imm)
  | 2#8 => .ok (.setr .w f.imm)
  | 3#8 => .ok (.setr .h f.imm)
  | 4#8 => if f.imm.toNat ≤ 255 then .ok (.setr .scale f.imm) else .error .operandOutOfRange
  | _   => .error .operandOutOfRange

/-- The opcode map of `30_encoding.md` R74. -/
def decodeFields (f : Fields) : Except Illegal Instr :=
  match f.op with
  | 0x01#8 => decodeZ f .nop
  | 0x02#8 => decodeZ f .halt
  | 0x03#8 => decodeSetr f
  | 0x04#8 => decodeI f .ldval
  | 0x05#8 => decodeI f .ldvalh
  | 0x06#8 => decodeZ f .clrf
  | 0x10#8 => decodeLine f .fliftr
  | 0x11#8 => decodeLine f .fliftc
  | 0x12#8 => decodeLine f .iliftr
  | 0x13#8 => decodeLine f .iliftc
  | 0x14#8 => decodeKernel f .fdwt2
  | 0x15#8 => decodeKernel f .idwt2
  | 0x16#8 => decodeKernel f .fdwt2l
  | 0x17#8 => decodeKernel f .idwt2l
  | 0x20#8 => decodeZ f .quant
  | 0x21#8 => decodeZ f .dequant
  | 0x28#8 => decodeZ f .zigzag
  | 0x29#8 => decodeZ f .unzigzag
  | 0x30#8 => decodeA f 32 .putbits
  | 0x31#8 => decodeZ f .flush
  | 0x32#8 => decodeZ f .putu8
  | 0x33#8 => decodeZ f .putu16
  | 0x34#8 => decodeZ f .putu32
  | 0x35#8 => decodeZ f .putscale
  | 0x38#8 => decodeA f 32 .getbits
  | 0x39#8 => decodeZ f .ralign
  | 0x3A#8 => decodeZ f .getu8
  | 0x3B#8 => decodeZ f .getu16
  | 0x3C#8 => decodeZ f .getu32
  | 0x3D#8 => decodeZ f .getscale
  | 0x40#8 => decodeA f 15 .riceenc
  | 0x41#8 => decodeA f 15 .ricedec
  | 0x42#8 => decodeZ f .rleenc
  | 0x43#8 => decodeZ f .rledec
  | _      => .error .unassignedOpcode

/-- The decoder, `30_encoding.md` R76: total on 32-bit words, one command or illegal. -/
def decode (cw : CmdWord) : Except Illegal Instr :=
  decodeFields (fieldsOf cw)

/-- The number of a control register, `10_state.md` R28. -/
def CtrlReg.number : CtrlReg → BitVec 8
  | .org => 0 | .stride => 1 | .w => 2 | .h => 3 | .scale => 4

/-- The fields of a command, row by row of `30_encoding.md` R74. -/
def encodeFields : Instr → Fields
  | .nop       => ⟨0x01, 0, 0⟩
  | .halt      => ⟨0x02, 0, 0⟩
  | .setr r v  => ⟨0x03, r.number, v⟩
  | .ldval v   => ⟨0x04, 0, v⟩
  | .ldvalh v  => ⟨0x05, 0, v⟩
  | .clrf      => ⟨0x06, 0, 0⟩
  | .fliftr r  => ⟨0x10, 0, r⟩
  | .fliftc c  => ⟨0x11, 0, c⟩
  | .iliftr r  => ⟨0x12, 0, r⟩
  | .iliftc c  => ⟨0x13, 0, c⟩
  | .fdwt2     => ⟨0x14, 0, 0⟩
  | .idwt2     => ⟨0x15, 0, 0⟩
  | .fdwt2l    => ⟨0x16, 0, 0⟩
  | .idwt2l    => ⟨0x17, 0, 0⟩
  | .quant     => ⟨0x20, 0, 0⟩
  | .dequant   => ⟨0x21, 0, 0⟩
  | .zigzag    => ⟨0x28, 0, 0⟩
  | .unzigzag  => ⟨0x29, 0, 0⟩
  | .putbits n => ⟨0x30, n, 0⟩
  | .flush     => ⟨0x31, 0, 0⟩
  | .putu8     => ⟨0x32, 0, 0⟩
  | .putu16    => ⟨0x33, 0, 0⟩
  | .putu32    => ⟨0x34, 0, 0⟩
  | .putscale  => ⟨0x35, 0, 0⟩
  | .getbits n => ⟨0x38, n, 0⟩
  | .ralign    => ⟨0x39, 0, 0⟩
  | .getu8     => ⟨0x3A, 0, 0⟩
  | .getu16    => ⟨0x3B, 0, 0⟩
  | .getu32    => ⟨0x3C, 0, 0⟩
  | .getscale  => ⟨0x3D, 0, 0⟩
  | .riceenc k => ⟨0x40, k, 0⟩
  | .ricedec k => ⟨0x41, k, 0⟩
  | .rleenc    => ⟨0x42, 0, 0⟩
  | .rledec    => ⟨0x43, 0, 0⟩

/-- The encoder, `30_encoding.md` R75. -/
def encode (i : Instr) : CmdWord :=
  wordOf (encodeFields i)

/-- What the decoder reads from an instruction whose low `nbits` bits are those of `w` and whose other bits are 0. A
command is one 32-bit word in one memory location (R70, R57), so bit 0 of the word is bit 0 of `w`. -/
def decodeTableWord (nbits w : Nat) : Option Instr :=
  match decode (BitVec.ofNat 32 (w % 2 ^ nbits)) with
  | .ok i => some i
  | .error _ => none

end Sys2Proof
end

