-- ==== Sys2Proof/Config.lean ====
section
/-! DEFINITION. What an implementation fixes (the parameters of `00_scope.md` R9) and the free values. -/

namespace Sys2Proof

/-- `LIFT_INTERMEDIATE`, `40_dwt.md` R104: the width of the sums inside a lifting step. -/
inductive LiftWidth where
  | wide
  | wrap16
  deriving DecidableEq, Repr

/-- `Q_SMALL_POLICY`, `41_quantizer.md` R133. -/
inductive SmallPolicy where
  | uniform
  | refuse
  deriving DecidableEq, Repr

/-- `ZZ`, `42_zigzag.md` R146: the default diagonal order of R148, or for each block side the list of positions
`(row, column)` in scan order. -/
inductive ScanOrder where
  | diagonal
  | table (zz8 zz16 zz32 : List (Nat × Nat))
  deriving DecidableEq, Repr

/-- The parameters of `00_scope.md` R9 that an implementation fixes. -/
structure Config where
  cmWords   : Nat
  pmWords   : Nat
  obBytes   : Nat
  ibBytes   : Nat
  liftWidth : LiftWidth
  qSmall    : SmallPolicy
  zz        : ScanOrder
  deriving DecidableEq, Repr

/-- The defaults of `00_scope.md` R9. -/
def Config.default : Config :=
  { cmWords := 4096, pmWords := 1024, obBytes := 65535, ibBytes := 65535,
    liftWidth := .wide, qSmall := .uniform, zz := .diagonal }

/-! Free values, for the state that `60_exceptions.md` R246 leaves unspecified after a data-dependent fault. Each is
applied to the number of the draw (`State.draws`); nothing can be proved of a value of theirs. -/

/-- `VAL` after a fault of a value-reading command. -/
opaque Config.freeVal : Nat → BitVec 32

/-- `SCALE` after a fault of `GETSCALE`. -/
opaque Config.freeScale : Nat → BitVec 8

/-- The reader's position after a fault of a reader command, as a number of bits; the machine reduces it to the legal
range. -/
opaque Config.freePosition : Nat → Nat

/-- `SQ[i]` after a fault of `RLEDEC`: draw, then index. -/
opaque Config.freeSample : Nat → Nat → BitVec 16

/-- How many bytes a writer command that raised `OutFull` had appended; the machine reduces it to the legal range. -/
opaque Config.freeLength : Nat → Nat

/-- The bytes of `OB` from the index at which such a command began: draw, then index. -/
opaque Config.freeByte : Nat → Nat → BitVec 8

/-- `WCNT` after `OutFull`. -/
opaque Config.freeCount : Nat → BitVec 3

/-- `WACC` after `OutFull`; the machine clears the bits that `10_state.md` R38 says are 0. -/
opaque Config.freePartial : Nat → BitVec 8

end Sys2Proof
end

