-- ==== Sys2Proof/Machine/State.lean ====
section
/-! DEFINITION. The state of the block (`10_state.md`), the reasons a step can stop, and the state after reset. -/

namespace Sys2Proof.Machine

/-- A word memory: (address, word) pairs, addresses strictly rising; an address that is not listed holds no value
(`10_state.md` R42: "holds no value until the host or a command writes it"; log entry 3). -/
abbrev Memory (w : Nat) := List (Nat × BitVec w)

/-- The canonical form of a memory. -/
abbrev Memory.wf {w : Nat} (m : Memory w) : Prop :=
  m.Pairwise (fun x y => x.1 < y.1)

/-- The run states, `10_state.md` R36. -/
inductive RunState where
  | idle
  | running
  | halted
  | faulted
  deriving DecidableEq, Repr

/-- The block's faults, `60_exceptions.md` R241. Raising one is a NEXT state (R244), never a stop of the model. -/
inductive FaultCode where
  | eof
  | illegalCommand
  | illegalConfig
  | addrRange
  | badCode
  | runOverrun
  | outFull
  | fetchRange
  deriving DecidableEq, Repr

/-- The output byte buffer and the bit writer, `10_state.md` R38: `ob` is `OB[0..OLEN−1]`, so `OLEN` is its length;
the `wcnt` most significant bits of `wacc` are the pending bits. -/
structure Writer where
  ob   : List Byte
  wacc : BitVec 8
  wcnt : BitVec 3
  deriving DecidableEq, Repr

/-- The input byte buffer and the bit reader, `10_state.md` R39: `ib` is `IB[0..ILEN−1]`, so `ILEN` is its length; the
next bit is bit `7 − rbit` of byte `rpos`. -/
structure Reader where
  ib   : List Byte
  rpos : BitVec 32
  rbit : BitVec 3
  deriving DecidableEq, Repr

/-- Everything the block holds, `10_state.md` R21 to R39. `pm` is `PM[0..PLEN−1]`, so `PLEN` is its length. `cfg` holds
the parameters of `00_scope.md` R9, which nothing changes (R41), and `draws` counts the free values drawn (log entries 1
and 5); both are the model's own. -/
structure State where
  cfg    : Config
  pm     : List CmdWord
  pc     : BitVec 16
  cm     : Memory 16
  sq     : Memory 16
  org    : BitVec 16
  stride : BitVec 16
  w      : BitVec 16
  h      : BitVec 16
  scale  : BitVec 8
  run    : RunState
  ovf    : Bool
  fcode  : Option FaultCode
  fpc    : BitVec 16
  val    : BitVec 32
  wr     : Writer
  rd     : Reader
  draws  : Nat
  deriving DecidableEq, Repr

/-- Why the machine has no next state. -/
inductive Fault where
  /-- Raised by `step` when `RUN` is not RUNNING: the sequencer has no step there (`10_state.md` R36, `45_system.md`
  R207). Safe: the machine stops and no effect is claimed. -/
  | notRunning (run : RunState)
  deriving DecidableEq, Repr

/-- The two memories whose words can be unwritten. -/
inductive MemSpace where
  | cm
  | sq
  deriving DecidableEq, Repr

/-- Why an instruction has no meaning in this model. -/
inductive Refusal where
  /-- Raised by `exec` for an instruction that has no meaning yet. Safe: nothing is claimed of it. -/
  | notModelled (mnemonic : String)
  /-- Raised by a command that reaches a word of `CM` (the lifting, quantizing commands and `ZIGZAG`) or of `SQ`
  (`UNZIGZAG`, `RLEENC`) that neither the host nor a command has written since reset (`10_state.md` R42,
  `70_reset_and_hazards.md` R273). Safe: the spec gives such a word no value. -/
  | unwritten (space : MemSpace)
  deriving DecidableEq, Repr

/-- After reset: `10_state.md` R42, `70_reset_and_hazards.md` R270, with the default parameters of `00_scope.md` R9. -/
def State.reset : State :=
  { cfg := Config.default
    pm := []
    pc := 0
    cm := []
    sq := []
    org := 0
    stride := 16
    w := 16
    h := 16
    scale := 0
    run := .idle
    ovf := false
    fcode := none
    fpc := 0
    val := 0
    wr := { ob := [], wacc := 0, wcnt := 0 }
    rd := { ib := [], rpos := 0, rbit := 0 }
    draws := 0 }

end Sys2Proof.Machine
end

