-- ==== Sys2Proof/Machine/Ops.lean ====
section
/-! DEFINITION. The named operations over the state: integers and their narrowing, the word memories, the register
views, taking a fault and recovering from it, the state a fault leaves unspecified, the fetch, and the bit writer and
bit reader primitives. -/

namespace Sys2Proof.Machine

/-! ## Integers (`00_scope.md` R11, R12) -/

/-- The unique `Int16` congruent to `z` modulo 65536, R11. -/
def wrap16 (z : Int) : Sample :=
  BitVec.ofInt 16 z

/-- The arithmetic right shift `floor(z / 2^s)`, R12. -/
def ashr (z : Int) (s : Nat) : Int :=
  z / 2 ^ s

/-! ## The word memories (`20_memory.md` R52, R54) -/

/-- The word at address `a`, if anybody has written it. -/
def Memory.read {w : Nat} : Memory w → Nat → Option (BitVec w)
  | [], _ => none
  | (k, v) :: m, a => if a = k then some v else if a < k then none else Memory.read m a

/-- The memory with `v` at address `a`. -/
def Memory.write {w : Nat} : Memory w → Nat → BitVec w → Memory w
  | [], a, v => [(a, v)]
  | (k, x) :: m, a, v =>
    if a < k then (a, v) :: (k, x) :: m
    else if a = k then (a, v) :: m
    else (k, x) :: Memory.write m a v

/-- The words at the addresses listed, if all of them have been written. -/
def readWords {w : Nat} (m : Memory w) : List Nat → Option (List (BitVec w))
  | [] => some []
  | a :: as =>
    match Memory.read m a, readWords m as with
    | some v, some vs => some (v :: vs)
    | _, _ => none

/-- The memory with the values listed at the addresses listed, one by one. -/
def writeWords {w : Nat} (m : Memory w) : List Nat → List (BitVec w) → Memory w
  | a :: as, v :: vs => writeWords (Memory.write m a v) as vs
  | _, _ => m

/-! ## Register views (`10_state.md` R28, R30) -/

/-- `STATUS.RUN`, R30 and R36. -/
def RunState.code : RunState → BitVec 2
  | .idle => 0 | .running => 1 | .halted => 2 | .faulted => 3

/-- `STATUS.FCODE`, `60_exceptions.md` R241; 0 when there is no fault. -/
def FaultCode.code : FaultCode → BitVec 4
  | .eof => 1 | .illegalCommand => 2 | .illegalConfig => 3 | .addrRange => 4
  | .badCode => 5 | .runOverrun => 6 | .outFull => 7 | .fetchRange => 8

/-- The code that `STATUS.FCODE` shows. -/
def State.faultField (s : State) : BitVec 4 :=
  match s.fcode with
  | none => 0
  | some f => f.code

/-- `STATUS`, R30: `RUN` in bits 1:0, `OVF` in bit 2, `FCODE` in bits 7:4, the rest 0. -/
def State.status (s : State) : BitVec 16 :=
  (0#8 ++ s.faultField ++ 0#1 ++ BitVec.ofBool s.ovf ++ s.run.code)

/-- `OLEN`, R38. -/
def State.olen (s : State) : BitVec 32 :=
  BitVec.ofNat 32 s.wr.ob.length

/-- `WSTATE`, R28: `WCNT` in bits 10:8, `WACC` in bits 7:0, the rest 0. -/
def State.wstate (s : State) : BitVec 16 :=
  (0#5 ++ s.wr.wcnt ++ s.wr.wacc)

/-- `ILEN`, R39. -/
def State.ilen (s : State) : BitVec 32 :=
  BitVec.ofNat 32 s.rd.ib.length

/-- `PLEN`, R22. -/
def State.plen (s : State) : BitVec 16 :=
  BitVec.ofNat 16 s.pm.length

/-! ## Advancing, faulting, recovering -/

/-- `pc <- pc + 1`, `10_state.md` R25. -/
def State.advance (s : State) : State :=
  { s with pc := s.pc + 1 }

/-- Fault entry, `60_exceptions.md` R244: `FCODE`, `RUN` and `FPC` are written, `pc` and all else stay. -/
def State.takeFault (f : FaultCode) (s : State) : State :=
  { s with fcode := some f, run := .faulted, fpc := s.pc }

/-- What the host's `H_CLEARFAULT` does, `10_state.md` R37: the block has no return from a fault of its own (R248). -/
def State.clearFault (s : State) : State :=
  { s with run := .idle, fcode := none }

/-- What the host's `H_START` does, `10_state.md` R37. -/
def State.start (s : State) : State :=
  { s with pc := 0, run := .running }

/-! ## State that a data-dependent fault leaves unspecified (`60_exceptions.md` R246, `43_bitstream.md` R177)

Each operation puts a free value in place of what R246 lists, within the item's legal range; `nextDraw` then makes the
next fault draw afresh. -/

/-- `VAL` unspecified. -/
def State.forgetVal (s : State) : State :=
  { s with val := Config.freeVal s.draws }

/-- `SCALE` unspecified. -/
def State.forgetScale (s : State) : State :=
  { s with scale := Config.freeScale s.draws }

/-- `SQ[0..n−1]` unspecified. -/
def State.forgetSq (n : Nat) (s : State) : State :=
  { s with sq := writeWords s.sq (List.range n) ((List.range n).map (Config.freeSample s.draws)) }

/-- `RPOS`, `RBIT` unspecified: any position from the first bit of `IB` to its end (`10_state.md` R39). -/
def State.forgetReader (s : State) : State :=
  let p := Config.freePosition s.draws % (8 * s.rd.ib.length + 1)
  { s with rd := { s.rd with rpos := BitVec.ofNat 32 (p / 8), rbit := BitVec.ofNat 3 (p % 8) } }

/-- `OLEN` unspecified between its value and `OB_BYTES`, the bytes from there on, `WACC` and `WCNT` unspecified; the
low `8 − WCNT` bits of `WACC` are 0 (`10_state.md` R38). -/
def State.forgetWriter (s : State) : State :=
  let n := s.wr.ob.length
  let more := Config.freeLength s.draws % (s.cfg.obBytes - n + 1)
  let wcnt := Config.freeCount s.draws
  { s with wr :=
    { ob := s.wr.ob ++ (List.range more).map (fun i => Config.freeByte s.draws (n + i))
      wacc := (Config.freePartial s.draws >>> (8 - wcnt.toNat)) <<< (8 - wcnt.toNat)
      wcnt := wcnt } }

/-- The next draw of free values is a fresh one. -/
def State.nextDraw (s : State) : State :=
  { s with draws := s.draws + 1 }

/-! ## Fetch (`10_state.md` R24) -/

/-- `PM[pc]` when `pc < PLEN`. -/
def State.fetch (s : State) : Option CmdWord :=
  s.pm[s.pc.toNat]?

/-- The program with word `cw` at index `n`; indices before it that held nothing hold the all-zero word, which is
illegal (`30_encoding.md` R77). -/
def placeWord (cw : CmdWord) : List CmdWord → Nat → List CmdWord
  | [], 0 => [cw]
  | _ :: pm, 0 => cw :: pm
  | [], n + 1 => 0 :: placeWord cw [] n
  | x :: pm, n + 1 => x :: placeWord cw pm n

/-! ## The bit writer (`43_bitstream.md` R156 to R159); `none` is `OutFull` -/

/-- `AppendByte`, R159. -/
def Writer.appendByte (cap : Nat) (x : Byte) (w : Writer) : Option Writer :=
  if w.ob.length = cap then none else some { w with ob := w.ob ++ [x] }

/-- `PutBit`, R156. -/
def Writer.putBit (cap : Nat) (b : Bool) (w : Writer) : Option Writer :=
  let acc := w.wacc + BitVec.ofNat 8 (b.toNat * 2 ^ (7 - w.wcnt.toNat))
  if w.wcnt = 7 then Writer.appendByte cap acc { w with wacc := 0, wcnt := 0 }
  else some { w with wacc := acc, wcnt := w.wcnt + 1 }

/-- `PutBits(v, n)`, R157: bits `n − 1` down to 0 of `v`. -/
def Writer.putBits (cap v : Nat) : Nat → Writer → Option Writer
  | 0, w => some w
  | n + 1, w => (Writer.putBit cap (v.testBit n) w).bind (Writer.putBits cap v n)

/-- `n` times `PutBit(1)`. -/
def Writer.putOnes (cap : Nat) : Nat → Writer → Option Writer
  | 0, w => some w
  | n + 1, w => (Writer.putBit cap true w).bind (Writer.putOnes cap n)

/-- `Flush`, R158. -/
def Writer.flush (cap : Nat) (w : Writer) : Option Writer :=
  if w.wcnt = 0 then some w
  else Writer.appendByte cap w.wacc { w with wacc := 0, wcnt := 0 }

/-- Bytes appended one after another, the first first. -/
def Writer.appendBytes (cap : Nat) : List Byte → Writer → Option Writer
  | [], w => some w
  | x :: xs, w => (Writer.appendByte cap x w).bind (Writer.appendBytes cap xs)

/-! ## The bit reader (`43_bitstream.md` R161 to R164) -/

/-- The reader one bit further on, R161. -/
def Reader.skipBit (r : Reader) : Reader :=
  if r.rbit = 7 then { r with rbit := 0, rpos := r.rpos + 1 } else { r with rbit := r.rbit + 1 }

/-- `GetBit`, R161. -/
def Reader.getBit (r : Reader) : Except FaultCode (Bool × Reader) :=
  match r.ib[r.rpos.toNat]? with
  | none => .error .eof
  | some x => .ok (x.getLsbD (7 - r.rbit.toNat), r.skipBit)

/-- `GetBits(n)`, R162, on top of the value `v` read so far. -/
def Reader.getBits : Nat → Nat → Reader → Except FaultCode (Nat × Reader)
  | 0, v, r => .ok (v, r)
  | n + 1, v, r =>
    match r.getBit with
    | .error f => .error f
    | .ok (b, r') => Reader.getBits n (2 * v + b.toNat) r'

/-- `Align`, R163. -/
def Reader.align (r : Reader) : Reader :=
  if r.rbit = 0 then r else { r with rbit := 0, rpos := r.rpos + 1 }

/-- `TakeByte`, R164. -/
def Reader.takeByte (r : Reader) : Except FaultCode (Byte × Reader) :=
  match r.ib[r.rpos.toNat]? with
  | none => .error .eof
  | some x => .ok (x, { r with rpos := r.rpos + 1 })

/-- `n` bytes taken one after another and read as one big-endian number, on top of the value `v` read so far
(`20_memory.md` R56). -/
def Reader.takeBytes : Nat → Nat → Reader → Except FaultCode (Nat × Reader)
  | 0, v, r => .ok (v, r)
  | n + 1, v, r =>
    match r.takeByte with
    | .error f => .error f
    | .ok (x, r') => Reader.takeBytes n (256 * v + x.toNat) r'

end Sys2Proof.Machine
end

