-- ==== Sys2Proof/Machine/Operands.lean ====
section
/-! DEFINITION. The operand forms: the region of `CM` (`20_memory.md` R53) with its lines and its checks, the block of
side `N`, the scan order, and the fields of `VAL`. -/

namespace Sys2Proof.Machine

/-! ## The region -/

/-- The address of `blk(r, c)`, R53, on mathematical integers. -/
def State.blkAddr (s : State) (r c : Nat) : Nat :=
  s.org.toNat + r * s.stride.toNat + c

/-- The addresses of the first `n` elements of row line `r`, R53. -/
def State.rowLine (s : State) (n r : Nat) : List Nat :=
  (List.range n).map (fun c => s.blkAddr r c)

/-- The addresses of the first `n` elements of column line `c`, R53. -/
def State.colLine (s : State) (n c : Nat) : List Nat :=
  (List.range n).map (fun r => s.blkAddr r c)

/-- The positions of an `n × n` block, row by row. -/
def blockCells (n : Nat) : List (Nat × Nat) :=
  (List.range n).flatMap (fun r => (List.range n).map (fun c => (r, c)))

/-- The addresses of a list of positions. -/
def State.cellAddrs (s : State) (cells : List (Nat × Nat)) : List Nat :=
  cells.map (fun p => s.blkAddr p.1 p.2)

/-! ## The checks of the commands that use the region -/

/-- `40_dwt.md` R112, `41_quantizer.md` R138, `42_zigzag.md` R149, in the order of `60_exceptions.md` R243: the
command's dimension check, `STRIDE ≥ W`, the address range. -/
def State.regionFault (dimOk : Bool) (s : State) : Option FaultCode :=
  if dimOk = false then some .illegalConfig
  else if s.stride.toNat < s.w.toNat then some .illegalConfig
  else if s.cfg.cmWords < s.org.toNat + (s.h.toNat - 1) * s.stride.toNat + s.w.toNat then some .addrRange
  else none

/-- "`n` even and `n ≥ 2`", R113. -/
def evenSide (n : Nat) : Bool :=
  n % 2 = 0 ∧ 2 ≤ n

/-- "multiple of 4, `≥ 4`", R119. -/
def quadSide (n : Nat) : Bool :=
  n % 4 = 0 ∧ 4 ≤ n

/-- Dimension check of `FLIFTR` and `ILIFTR`, R113. -/
def State.rowOk (row : BitVec 16) (s : State) : Bool :=
  evenSide s.w.toNat ∧ row.toNat < s.h.toNat

/-- Dimension check of `FLIFTC` and `ILIFTC`, R114. -/
def State.colOk (col : BitVec 16) (s : State) : Bool :=
  evenSide s.h.toNat ∧ col.toNat < s.w.toNat

/-- Dimension check of `FDWT2` and `IDWT2`, R117. -/
def State.planeOk (s : State) : Bool :=
  evenSide s.w.toNat ∧ evenSide s.h.toNat

/-- Dimension check of `FDWT2L` and `IDWT2L`, R119. -/
def State.plane2Ok (s : State) : Bool :=
  quadSide s.w.toNat ∧ quadSide s.h.toNat

/-- "`W = H` and `W` in {8, 16, 32}": R138, R149, `44_entropy.md` R188. -/
def State.blockOk (s : State) : Bool :=
  s.w = s.h ∧ (s.w.toNat = 8 ∨ s.w.toNat = 16 ∨ s.w.toNat = 32)

/-- Checks (1) and (2) of R138: the block side and `Q_SMALL_POLICY`. -/
def State.quantOk (s : State) : Bool :=
  s.blockOk ∧ ¬(s.cfg.qSmall = .refuse ∧ s.w.toNat < 16)

/-- The block side `N = W` (`10_state.md` R29). -/
def State.side (s : State) : Nat :=
  s.w.toNat

/-! ## The scan order (`42_zigzag.md` R146, R148) -/

/-- The rows of anti-diagonal `d` of an `n × n` block in the order in which R148 walks them. -/
def diagonalRows (n d : Nat) : List Nat :=
  let rows := (List.range' (d + 1 - n) (min d (n - 1) + 1 - (d + 1 - n)))
  if d % 2 = 1 then rows else rows.reverse

/-- `ZZdefault(n)`, R148: diagonals 0 to 2n − 2. -/
def diagonalScan (n : Nat) : List (Nat × Nat) :=
  (List.range (2 * n - 1)).flatMap (fun d => (diagonalRows n d).map (fun r => (r, d - r)))

/-- `ZZ_n`, R146: the positions in scan order. -/
def scanOrder (zz : ScanOrder) (n : Nat) : List (Nat × Nat) :=
  match zz with
  | .diagonal => diagonalScan n
  | .table zz8 zz16 zz32 => if n = 8 then zz8 else if n = 16 then zz16 else if n = 32 then zz32 else []

/-- The addresses of the block in scan order. -/
def State.scanAddrs (s : State) : List Nat :=
  s.cellAddrs (scanOrder s.cfg.zz s.side)

/-- The indices of `SQ` that a block of the current side uses: `0..N²−1`. -/
def State.sqIndices (s : State) : List Nat :=
  List.range (s.side * s.side)

/-! ## Fields of `VAL` (`10_state.md` R21) -/

/-- `VAL[15:0]`, `44_entropy.md` R186. -/
def State.valLow (s : State) : Nat :=
  s.val.toNat % 65536

/-- `VAL[7:0]`, `43_bitstream.md` R167. -/
def State.valBytes1 (s : State) : List Byte :=
  [s.val.extractLsb' 0 8]

/-- `VAL[15:8]`, `VAL[7:0]`, R168. -/
def State.valBytes2 (s : State) : List Byte :=
  [s.val.extractLsb' 8 8, s.val.extractLsb' 0 8]

/-- The four bytes of `VAL`, most significant first, R169. -/
def State.valBytes4 (s : State) : List Byte :=
  [s.val.extractLsb' 24 8, s.val.extractLsb' 16 8, s.val.extractLsb' 8 8, s.val.extractLsb' 0 8]

end Sys2Proof.Machine
end

