-- ==== Sys2Proof/Machine/Bitstream.lean ====
section
/-! DEFINITION. The bitstream packer and unpacker, `43_bitstream.md`. -/

namespace Sys2Proof.Machine

/-- A command that writes `OB`: its work on the writer, or `OutFull` with the writer unspecified (R177). -/
def writerCommand (work : Writer → Option Writer) (s : State) : Host.Outcome State Fault Refusal :=
  match work s.wr with
  | none => .next (s.forgetWriter.nextDraw.takeFault .outFull)
  | some w => .next { s with wr := w }.advance

/-- A command that reads `IB`: its work on the reader, then `store` of the value read; or the fault it meets, with the
reader and what `forget` names unspecified (R177, `60_exceptions.md` R246). -/
def readerCommand {α : Type} (work : Reader → Except FaultCode (α × Reader)) (store : α → State → State)
    (forget : State → State) (s : State) : Host.Outcome State Fault Refusal :=
  match work s.rd with
  | .error f => .next ((forget s.forgetReader).nextDraw.takeFault f)
  | .ok (x, r) => .next (store x { s with rd := r }).advance

/-- `VAL <- x`, zero-extended. -/
def State.setVal (x : Nat) (s : State) : State :=
  { s with val := BitVec.ofNat 32 x }

/-! ## Writer commands -/

/-- `PUTBITS n`, R165. -/
def execPutbits (n : BitVec 8) (s : State) : Host.Outcome State Fault Refusal :=
  writerCommand (Writer.putBits s.cfg.obBytes s.val.toNat n.toNat) s

/-- `FLUSH`, R166. -/
def execFlush (s : State) : Host.Outcome State Fault Refusal :=
  writerCommand (Writer.flush s.cfg.obBytes) s

/-- A byte field: `Flush()`, then the bytes. -/
def byteField (cap : Nat) (xs : List Byte) (w : Writer) : Option Writer :=
  (Writer.flush cap w).bind (Writer.appendBytes cap xs)

/-- `PUTU8`, R167. -/
def execPutu8 (s : State) : Host.Outcome State Fault Refusal :=
  writerCommand (byteField s.cfg.obBytes s.valBytes1) s

/-- `PUTU16`, R168. -/
def execPutu16 (s : State) : Host.Outcome State Fault Refusal :=
  writerCommand (byteField s.cfg.obBytes s.valBytes2) s

/-- `PUTU32`, R169. -/
def execPutu32 (s : State) : Host.Outcome State Fault Refusal :=
  writerCommand (byteField s.cfg.obBytes s.valBytes4) s

/-- `PUTSCALE`, R170. -/
def execPutscale (s : State) : Host.Outcome State Fault Refusal :=
  writerCommand (byteField s.cfg.obBytes [s.scale]) s

/-! ## Reader commands -/

/-- `GETBITS n`, R171. -/
def execGetbits (n : BitVec 8) (s : State) : Host.Outcome State Fault Refusal :=
  readerCommand (Reader.getBits n.toNat 0) State.setVal State.forgetVal s

/-- `RALIGN`, R172. -/
def execRalign (s : State) : Host.Outcome State Fault Refusal :=
  .next { s with rd := s.rd.align }.advance

/-- `GETU8`, R173. -/
def execGetu8 (s : State) : Host.Outcome State Fault Refusal :=
  readerCommand (fun r => Reader.takeBytes 1 0 r.align) State.setVal State.forgetVal s

/-- `GETU16`, R174. -/
def execGetu16 (s : State) : Host.Outcome State Fault Refusal :=
  readerCommand (fun r => Reader.takeBytes 2 0 r.align) State.setVal State.forgetVal s

/-- `GETU32`, R175. -/
def execGetu32 (s : State) : Host.Outcome State Fault Refusal :=
  readerCommand (fun r => Reader.takeBytes 4 0 r.align) State.setVal State.forgetVal s

/-- `GETSCALE`, R176. -/
def execGetscale (s : State) : Host.Outcome State Fault Refusal :=
  readerCommand (fun r => Reader.takeByte r.align) (fun x s => { s with scale := x }) State.forgetScale s

end Sys2Proof.Machine
end

