-- ==== Sys2Proof/Machine/Entropy.lean ====
section
/-! DEFINITION. The Golomb-Rice and run-length coder, `44_entropy.md`. -/

namespace Sys2Proof.Machine

/-! ## The Rice code of one value -/

/-- `RiceEnc(val, k)`, R181. -/
def riceEnc (cap val k : Nat) (w : Writer) : Option Writer :=
  ((Writer.putOnes cap (val / 2 ^ k) w).bind (Writer.putBit cap false)).bind
    (Writer.putBits cap (val % 2 ^ k) k)

/-- The unary part of `RiceDec`, R182: `q` ones have been counted and `left` more would be too many, so the one-bit
that brings `left` to 0 raises `BadCode`. -/
def riceUnary : Nat → Nat → Reader → Except FaultCode (Nat × Reader)
  | 0, _, _ => .error .badCode
  | left + 1, q, r =>
    match r.getBit with
    | .error f => .error f
    | .ok (true, r') => riceUnary left (q + 1) r'
    | .ok (false, r') => .ok (q, r')

/-- `RiceDec(k)`, R182. -/
def riceDec (k : Nat) (r : Reader) : Except FaultCode (Nat × Reader) :=
  match riceUnary (2 ^ (16 - k)) 0 r with
  | .error f => .error f
  | .ok (q, r') =>
    match Reader.getBits k 0 r' with
    | .error f => .error f
    | .ok (rem, r'') => .ok (q * 2 ^ k + rem, r'')

/-- `RICEENC kk`, R186. -/
def execRiceenc (kk : BitVec 8) (s : State) : Host.Outcome State Fault Refusal :=
  writerCommand (riceEnc s.cfg.obBytes s.valLow kk.toNat) s

/-- `RICEDEC kk`, R187. -/
def execRicedec (kk : BitVec 8) (s : State) : Host.Outcome State Fault Refusal :=
  readerCommand (riceDec kk.toNat) State.setVal State.forgetVal s

/-! ## The run-length code of a sequence -/

/-- `RLE_MAX_RUN`, `00_scope.md` R9. -/
def rleMaxRun : Nat := 65535

/-- One pair: its length with `k` = 1, then its value with `k` = 15, R188. -/
def putPair (cap len : Nat) (v : Sample) (w : Writer) : Option Writer :=
  (riceEnc cap len 1 w).bind (riceEnc cap v.toNat 15)

/-- The loop of R188 over the indices still to read, with a run of `len` times `v` behind it. As in the rule, a pair is
written as soon as its run is known to end, so before the words that follow are read: `none` says that the loop has
reached an unwritten word (`70_reset_and_hazards.md` R273), `some none` that a byte of a pair found no room before that
(`60_exceptions.md` R243 item 6). -/
def rleEncFrom (cap : Nat) (sq : Memory 16) : Sample → Nat → List Nat → Writer → Option (Option Writer)
  | v, len, [], w => some (putPair cap len v w)
  | v, len, i :: is, w =>
    match Memory.read sq i with
    | none => none
    | some x =>
      if x = v ∧ len < rleMaxRun then rleEncFrom cap sq v (len + 1) is w
      else
        match putPair cap len v w with
        | none => some none
        | some w' => rleEncFrom cap sq x 1 is w'

/-- The run-length encoder over the words at the indices listed, R188. -/
def rleEnc (cap : Nat) (sq : Memory 16) : List Nat → Writer → Option (Option Writer)
  | [], w => some (some w)
  | i :: is, w =>
    match Memory.read sq i with
    | none => none
    | some x => rleEncFrom cap sq x 1 is w

/-- `RLEENC`, R188. -/
def execRleenc (s : State) : Host.Outcome State Fault Refusal :=
  if s.blockOk = false then .next (s.takeFault .illegalConfig)
  else
    match rleEnc s.cfg.obBytes s.sq s.sqIndices s.wr with
    | none => .refused (.unwritten .sq)
    | some written => writerCommand (fun _ => written) s

/-- The loop of R189 with `missing` coefficients still to produce. Each pair takes at least one bit, so a loop with
more fuel than bits left in `IB` ends by itself; without fuel it answers the `Eof` that the empty reader raises. -/
def rleLoop : Nat → Nat → Reader → Except FaultCode (List Sample × Reader)
  | _, 0, r => .ok ([], r)
  | 0, _ + 1, _ => .error .eof
  | fuel + 1, missing + 1, r =>
    match riceDec 1 r with
    | .error f => .error f
    | .ok (len, r1) =>
      match riceDec 15 r1 with
      | .error f => .error f
      | .ok (v, r2) =>
        if missing + 1 < len then .error .runOverrun
        else
          match rleLoop fuel (missing + 1 - len) r2 with
          | .error f => .error f
          | .ok (xs, r3) => .ok (List.replicate len (BitVec.ofNat 16 v) ++ xs, r3)

/-- The run-length decoder of `n` coefficients, R189. -/
def rleDec (n : Nat) (r : Reader) : Except FaultCode (List Sample × Reader) :=
  rleLoop (8 * r.ib.length + 1) n r

/-- `RLEDEC`, R189. -/
def execRledec (s : State) : Host.Outcome State Fault Refusal :=
  if s.blockOk = false then .next (s.takeFault .illegalConfig)
  else
    readerCommand (rleDec (s.side * s.side))
      (fun xs s => { s with sq := writeWords s.sq s.sqIndices xs })
      (State.forgetSq (s.side * s.side)) s

end Sys2Proof.Machine
end

