-- ==== Sys2Proof/Machine/Flags.lean ====
section
/-! DEFINITION. The one flag, `OVF` (`10_state.md` R26, R27). -/

namespace Sys2Proof.Machine

/-- `fits16(z)`, `00_scope.md` R11. -/
def fits16 (z : Int) : Bool :=
  -32768 ≤ z ∧ z ≤ 32767

/-- Whether some of the values computed on mathematical integers does not fit in `Int16`: `40_dwt.md` R105,
`41_quantizer.md` R136. -/
def overflows (zs : List Int) : Bool :=
  !zs.all fits16

/-- The flag is sticky: set by an overflow, never cleared by one (`10_state.md` R27). -/
def stickyOvf (old event : Bool) : Bool :=
  old || event

end Sys2Proof.Machine
end

