-- ==== Sys2Proof/Machine/Lift.lean ====
section
/-! DEFINITION. The lifting wavelet transform, `40_dwt.md`: the one-line step and the eight commands. -/

namespace Sys2Proof.Machine

/-! ## The one-line step -/

/-- `half(z)`, R104. -/
def half (width : LiftWidth) (z : Int) : Int :=
  match width with
  | .wide => ashr z 1
  | .wrap16 => ashr (wrap16 z).toInt 1

/-- `quarter(z)`, R104. -/
def quarter (width : LiftWidth) (z : Int) : Int :=
  match width with
  | .wide => ashr z 2
  | .wrap16 => ashr (wrap16 z).toInt 2

/-- The even-indexed elements of a line. -/
def evens {α : Type} : List α → List α
  | [] => []
  | [x] => [x]
  | x :: _ :: xs => x :: evens xs

/-- The odd-indexed elements of a line. -/
def odds {α : Type} : List α → List α
  | [] => []
  | [_] => []
  | _ :: y :: xs => y :: odds xs

/-- A line from its even-indexed and its odd-indexed elements. -/
def interleave {α : Type} : List α → List α → List α
  | x :: xs, y :: ys => x :: y :: interleave xs ys
  | xs, [] => xs
  | [], ys => ys

/-- Element `i + 1` at place `i`, the last element again at the end: "using `low[last]` again", R102, R107. -/
def nextOrLast {α : Type} (xs : List α) : List α :=
  xs.tail ++ xs.getLast?.toList

/-- Element `i − 1` at place `i`, the first element again at the start: "using `high[0]` again", R102, R107. -/
def prevOrFirst {α : Type} (xs : List α) : List α :=
  xs.head?.toList ++ xs.dropLast

/-- The predict sums `low[i] + low[j]`, R102. -/
def predictSums (low : List Sample) : List Int :=
  List.zipWith (fun x y => x.toInt + y.toInt) low (nextOrLast low)

/-- The update sums `d[a] + d[i] + 2`, R102. -/
def updateSums (d : List Sample) : List Int :=
  List.zipWith (fun x y => x.toInt + y.toInt + 2) (prevOrFirst d) d

/-- A line after a lifting step, and whether the step meets one of the events of R105. -/
structure LineResult where
  out : List Sample
  ovf : Bool
  deriving DecidableEq, Repr

/-- `FLift`, R102, with the overflow events of R105. -/
def fLift (width : LiftWidth) (x : List Sample) : LineResult :=
  let low := evens x
  let high := odds x
  let p := predictSums low
  let dz := List.zipWith (fun v z => v.toInt - half width z) high p
  let d := dz.map wrap16
  let u := updateSums d
  let sz := List.zipWith (fun v z => v.toInt + quarter width z) low u
  { out := sz.map wrap16 ++ d, ovf := overflows (p ++ dz ++ u ++ sz) }

/-- `ILift`, R103, with the overflow events of R105. -/
def iLift (width : LiftWidth) (y : List Sample) : LineResult :=
  let s := y.take (y.length / 2)
  let d := y.drop (y.length / 2)
  let u := updateSums d
  let lz := List.zipWith (fun v z => v.toInt - quarter width z) s u
  let low := lz.map wrap16
  let p := predictSums low
  let hz := List.zipWith (fun v z => v.toInt + half width z) d p
  { out := interleave low (hz.map wrap16), ovf := overflows (u ++ lz ++ p ++ hz) }

/-! ## Lines of the region -/

/-- What a lifting command changes: `CM` and `OVF`. -/
structure LiftState where
  cm  : Memory 16
  ovf : Bool
  deriving DecidableEq, Repr

/-- One step on the line at the addresses listed: all reads precede all writes (R102, R103). `none`: an unwritten
word. -/
def liftLine (step : List Sample → LineResult) (addrs : List Nat) (a : LiftState) : Option LiftState :=
  match readWords a.cm addrs with
  | none => none
  | some x =>
    some { cm := writeWords a.cm addrs (step x).out, ovf := stickyOvf a.ovf (step x).ovf }

/-- One step on each of the lines listed, in order. -/
def liftLines (step : List Sample → LineResult) : List (List Nat) → LiftState → Option LiftState
  | [], a => some a
  | l :: ls, a => (liftLine step l a).bind (liftLines step ls)

/-- `Fwd2D(w, h)`, R111: every row, then every column. -/
def fwd2D (s : State) (w h : Nat) (a : LiftState) : Option LiftState :=
  (liftLines (fLift s.cfg.liftWidth) ((List.range h).map (s.rowLine w)) a).bind
    (liftLines (fLift s.cfg.liftWidth) ((List.range w).map (s.colLine h)))

/-- `Inv2D(w, h)`, R118: every column, then every row. -/
def inv2D (s : State) (w h : Nat) (a : LiftState) : Option LiftState :=
  (liftLines (iLift s.cfg.liftWidth) ((List.range w).map (s.colLine h)) a).bind
    (liftLines (iLift s.cfg.liftWidth) ((List.range h).map (s.rowLine w)))

/-- A lifting command: the checks of R112, then its work on `CM` and `OVF`. -/
def liftCommand (dimOk : Bool) (work : LiftState → Option LiftState) (s : State) :
    Host.Outcome State Fault Refusal :=
  match s.regionFault dimOk with
  | some f => .next (s.takeFault f)
  | none =>
    match work { cm := s.cm, ovf := s.ovf } with
    | none => .refused (.unwritten .cm)
    | some a => .next { s with cm := a.cm, ovf := a.ovf }.advance

/-! ## The commands -/

/-- `FLIFTR`, R113. -/
def execFliftr (row : BitVec 16) (s : State) : Host.Outcome State Fault Refusal :=
  liftCommand (s.rowOk row) (liftLine (fLift s.cfg.liftWidth) (s.rowLine s.w.toNat row.toNat)) s

/-- `FLIFTC`, R114. -/
def execFliftc (col : BitVec 16) (s : State) : Host.Outcome State Fault Refusal :=
  liftCommand (s.colOk col) (liftLine (fLift s.cfg.liftWidth) (s.colLine s.h.toNat col.toNat)) s

/-- `ILIFTR`, R115. -/
def execIliftr (row : BitVec 16) (s : State) : Host.Outcome State Fault Refusal :=
  liftCommand (s.rowOk row) (liftLine (iLift s.cfg.liftWidth) (s.rowLine s.w.toNat row.toNat)) s

/-- `ILIFTC`, R116. -/
def execIliftc (col : BitVec 16) (s : State) : Host.Outcome State Fault Refusal :=
  liftCommand (s.colOk col) (liftLine (iLift s.cfg.liftWidth) (s.colLine s.h.toNat col.toNat)) s

/-- `FDWT2`, R117. -/
def execFdwt2 (s : State) : Host.Outcome State Fault Refusal :=
  liftCommand s.planeOk (fwd2D s s.w.toNat s.h.toNat) s

/-- `IDWT2`, R118. -/
def execIdwt2 (s : State) : Host.Outcome State Fault Refusal :=
  liftCommand s.planeOk (inv2D s s.w.toNat s.h.toNat) s

/-- `FDWT2L`, R119: the second pass on the top-left quarter, same `ORG`, same `STRIDE`. -/
def execFdwt2l (s : State) : Host.Outcome State Fault Refusal :=
  liftCommand s.plane2Ok
    (fun a => (fwd2D s s.w.toNat s.h.toNat a).bind (fwd2D s (s.w.toNat / 2) (s.h.toNat / 2))) s

/-- `IDWT2L`, R120. -/
def execIdwt2l (s : State) : Host.Outcome State Fault Refusal :=
  liftCommand s.plane2Ok
    (fun a => (inv2D s (s.w.toNat / 2) (s.h.toNat / 2) a).bind (inv2D s s.w.toNat s.h.toNat)) s

end Sys2Proof.Machine
end

