-- ==== Sys2Proof/Machine/Quant.lean ====
section
/-! DEFINITION. The quantizer and dequantizer, `41_quantizer.md`. -/

namespace Sys2Proof.Machine

/-- `offset(r, c, N)`, R131. -/
def zoneOffset (n r c : Nat) : Nat :=
  if r < n / 4 ∧ c < n / 4 then 0
  else if r < n / 2 ∧ c < n / 2 then 2
  else 5

/-- `shift(r, c, N, scale)`, R132: neither clamped nor reduced, since `scale` and the offset are not negative. -/
def zoneShift (n scale : Nat) (p : Nat × Nat) : Nat :=
  scale + zoneOffset n p.1 p.2

/-- `Q(v, sh)` on mathematical integers, R134. -/
def quantized (v : Int) (sh : Nat) : Int :=
  if sh = 0 then v else v.sign * (((v.natAbs + 2 ^ (sh - 1)) / 2 ^ sh : Nat) : Int)

/-- `q × 2^sh` on mathematical integers, R135. -/
def dequantized (q : Int) (sh : Nat) : Int :=
  q * 2 ^ sh

/-- The shifts of the cells of the current block, row by row. -/
def State.cellShifts (s : State) : List Nat :=
  (blockCells s.side).map (zoneShift s.side s.scale.toNat)

/-- The work of a quantizer command on its block: each cell's new value from its old one and its shift, and the `OVF`
event of the values before narrowing. -/
def quantCommand (value : Int → Nat → Int) (s : State) : Host.Outcome State Fault Refusal :=
  match s.regionFault s.quantOk with
  | some f => .next (s.takeFault f)
  | none =>
    let addrs := s.cellAddrs (blockCells s.side)
    match readWords s.cm addrs with
    | none => .refused (.unwritten .cm)
    | some vs =>
      let zs := List.zipWith (fun v sh => value v.toInt sh) vs s.cellShifts
      .next { s with cm := writeWords s.cm addrs (zs.map wrap16), ovf := stickyOvf s.ovf (overflows zs) }.advance

/-- `QUANT`, R139. Its values always fit in `Int16` (R134), so it never sets `OVF`. -/
def execQuant (s : State) : Host.Outcome State Fault Refusal :=
  quantCommand quantized s

/-- `DEQUANT`, R140. -/
def execDequant (s : State) : Host.Outcome State Fault Refusal :=
  quantCommand dequantized s

end Sys2Proof.Machine
end

