-- ==== Sys2Proof/Machine/Scan.lean ====
section
/-! DEFINITION. The zigzag scanner, `42_zigzag.md`. -/

namespace Sys2Proof.Machine

/-- `ZIGZAG`, R150: `SQ[i] <- blk(ZZ_N(i))`. -/
def execZigzag (s : State) : Host.Outcome State Fault Refusal :=
  match s.regionFault s.blockOk with
  | some f => .next (s.takeFault f)
  | none =>
    match readWords s.cm s.scanAddrs with
    | none => .refused (.unwritten .cm)
    | some vs => .next { s with sq := writeWords s.sq s.sqIndices vs }.advance

/-- `UNZIGZAG`, R151: `blk(ZZ_N(i)) <- SQ[i]`. -/
def execUnzigzag (s : State) : Host.Outcome State Fault Refusal :=
  match s.regionFault s.blockOk with
  | some f => .next (s.takeFault f)
  | none =>
    match readWords s.sq s.sqIndices with
    | none => .refused (.unwritten .sq)
    | some vs => .next { s with cm := writeWords s.cm s.scanAddrs vs }.advance

end Sys2Proof.Machine
end

