-- ==== Sys2Proof/Machine/System.lean ====
section
/-! DEFINITION. The system commands, `45_system.md`. -/

namespace Sys2Proof.Machine

/-- `NOP`, R200. -/
def execNop (s : State) : Host.Outcome State Fault Refusal :=
  .next s.advance

/-- `HALT`, R201: `pc` stays. -/
def execHalt (s : State) : Host.Outcome State Fault Refusal :=
  .next { s with run := .halted }

/-- `SETR`, R202. -/
def execSetr (reg : CtrlReg) (v : BitVec 16) (s : State) : Host.Outcome State Fault Refusal :=
  match reg with
  | .org => .next { s with org := v }.advance
  | .stride => .next { s with stride := v }.advance
  | .w => .next { s with w := v }.advance
  | .h => .next { s with h := v }.advance
  | .scale => .next { s with scale := v.setWidth 8 }.advance

/-- `LDVAL`, R203. -/
def execLdval (v : BitVec 16) (s : State) : Host.Outcome State Fault Refusal :=
  .next { s with val := v.setWidth 32 }.advance

/-- `LDVALH`, R204: `VAL <- {v, VAL[15:0]}`. -/
def execLdvalh (v : BitVec 16) (s : State) : Host.Outcome State Fault Refusal :=
  .next { s with val := v ++ s.val.extractLsb' 0 16 }.advance

/-- `CLRF`, R205. -/
def execClrf (s : State) : Host.Outcome State Fault Refusal :=
  .next { s with ovf := false }.advance

end Sys2Proof.Machine
end

