-- ==== Sys2Proof/Machine/Dispatch.lean ====
section
/-! DEFINITION. One arm per command. -/

namespace Sys2Proof.Machine

def exec (i : Instr) (s : State) : Host.Outcome State Fault Refusal :=
  match i with
  | .nop => Sys2Proof.Machine.execNop s
  | .halt => Sys2Proof.Machine.execHalt s
  | .setr reg v => Sys2Proof.Machine.execSetr reg v s
  | .ldval v => Sys2Proof.Machine.execLdval v s
  | .ldvalh v => Sys2Proof.Machine.execLdvalh v s
  | .clrf => Sys2Proof.Machine.execClrf s
  | .fliftr row => Sys2Proof.Machine.execFliftr row s
  | .fliftc col => Sys2Proof.Machine.execFliftc col s
  | .iliftr row => Sys2Proof.Machine.execIliftr row s
  | .iliftc col => Sys2Proof.Machine.execIliftc col s
  | .fdwt2 => Sys2Proof.Machine.execFdwt2 s
  | .idwt2 => Sys2Proof.Machine.execIdwt2 s
  | .fdwt2l => Sys2Proof.Machine.execFdwt2l s
  | .idwt2l => Sys2Proof.Machine.execIdwt2l s
  | .quant => Sys2Proof.Machine.execQuant s
  | .dequant => Sys2Proof.Machine.execDequant s
  | .zigzag => Sys2Proof.Machine.execZigzag s
  | .unzigzag => Sys2Proof.Machine.execUnzigzag s
  | .putbits n => Sys2Proof.Machine.execPutbits n s
  | .flush => Sys2Proof.Machine.execFlush s
  | .putu8 => Sys2Proof.Machine.execPutu8 s
  | .putu16 => Sys2Proof.Machine.execPutu16 s
  | .putu32 => Sys2Proof.Machine.execPutu32 s
  | .putscale => Sys2Proof.Machine.execPutscale s
  | .getbits n => Sys2Proof.Machine.execGetbits n s
  | .ralign => Sys2Proof.Machine.execRalign s
  | .getu8 => Sys2Proof.Machine.execGetu8 s
  | .getu16 => Sys2Proof.Machine.execGetu16 s
  | .getu32 => Sys2Proof.Machine.execGetu32 s
  | .getscale => Sys2Proof.Machine.execGetscale s
  | .riceenc kk => Sys2Proof.Machine.execRiceenc kk s
  | .ricedec kk => Sys2Proof.Machine.execRicedec kk s
  | .rleenc => Sys2Proof.Machine.execRleenc s
  | .rledec => Sys2Proof.Machine.execRledec s

end Sys2Proof.Machine
end

