-- ==== Sys2Proof/Machine/Step.lean ====
section
/-! DEFINITION. The sequencer's step (`45_system.md` R207), and how a word is placed where the step fetches it. -/

namespace Sys2Proof.Machine

/-- One step, R207: fetch, decode, execute. In a run state other than RUNNING the sequencer has no step. -/
def step (s : State) : Host.Outcome State Fault Refusal :=
  match s.run with
  | .running =>
    match s.fetch with
    | none => .next (s.takeFault .fetchRange)
    | some cw =>
      match decode cw with
      | .error _ => .next (s.takeFault .illegalCommand)
      | .ok i => exec i s
  | r => .fault (.notRunning r)

/-- The state with the word `w` at the index `pc`, and the sequencer running without a fault, so that the next step
fetches that word: what the host does with `H_LOADPROG`, `H_CLEARFAULT` and `H_START` (`10_state.md` R37, log entry 7).
An index that the command memory does not have is replaced by 0, where every run begins. -/
def State.withFetchWord (s : State) (nbits w : Nat) : State :=
  let at0 := if s.pc.toNat < s.cfg.pmWords then s.pc else 0
  { s with pm := placeWord (BitVec.ofNat 32 (w % 2 ^ nbits)) s.pm at0.toNat, pc := at0, run := .running, fcode := none }

end Sys2Proof.Machine
end

