-- ==== Sys2Proof/Machine/HostActions.lean ====
section
/-! DEFINITION. The second agent: the host actions of `10_state.md` R37, with the register map of R28. They are the only
ways the outside touches the block; `step` never takes one. -/

namespace Sys2Proof.Machine

/-- The host actions that change state, R37. -/
inductive HostAction where
  | reset
  | loadProg (words : List CmdWord)
  | writeCM (a : Nat) (v : Sample)
  | writeSQ (i : Nat) (v : Sample)
  | loadIB (bytes : List Byte)
  | clearOB
  | writeReg (n : Nat) (v : BitVec 32)
  | start
  | clearFault
  deriving DecidableEq, Repr

/-- The host actions that only read, R37. -/
inductive HostRead where
  | cm (a : Nat)
  | sq (i : Nat)
  | ob (i : Nat)
  | reg (n : Nat)
  deriving DecidableEq, Repr

/-- Why the host has no such move (`70_reset_and_hazards.md` R278, `93_implementation_defined.md` U5), or why a read is
refused (R273). -/
inductive NoMove where
  /-- The sequencer is running and the action is neither `H_RESET` nor a read of `STATUS`. -/
  | running
  /-- The run state is not one from which R37 allows `H_START` or `H_CLEARFAULT`. -/
  | wrongRunState
  /-- An address, an index or a length beyond the space. -/
  | outOfRange
  /-- A register number above 14, or a register the host may not write. -/
  | noSuchRegister
  /-- A word that nobody has written since reset. -/
  | unwritten
  deriving DecidableEq, Repr

/-- The effect of `H_WRITE_REG(n, v)`, R28: registers 0 to 4 and 7, `v` truncated to the register's width. -/
def State.writeReg (n : Nat) (v : BitVec 32) (s : State) : Except NoMove State :=
  match n with
  | 0 => .ok { s with org := v.setWidth 16 }
  | 1 => .ok { s with stride := v.setWidth 16 }
  | 2 => .ok { s with w := v.setWidth 16 }
  | 3 => .ok { s with h := v.setWidth 16 }
  | 4 => .ok { s with scale := v.setWidth 8 }
  | 7 => .ok { s with val := v }
  | _ => .error .noSuchRegister

/-- The bits of register `n`, R28, in the width of the widest one (`VAL`), zero-extended. -/
def State.readReg (n : Nat) (s : State) : Except NoMove (BitVec 32) :=
  match n with
  | 0 => .ok (s.org.setWidth 32)
  | 1 => .ok (s.stride.setWidth 32)
  | 2 => .ok (s.w.setWidth 32)
  | 3 => .ok (s.h.setWidth 32)
  | 4 => .ok (s.scale.setWidth 32)
  | 5 => .ok (s.status.setWidth 32)
  | 6 => .ok (s.fpc.setWidth 32)
  | 7 => .ok s.val
  | 8 => .ok s.olen
  | 9 => .ok (s.wstate.setWidth 32)
  | 10 => .ok s.ilen
  | 11 => .ok s.rd.rpos
  | 12 => .ok (s.rd.rbit.setWidth 32)
  | 13 => .ok (s.pc.setWidth 32)
  | 14 => .ok (s.plen.setWidth 32)
  | _ => .error .noSuchRegister

/-- `H_RESET`, `70_reset_and_hazards.md` R270: the table of `10_state.md` R42. The parameters are not state (R41), and
the draws go on so that no free value comes twice. -/
def State.hardReset (s : State) : State :=
  { State.reset with cfg := s.cfg, draws := s.draws }

/-- The effect of a host action made while the sequencer is not running, R37. -/
def State.hostEffect (a : HostAction) (s : State) : Except NoMove State :=
  match a with
  | .reset => .ok s.hardReset
  | .loadProg words => if words.length ≤ s.cfg.pmWords then .ok { s with pm := words } else .error .outOfRange
  | .writeCM a v => if a < s.cfg.cmWords then .ok { s with cm := Memory.write s.cm a v } else .error .outOfRange
  | .writeSQ i v => if i < 1024 then .ok { s with sq := Memory.write s.sq i v } else .error .outOfRange
  | .loadIB bytes =>
    if bytes.length ≤ s.cfg.ibBytes then .ok { s with rd := { ib := bytes, rpos := 0, rbit := 0 } }
    else .error .outOfRange
  | .clearOB => .ok { s with wr := { ob := [], wacc := 0, wcnt := 0 } }
  | .writeReg n v => s.writeReg n v
  | .start => if s.run = .idle ∨ s.run = .halted then .ok s.start else .error .wrongRunState
  | .clearFault => if s.run = .faulted then .ok s.clearFault else .error .wrongRunState

/-- A host action, R37: every one but `H_RESET` requires that the sequencer is not running. -/
def hostAct (a : HostAction) (s : State) : Except NoMove State :=
  if s.run = .running ∧ a ≠ .reset then .error .running else s.hostEffect a

/-- The value of a host read made while the sequencer is not running, R37. "The host sees words as integers"
(`20_memory.md` R51), so the answer is an integer: a word of `CM` or `SQ` is the `Int16` it holds (R34, R35), a byte and a
register the unsigned number of its bits (log entry 16: DEDUCED). -/
def State.hostValue (r : HostRead) (s : State) : Except NoMove Int :=
  match r with
  | .cm a =>
    if a < s.cfg.cmWords then
      match Memory.read s.cm a with
      | none => .error .unwritten
      | some v => .ok v.toInt
    else .error .outOfRange
  | .sq i =>
    if i < 1024 then
      match Memory.read s.sq i with
      | none => .error .unwritten
      | some v => .ok v.toInt
    else .error .outOfRange
  | .ob i =>
    match s.wr.ob[i]? with
    | none => .error .outOfRange
    | some x => .ok (x.toNat : Int)
  | .reg n => (s.readReg n).map (fun v => (v.toNat : Int))

/-- A host read, R37: every one but that of `STATUS` (register 5) requires that the sequencer is not running. -/
def hostRead (r : HostRead) (s : State) : Except NoMove Int :=
  if s.run = .running ∧ r ≠ .reg 5 then .error .running else s.hostValue r

end Sys2Proof.Machine
end

