-- ==== Sys2Proof/Safety.lean ====
section
/-! DEFINITION. The terms claims use: legal parameters and legal states, the region in words, the bit strings that the
writer has written and the reader has left, the codes of `44_entropy.md` as bit strings, and which command may do what
(`60_exceptions.md` R242, `10_state.md` R27, R28). -/

namespace Sys2Proof.Machine

/-! ## Legal parameters and states -/

/-- A scan order of an `n × n` block visits every position exactly once, `42_zigzag.md` R146. -/
def IsScan (n : Nat) (ps : List (Nat × Nat)) : Prop :=
  ps.Nodup ∧ (∀ p ∈ ps, p.1 < n ∧ p.2 < n) ∧ ∀ r < n, ∀ c < n, (r, c) ∈ ps

/-- The constraints of `00_scope.md` R9. -/
structure LegalConfig (c : Config) : Prop where
  cmWords : 1024 ≤ c.cmWords ∧ c.cmWords ≤ 65536
  pmWords : 1 ≤ c.pmWords ∧ c.pmWords ≤ 65535
  obBytes : 1 ≤ c.obBytes ∧ c.obBytes ≤ 2 ^ 32 - 1
  ibBytes : c.ibBytes ≤ 2 ^ 32 - 1
  scan8   : IsScan 8 (scanOrder c.zz 8)
  scan16  : IsScan 16 (scanOrder c.zz 16)
  scan32  : IsScan 32 (scanOrder c.zz 32)

/-- "the remaining low `8 − WCNT` bits of `WACC` are always 0", `10_state.md` R38. -/
abbrev Writer.Legal (w : Writer) : Prop :=
  w.wacc.toNat % 2 ^ (8 - w.wcnt.toNat) = 0

/-- `0 ≤ RPOS ≤ ILEN`, and "when `RPOS = ILEN` no bit is available and `RBIT = 0`", `10_state.md` R39; `ILEN` is a
32-bit register. -/
abbrev Reader.Legal (r : Reader) : Prop :=
  r.ib.length < 2 ^ 32 ∧ r.rpos.toNat ≤ r.ib.length ∧ (r.rpos.toNat = r.ib.length → r.rbit = 0)

/-- What holds of the block at reset and is kept by every step and every host action: legal parameters, memories in
canonical form and within their spaces, buffers within their capacities, a legal writer and reader, a fault code
exactly in `FAULTED`, and, while running, a `pc` that has not run past the end by more than the fetch that faults. -/
structure State.Inv (s : State) : Prop where
  config  : LegalConfig s.cfg
  program : s.pm.length ≤ s.cfg.pmWords
  cmForm  : Memory.wf s.cm
  cmSpace : ∀ e ∈ s.cm, e.1 < s.cfg.cmWords
  sqForm  : Memory.wf s.sq
  sqSpace : ∀ e ∈ s.sq, e.1 < 1024
  output  : s.wr.ob.length ≤ s.cfg.obBytes
  writer  : s.wr.Legal
  input   : s.rd.ib.length ≤ s.cfg.ibBytes
  reader  : s.rd.Legal
  faulted : s.fcode.isSome ↔ s.run = .faulted
  counter : s.run = .running → s.pc.toNat ≤ s.pm.length

/-! ## The region -/

/-- `STRIDE ≥ W` and `ORG + (H − 1) × STRIDE + W ≤ CM_WORDS`, `20_memory.md` R53. -/
abbrev State.RegionFits (s : State) : Prop :=
  s.w.toNat ≤ s.stride.toNat ∧
    s.org.toNat + (s.h.toNat - 1) * s.stride.toNat + s.w.toNat ≤ s.cfg.cmWords

/-- Every word of the region has been written (`70_reset_and_hazards.md` R272 item 2). -/
abbrev State.RegionWritten (s : State) : Prop :=
  ∀ r < s.h.toNat, ∀ c < s.w.toNat, (Memory.read s.cm (s.blkAddr r c)).isSome

/-- Address `a` lies in no row of the region. -/
abbrev State.OutsideRegion (s : State) (a : Nat) : Prop :=
  ∀ r < s.h.toNat, ∀ c < s.w.toNat, a ≠ s.blkAddr r c

/-- "`W = H` and `W` in {8, 16, 32}", `41_quantizer.md` R138. -/
abbrev State.BlockSide (s : State) : Prop :=
  s.w = s.h ∧ (s.w.toNat = 8 ∨ s.w.toNat = 16 ∨ s.w.toNat = 32)

/-- "even, at least 2", `40_dwt.md` R117. -/
abbrev EvenSize (n : Nat) : Prop :=
  n % 2 = 0 ∧ 2 ≤ n

/-- "multiple of 4, at least 4", `40_dwt.md` R119. -/
abbrev QuadSize (n : Nat) : Prop :=
  n % 4 = 0 ∧ 4 ≤ n

/-- The commands that use the region, `20_memory.md` R50. -/
def usesRegion : Instr → Bool
  | .fliftr _ | .fliftc _ | .iliftr _ | .iliftc _ | .fdwt2 | .idwt2 | .fdwt2l | .idwt2l
  | .quant | .dequant | .zigzag | .unzigzag => true
  | _ => false

/-- The dimension check of a command that uses the region: `40_dwt.md` R113 to R120, `41_quantizer.md` R138,
`42_zigzag.md` R149. -/
def DimensionsOk (i : Instr) (s : State) : Prop :=
  match i with
  | .fliftr row | .iliftr row => EvenSize s.w.toNat ∧ row.toNat < s.h.toNat
  | .fliftc col | .iliftc col => EvenSize s.h.toNat ∧ col.toNat < s.w.toNat
  | .fdwt2 | .idwt2 => EvenSize s.w.toNat ∧ EvenSize s.h.toNat
  | .fdwt2l | .idwt2l => QuadSize s.w.toNat ∧ QuadSize s.h.toNat
  | .quant | .dequant => s.BlockSide ∧ (s.cfg.qSmall = .refuse → 16 ≤ s.w.toNat)
  | .zigzag | .unzigzag => s.BlockSide
  | _ => True

/-- Commands executed one after another. -/
def execAll : List Instr → State → Host.Outcome State Fault Refusal
  | [], s => .next s
  | i :: is, s =>
    match exec i s with
    | .next t => execAll is t
    | .fault f => .fault f
    | .refused r => .refused r

/-! ## Bit strings -/

/-- Bits `n − 1` down to 0 of `v`: most significant bit first, `20_memory.md` R55. -/
def msbBits : Nat → Nat → List Bool
  | 0, _ => []
  | n + 1, v => v.testBit n :: msbBits n v

/-- The number whose bits, most significant first, are listed. -/
def bitsValue (bs : List Bool) : Nat :=
  bs.foldl (fun v b => 2 * v + b.toNat) 0

/-- The bits of bytes, in the order in which they travel. -/
def byteBits (xs : List Byte) : List Bool :=
  xs.flatMap (fun x => msbBits 8 x.toNat)

/-- The number whose bytes, most significant first, are listed (`20_memory.md` R56). -/
def bigEndian (xs : List Byte) : Nat :=
  xs.foldl (fun v x => 256 * v + x.toNat) 0

/-- The bits written so far: the bytes of `OB` and the pending bits, `43_bitstream.md` R160. -/
def Writer.bits (w : Writer) : List Bool :=
  byteBits w.ob ++ (msbBits 8 w.wacc.toNat).take w.wcnt.toNat

/-- `n` more bits fit an `OB` of `cap` bytes: the bytes they complete can be appended. -/
abbrev Writer.HasRoom (cap n : Nat) (w : Writer) : Prop :=
  w.ob.length + (w.wcnt.toNat + n) / 8 ≤ cap

/-- The bytes of `OB` once the pending partial byte is completed with zero bits, R158. -/
def Writer.padded (w : Writer) : List Byte :=
  if w.wcnt = 0 then w.ob else w.ob ++ [w.wacc]

/-- The position of the next bit, counted from the first bit of `IB`. -/
def Reader.position (r : Reader) : Nat :=
  8 * r.rpos.toNat + r.rbit.toNat

/-- The bits not read yet. -/
def Reader.rest (r : Reader) : List Bool :=
  (byteBits r.ib).drop r.position

/-- `Avail`, `43_bitstream.md` R161. -/
def Reader.avail (r : Reader) : Nat :=
  8 * (r.ib.length - r.rpos.toNat) - r.rbit.toNat

/-- The index of the next whole byte, R163. -/
def Reader.nextByte (r : Reader) : Nat :=
  if r.rbit = 0 then r.rpos.toNat else r.rpos.toNat + 1

/-! ## Codes (`44_entropy.md`) -/

/-- The Rice code of `v` with parameter `k`, R180, R181. -/
def riceCode (k v : Nat) : List Bool :=
  List.replicate (v / 2 ^ k) true ++ false :: msbBits k (v % 2 ^ k)

/-- The code of a list of `(length, value)` pairs, R188. -/
def pairsCode (ps : List (Nat × Sample)) : List Bool :=
  ps.flatMap (fun p => riceCode 1 p.1 ++ riceCode 15 p.2.toNat)

/-- The runs of a sequence that continues a run of `len` times `v`, R188: maximal, but cut at `RLE_MAX_RUN`. -/
def runsFrom (v : Sample) : Nat → List Sample → List (Nat × Sample)
  | len, [] => [(len, v)]
  | len, x :: xs =>
    if x = v ∧ len < rleMaxRun then runsFrom v (len + 1) xs
    else (len, v) :: runsFrom x 1 xs

/-- The `(length, value)` pairs of a sequence, R188. -/
def runs : List Sample → List (Nat × Sample)
  | [] => []
  | x :: xs => runsFrom x 1 xs

/-- Bits that end before they complete a Rice code with parameter `k`, R182: too few ones to be no code and nothing after
them, or a remainder that is cut short. -/
abbrev EndsInsideCode (k : Nat) (bs : List Bool) : Prop :=
  ∃ q < 2 ^ (16 - k), bs = List.replicate q true ∨
    ∃ rem : List Bool, rem.length < k ∧ bs = List.replicate q true ++ false :: rem

/-- The sequence that a list of pairs stands for. -/
def expand (ps : List (Nat × Sample)) : List Sample :=
  ps.flatMap (fun p => List.replicate p.1 p.2)

/-! ## Which command may do what -/

/-- The faults a command can raise, `60_exceptions.md` R242. -/
def mayRaise : Instr → List FaultCode
  | .nop | .halt | .setr _ _ | .ldval _ | .ldvalh _ | .clrf | .ralign => []
  | .fliftr _ | .fliftc _ | .iliftr _ | .iliftc _ | .fdwt2 | .idwt2 | .fdwt2l | .idwt2l => [.illegalConfig, .addrRange]
  | .quant | .dequant | .zigzag | .unzigzag => [.illegalConfig, .addrRange]
  | .putbits _ | .flush | .putu8 | .putu16 | .putu32 | .putscale | .riceenc _ => [.outFull]
  | .rleenc => [.illegalConfig, .outFull]
  | .getbits _ | .getu8 | .getu16 | .getu32 | .getscale => [.eof]
  | .ricedec _ => [.eof, .badCode]
  | .rledec => [.illegalConfig, .eof, .badCode, .runOverrun]

/-- The commands that can set `OVF`, `10_state.md` R27. -/
def setsOvf : Instr → Bool
  | .fliftr _ | .fliftc _ | .iliftr _ | .iliftc _ | .fdwt2 | .idwt2 | .fdwt2l | .idwt2l | .dequant => true
  | _ => false

/-- The commands that write `CM`, `20_memory.md` R50. -/
def writesCM : Instr → Bool
  | .fliftr _ | .fliftc _ | .iliftr _ | .iliftc _ | .fdwt2 | .idwt2 | .fdwt2l | .idwt2l
  | .quant | .dequant | .unzigzag => true
  | _ => false

/-- The commands that write `SQ`, `20_memory.md` R50. -/
def writesSQ : Instr → Bool
  | .zigzag | .rledec => true
  | _ => false

/-- The commands that write `OB` and the writer's registers, `20_memory.md` R50. -/
def writesOB : Instr → Bool
  | .putbits _ | .flush | .putu8 | .putu16 | .putu32 | .putscale | .riceenc _ | .rleenc => true
  | _ => false

/-- The commands that read `IB` and move the reader, `20_memory.md` R50. -/
def readsIB : Instr → Bool
  | .getbits _ | .ralign | .getu8 | .getu16 | .getu32 | .getscale | .ricedec _ | .rledec => true
  | _ => false

/-- The commands that write `VAL`, `10_state.md` R28. -/
def writesVal : Instr → Bool
  | .ldval _ | .ldvalh _ | .getbits _ | .getu8 | .getu16 | .getu32 | .ricedec _ => true
  | _ => false

/-- The commands that write `SCALE`, `10_state.md` R28. -/
def writesScale : Instr → Bool
  | .setr .scale _ | .getscale => true
  | _ => false

end Sys2Proof.Machine
end

