-- ==== Sys2Proof/Certificates/Slice0/Obligations.lean ====
section
/-! DEFINITION. The statements about the model, from the numbered rules of spec/. -/

open Sys2Proof Sys2Proof.Machine

/-! ## Encoding and the step -/

/-- `30_encoding.md` R76: a word decodes to a command exactly if the command is legal and the word is its encoding; so
decoding is total, at most one command per word, and `decode(encode(c)) = c`. -/
def Obligations.DecodeAcceptsExactlyTheEncodings : Prop :=
  ∀ (cw : CmdWord) (i : Instr), decode cw = .ok i ↔ i.WellFormed = true ∧ encode i = cw

/-- `30_encoding.md` R75, with its five examples, read both ways; and, written out from the table of R74, one more word
for each family with the command it decodes to. -/
def Obligations.EncodingFormulaAndWords : Prop :=
  (∀ i : Instr, (encode i).toNat =
    (encodeFields i).op.toNat * 2 ^ 24 + (encodeFields i).a.toNat * 2 ^ 16 + (encodeFields i).imm.toNat) ∧
  (encode (.setr .w 8) = 0x03020008 ∧ encode .fdwt2 = 0x14000000 ∧ encode (.riceenc 15) = 0x400F0000 ∧
    encode (.putbits 32) = 0x30200000 ∧ encode .halt = 0x02000000) ∧
  (decode 0x03020008 = .ok (.setr .w 8) ∧ decode 0x14000000 = .ok .fdwt2 ∧ decode 0x400F0000 = .ok (.riceenc 15) ∧
    decode 0x30200000 = .ok (.putbits 32) ∧ decode 0x02000000 = .ok .halt) ∧
  (decode 0x05001234 = .ok (.ldvalh 0x1234) ∧ decode 0x11000007 = .ok (.fliftc 7) ∧ decode 0x17000000 = .ok .idwt2l ∧
    decode 0x21000000 = .ok .dequant ∧ decode 0x29000000 = .ok .unzigzag ∧ decode 0x33000000 = .ok .putu16 ∧
    decode 0x38110000 = .ok (.getbits 17) ∧ decode 0x410F0000 = .ok (.ricedec 15) ∧ decode 0x43000000 = .ok .rledec)

/-- `30_encoding.md` R77: the illegal words are exactly those of its list; such a word, when fetched, raises
`IllegalCommand` and changes only the fault registers; the all-zero and the all-one word are illegal. -/
def Obligations.IllegalWordsAreExactlyThoseListed : Prop :=
  (∀ cw : CmdWord, (∃ e, decode cw = .error e) ↔
    let op := (fieldsOf cw).op.toNat
    let a := (fieldsOf cw).a.toNat
    let imm := (fieldsOf cw).imm.toNat
    (op = 0 ∨ (0x07 ≤ op ∧ op ≤ 0x0F) ∨ (0x18 ≤ op ∧ op ≤ 0x1F) ∨ (0x22 ≤ op ∧ op ≤ 0x27) ∨
      (0x2A ≤ op ∧ op ≤ 0x2F) ∨ op = 0x36 ∨ op = 0x37 ∨ op = 0x3E ∨ op = 0x3F ∨ 0x44 ≤ op) ∨
    -- a nonzero must-be-zero field: formats Z, A, I
    (op ∈ [0x01, 0x02, 0x06, 0x20, 0x21, 0x28, 0x29, 0x31, 0x32, 0x33, 0x34, 0x35, 0x39, 0x3A, 0x3B, 0x3C, 0x3D,
      0x42, 0x43] ∧ (a ≠ 0 ∨ imm ≠ 0)) ∨
    (op ∈ [0x30, 0x38, 0x40, 0x41, 0x14, 0x15, 0x16, 0x17] ∧ imm ≠ 0) ∨
    (op ∈ [0x04, 0x05] ∧ a ≠ 0) ∨
    -- operands out of range, kernel select
    (op = 0x03 ∧ (4 < a ∨ (a = 4 ∧ 255 < imm))) ∨
    (op ∈ [0x30, 0x38] ∧ 32 < a) ∨
    (op ∈ [0x40, 0x41] ∧ 15 < a) ∨
    (op ∈ [0x10, 0x11, 0x12, 0x13, 0x14, 0x15, 0x16, 0x17] ∧ a ≠ 0)) ∧
  (∀ (s : State) (cw : CmdWord) (e : Illegal), s.run = .running → s.pm[s.pc.toNat]? = some cw →
    decode cw = .error e →
    step s = .next { s with fcode := some .illegalCommand, run := .faulted, fpc := s.pc }) ∧
  (∃ e, decode 0x00000000 = .error e) ∧ (∃ e, decode 0xFFFFFFFF = .error e)

/-- `45_system.md` R207: when the word at `pc` decodes to a command, a step of the running sequencer is that command's
execution, with nothing around it. -/
def Obligations.StepRunsTheDecodedCommand : Prop :=
  ∀ (s : State) (cw : CmdWord) (i : Instr), s.run = .running → s.pm[s.pc.toNat]? = some cw → decode cw = .ok i →
    step s = exec i s

/-- `10_state.md` R24, R36: past the end of the program a step raises `FetchRange`; a sequencer that is not running has
no step (the model's fault `notRunning`, log entry 4). -/
def Obligations.StepWithoutACommand : Prop :=
  (∀ s : State, s.run = .running → s.pm.length ≤ s.pc.toNat →
    step s = .next { s with fcode := some .fetchRange, run := .faulted, fpc := s.pc }) ∧
  (∀ s : State, s.run ≠ .running → step s = .fault (.notRunning s.run))

/-! ## System commands -/

/-- `45_system.md` R200. -/
def Obligations.NopOnlyAdvances : Prop :=
  decode 0x01000000 = .ok .nop ∧ ∀ s : State, exec .nop s = .next { s with pc := s.pc + 1 }

/-- `45_system.md` R201: `HALT` ends the run, leaves `pc` and everything else, is the only command that halts, and a
new `H_START` restarts at 0. -/
def Obligations.HaltIsTheNormalEnd : Prop :=
  decode 0x02000000 = .ok .halt ∧
  (∀ s : State, exec .halt s = .next { s with run := .halted }) ∧
  (∀ (i : Instr) (s t : State), s.run = .running → exec i s = .next t → t.run = .halted → i = .halt) ∧
  (∀ s t : State, exec .halt s = .next t → hostAct .start t = .ok { t with pc := 0, run := .running })

/-- `45_system.md` R202. -/
def Obligations.SetrWritesTheNamedRegister : Prop :=
  (∀ (v : BitVec 16) (s : State),
    exec (.setr .org v) s = .next { s with org := v, pc := s.pc + 1 } ∧
    exec (.setr .stride v) s = .next { s with stride := v, pc := s.pc + 1 } ∧
    exec (.setr .w v) s = .next { s with w := v, pc := s.pc + 1 } ∧
    exec (.setr .h v) s = .next { s with h := v, pc := s.pc + 1 } ∧
    ∃ t, exec (.setr .scale v) s = .next t ∧ t = { s with scale := t.scale, pc := s.pc + 1 } ∧
      (v.toNat ≤ 255 → t.scale.toNat = v.toNat)) ∧
  (∀ cw : CmdWord, (fieldsOf cw).op = 0x03 →
    ((4 < (fieldsOf cw).a.toNat ∨ ((fieldsOf cw).a = 4 ∧ 255 < (fieldsOf cw).imm.toNat)) ↔
      ∃ e, decode cw = .error e)) ∧
  decode 0x03040003 = .ok (.setr .scale 3) ∧ (∃ e, decode 0x03040100 = .error e)

/-- `45_system.md` R203. -/
def Obligations.LdvalLoadsAndClearsTheUpperHalf : Prop :=
  (∀ v : BitVec 16, decode (0x04000000 + v.setWidth 32) = .ok (.ldval v)) ∧
  ∀ (v : BitVec 16) (s : State), ∃ t, exec (.ldval v) s = .next t ∧ t = { s with val := t.val, pc := s.pc + 1 } ∧
    t.val.toNat = v.toNat

/-- `45_system.md` R204. -/
def Obligations.LdvalhLoadsTheUpperHalf : Prop :=
  (∀ v : BitVec 16, decode (0x05000000 + v.setWidth 32) = .ok (.ldvalh v)) ∧
  (∀ (v : BitVec 16) (s : State), ∃ t, exec (.ldvalh v) s = .next t ∧ t = { s with val := t.val, pc := s.pc + 1 } ∧
    t.val.toNat = v.toNat * 65536 + s.val.toNat % 65536) ∧
  (∀ (v : BitVec 16) (s t : State), exec (.ldvalh v) s = .next t →
    ∀ (u : BitVec 16) (t' : State), exec (.ldval u) t = .next t' → t'.val.toNat = u.toNat)

/-- `45_system.md` R205. -/
def Obligations.ClrfClearsOnlyOvf : Prop :=
  decode 0x06000000 = .ok .clrf ∧ ∀ s : State, exec .clrf s = .next { s with ovf := false, pc := s.pc + 1 }

/-! ## Lifting transform -/

/-- `40_dwt.md` R102: the forward step, element by element, with `half` and `quarter` written out from R104 (`/` is floor
division, `00_scope.md` R12) and `BitVec.ofInt 16` for `wrap16` (R11). -/
def Obligations.ForwardStepFormula : Prop :=
  ∀ (width : LiftWidth) (x : List Sample), x.length % 2 = 0 → 2 ≤ x.length →
    let half := fun z : Int => match width with
      | .wide => z / 2
      | .wrap16 => (BitVec.ofInt 16 z).toInt / 2
    let quarter := fun z : Int => match width with
      | .wide => z / 4
      | .wrap16 => (BitVec.ofInt 16 z).toInt / 4
    let hn := x.length / 2
    let y := (fLift width x).out
    let low := fun i => (x.getD (2 * i) 0).toInt
    let high := fun i => (x.getD (2 * i + 1) 0).toInt
    let d := fun i => (y.getD (hn + i) 0).toInt
    y.length = x.length ∧
    ∀ i < hn,
      y[hn + i]? = some (BitVec.ofInt 16 (high i - half (low i + low (min (i + 1) (hn - 1))))) ∧
      y[i]? = some (BitVec.ofInt 16 (low i + quarter (d (i - 1) + d i + 2)))

/-- `40_dwt.md` R103: the inverse step, element by element, with `half`, `quarter` and `wrap16` written out as in
`ForwardStepFormula`. -/
def Obligations.InverseStepFormula : Prop :=
  ∀ (width : LiftWidth) (y : List Sample), y.length % 2 = 0 → 2 ≤ y.length →
    let half := fun z : Int => match width with
      | .wide => z / 2
      | .wrap16 => (BitVec.ofInt 16 z).toInt / 2
    let quarter := fun z : Int => match width with
      | .wide => z / 4
      | .wrap16 => (BitVec.ofInt 16 z).toInt / 4
    let hn := y.length / 2
    let x := (iLift width y).out
    let s := fun i => (y.getD i 0).toInt
    let d := fun i => (y.getD (hn + i) 0).toInt
    let low := fun i => (x.getD (2 * i) 0).toInt
    x.length = y.length ∧
    ∀ i < hn,
      x[2 * i]? = some (BitVec.ofInt 16 (s i - quarter (d (i - 1) + d i + 2))) ∧
      x[2 * i + 1]? = some (BitVec.ofInt 16 (d i + half (low i + low (min (i + 1) (hn - 1)))))

/-- `40_dwt.md` R106: exact round trip, both ways, in either setting of `LIFT_INTERMEDIATE`. -/
def Obligations.LiftingRoundTrip : Prop :=
  ∀ (width : LiftWidth) (x : List Sample), x.length % 2 = 0 → 2 ≤ x.length →
    (iLift width (fLift width x).out).out = x ∧ (fLift width (iLift width x).out).out = x

/-- `40_dwt.md` R105: `OVF`'s event is that one of the four kinds of quantity does not fit in `Int16`, and it does not
depend on `LIFT_INTERMEDIATE`; `half` and `quarter` are written out from R104. -/
def Obligations.LiftingOverflowEvents : Prop :=
  (∀ (width : LiftWidth) (x : List Sample), x.length % 2 = 0 → 2 ≤ x.length →
    let half := fun z : Int => match width with
      | .wide => z / 2
      | .wrap16 => (BitVec.ofInt 16 z).toInt / 2
    let quarter := fun z : Int => match width with
      | .wide => z / 4
      | .wrap16 => (BitVec.ofInt 16 z).toInt / 4
    let hn := x.length / 2
    let y := (fLift width x).out
    let low := fun i => (x.getD (2 * i) 0).toInt
    let high := fun i => (x.getD (2 * i + 1) 0).toInt
    let d := fun i => (y.getD (hn + i) 0).toInt
    let p := fun i => low i + low (min (i + 1) (hn - 1))
    let u := fun i => d (i - 1) + d i + 2
    ((fLift width x).ovf = true ↔ ∃ i < hn, ∃ z ∈ [p i, high i - half (p i), u i, low i + quarter (u i)],
      z < -32768 ∨ 32767 < z)) ∧
  (∀ (width : LiftWidth) (y : List Sample), y.length % 2 = 0 → 2 ≤ y.length →
    let half := fun z : Int => match width with
      | .wide => z / 2
      | .wrap16 => (BitVec.ofInt 16 z).toInt / 2
    let quarter := fun z : Int => match width with
      | .wide => z / 4
      | .wrap16 => (BitVec.ofInt 16 z).toInt / 4
    let hn := y.length / 2
    let x := (iLift width y).out
    let s := fun i => (y.getD i 0).toInt
    let d := fun i => (y.getD (hn + i) 0).toInt
    let low := fun i => (x.getD (2 * i) 0).toInt
    let p := fun i => low i + low (min (i + 1) (hn - 1))
    let u := fun i => d (i - 1) + d i + 2
    ((iLift width y).ovf = true ↔ ∃ i < hn, ∃ z ∈ [p i, d i + half (p i), u i, s i - quarter (u i)],
      z < -32768 ∨ 32767 < z)) ∧
  (∀ x : List Sample, x.length % 2 = 0 → 2 ≤ x.length →
    (fLift .wide x).ovf = (fLift .wrap16 x).ovf ∧ (iLift .wide x).ovf = (iLift .wrap16 x).ovf)

/-- `40_dwt.md` R104: without overflow the two settings of `LIFT_INTERMEDIATE` give the same line. -/
def Obligations.WidthsAgreeWithoutOverflow : Prop :=
  ∀ (width : LiftWidth) (x : List Sample),
    ((fLift width x).ovf = false → (fLift .wide x).out = (fLift .wrap16 x).out) ∧
    ((iLift width x).ovf = false → (iLift .wide x).out = (iLift .wrap16 x).out)

/-- `40_dwt.md` R113 to R116: a line command whose checks pass and whose line is written completes; the line becomes the
step's result, every other word of `CM` reads as before, `OVF` keeps its value or is set by the step, nothing else
changes but `pc`. -/
def Obligations.LineCommandsTransformTheirLine : Prop :=
  ∀ (s : State) (k : BitVec 16) (x : List Sample),
    let row := fun c => s.blkAddr k.toNat c
    let col := fun r => s.blkAddr r k.toNat
    let done := fun (t : State) (addr : Nat → Nat) (n : Nat) (res : LineResult) =>
      t = { s with cm := t.cm, ovf := s.ovf || res.ovf, pc := s.pc + 1 } ∧
      (∀ j < n, Memory.read t.cm (addr j) = res.out[j]?) ∧
      (∀ a, (∀ j < n, a ≠ addr j) → Memory.read t.cm a = Memory.read s.cm a)
    (DimensionsOk (.fliftr k) s → s.RegionFits → x.length = s.w.toNat →
      (∀ c < s.w.toNat, Memory.read s.cm (row c) = x[c]?) →
      (∃ t, exec (.fliftr k) s = .next t ∧ done t row s.w.toNat (fLift s.cfg.liftWidth x)) ∧
      (∃ t, exec (.iliftr k) s = .next t ∧ done t row s.w.toNat (iLift s.cfg.liftWidth x))) ∧
    (DimensionsOk (.fliftc k) s → s.RegionFits → x.length = s.h.toNat →
      (∀ r < s.h.toNat, Memory.read s.cm (col r) = x[r]?) →
      (∃ t, exec (.fliftc k) s = .next t ∧ done t col s.h.toNat (fLift s.cfg.liftWidth x)) ∧
      (∃ t, exec (.iliftc k) s = .next t ∧ done t col s.h.toNat (iLift s.cfg.liftWidth x)))

/-- `40_dwt.md` R111, R117, R118: on a written region `FDWT2` completes and does what `FLIFTR` on every row and then
`FLIFTC` on every column do, and `IDWT2` what `ILIFTC` on every column and then `ILIFTR` on every row do. -/
def Obligations.PlaneTransformsAreTheirLines : Prop :=
  ∀ s : State, DimensionsOk .fdwt2 s → s.RegionFits → s.RegionWritten →
    let rows := (List.range s.h.toNat).map (BitVec.ofNat 16)
    let cols := (List.range s.w.toNat).map (BitVec.ofNat 16)
    (∃ u, execAll (rows.map .fliftr ++ cols.map .fliftc) s = .next u ∧
      exec .fdwt2 s = .next { s with cm := u.cm, ovf := u.ovf, pc := s.pc + 1 }) ∧
    (∃ u, execAll (cols.map .iliftc ++ rows.map .iliftr) s = .next u ∧
      exec .idwt2 s = .next { s with cm := u.cm, ovf := u.ovf, pc := s.pc + 1 })

/-- `40_dwt.md` R119, R120: on a written region `FDWT2L` completes and does what `FDWT2` on the region and then on its
top-left quarter do, and `IDWT2L` what `IDWT2` on that quarter and then on the region do. -/
def Obligations.TwoLevelTransformsAreTheirLevels : Prop :=
  ∀ s : State, DimensionsOk .fdwt2l s → s.RegionFits → s.RegionWritten →
    let w2 := BitVec.ofNat 16 (s.w.toNat / 2)
    let h2 := BitVec.ofNat 16 (s.h.toNat / 2)
    (∃ t u, exec .fdwt2 s = .next t ∧ exec .fdwt2 { t with w := w2, h := h2 } = .next u ∧
      exec .fdwt2l s = .next { s with cm := u.cm, ovf := u.ovf, pc := s.pc + 1 }) ∧
    (∃ t u, exec .idwt2 { s with w := w2, h := h2 } = .next t ∧ exec .idwt2 { t with w := s.w, h := s.h } = .next u ∧
      exec .idwt2l s = .next { s with cm := u.cm, ovf := u.ovf, pc := s.pc + 1 })

/-- `40_dwt.md` R118, R120: the inverse transform after the forward transform restores every word of `CM`. -/
def Obligations.InverseTransformsRestoreTheRegion : Prop :=
  ∀ s : State, s.RegionFits → s.RegionWritten →
    (DimensionsOk .fdwt2 s → ∃ t u, exec .fdwt2 s = .next t ∧ exec .idwt2 t = .next u ∧
      ∀ a, Memory.read u.cm a = Memory.read s.cm a) ∧
    (DimensionsOk .fdwt2l s → ∃ t u, exec .fdwt2l s = .next t ∧ exec .idwt2l t = .next u ∧
      ∀ a, Memory.read u.cm a = Memory.read s.cm a)

/-- `40_dwt.md` R112, `41_quantizer.md` R138, `42_zigzag.md` R149 and `60_exceptions.md` R243, R245: the checks of the
commands that use the region, in their order; a failed check changes nothing but the fault registers. -/
def Obligations.RegionChecksComeFirst : Prop :=
  ∀ (i : Instr) (s : State), usesRegion i = true →
    (¬ DimensionsOk i s →
      exec i s = .next { s with fcode := some .illegalConfig, run := .faulted, fpc := s.pc }) ∧
    (DimensionsOk i s → s.stride.toNat < s.w.toNat →
      exec i s = .next { s with fcode := some .illegalConfig, run := .faulted, fpc := s.pc }) ∧
    (DimensionsOk i s → s.w.toNat ≤ s.stride.toNat →
      s.cfg.cmWords < s.org.toNat + (s.h.toNat - 1) * s.stride.toNat + s.w.toNat →
      exec i s = .next { s with fcode := some .addrRange, run := .faulted, fpc := s.pc })

/-- `20_memory.md` R53, R61, `40_dwt.md` R111: no command changes a word of `CM` outside its region (with a legal scan
order, `42_zigzag.md` R146). -/
def Obligations.WordsOutsideTheRegionUnchanged : Prop :=
  ∀ (i : Instr) (s t : State), LegalConfig s.cfg → exec i s = .next t →
    ∀ a, s.OutsideRegion a → Memory.read t.cm a = Memory.read s.cm a

/-- `70_reset_and_hazards.md` R273, `10_state.md` R42: a command that reaches a word that nobody has written is refused,
by the name of its memory. `RLEENC` reaches the first unwritten word `SQ[j]` of its sequence if the pairs that end within
`SQ[0..j−1]` find room in `OB` (`44_entropy.md` R188); when they do not, `WriterCommandsRaiseOutFull` says what it does. -/
def Obligations.UnwrittenWordsAreRefused : Prop :=
  (∀ (i : Instr) (s : State), s.RegionFits → DimensionsOk i s →
    (i ∈ [.fdwt2, .idwt2, .fdwt2l, .idwt2l, .quant, .dequant] →
      ¬ s.RegionWritten → exec i s = .refused (.unwritten .cm)) ∧
    (i = .zigzag → IsScan s.w.toNat (scanOrder s.cfg.zz s.w.toNat) → ¬ s.RegionWritten →
      exec i s = .refused (.unwritten .cm)) ∧
    (∀ k : BitVec 16, i = .fliftr k ∨ i = .iliftr k →
      (∃ c < s.w.toNat, Memory.read s.cm (s.blkAddr k.toNat c) = none) → exec i s = .refused (.unwritten .cm)) ∧
    (∀ k : BitVec 16, i = .fliftc k ∨ i = .iliftc k →
      (∃ r < s.h.toNat, Memory.read s.cm (s.blkAddr r k.toNat) = none) → exec i s = .refused (.unwritten .cm)) ∧
    (i = .unzigzag → (∃ j < s.w.toNat * s.w.toNat, Memory.read s.sq j = none) →
      exec i s = .refused (.unwritten .sq))) ∧
  (∀ (s : State) (xs : List Sample), s.BlockSide → s.wr.Legal → s.wr.ob.length ≤ s.cfg.obBytes →
    xs.length < s.w.toNat * s.w.toNat → (∀ j ≤ xs.length, Memory.read s.sq j = xs[j]?) →
    s.wr.HasRoom s.cfg.obBytes (pairsCode (runs xs).dropLast).length →
    exec .rleenc s = .refused (.unwritten .sq))

/-! ## Quantizer -/

/-- `41_quantizer.md` R134: the quantizer's value function and its bounds; its values need no narrowing and are no `OVF`
event. -/
def Obligations.QuantizeValueFunction : Prop :=
  ∀ (v : Sample) (sh : Nat),
    (sh = 0 → quantized v.toInt sh = v.toInt) ∧
    (0 < sh → quantized v.toInt sh = v.toInt.sign * ((v.toInt.natAbs + 2 ^ (sh - 1)) / 2 ^ sh : Int)) ∧
    (sh = 0 → (quantized v.toInt sh).natAbs ≤ v.toInt.natAbs) ∧
    (1 ≤ sh → (quantized v.toInt sh).natAbs ≤ 16384) ∧
    (1 ≤ sh → v.toInt.natAbs < 2 ^ (sh - 1) → quantized v.toInt sh = 0) ∧
    (17 ≤ sh → quantized v.toInt sh = 0) ∧
    (sh = 16 → quantized v.toInt sh ≠ 0 → v.toInt = -32768 ∧ quantized v.toInt sh = -1) ∧
    (wrap16 (quantized v.toInt sh)).toInt = quantized v.toInt sh ∧ overflows [quantized v.toInt sh] = false ∧
    quantized 1 1 = 1 ∧ quantized (-1) 1 = -1 ∧ quantized 3 1 = 2

/-- `41_quantizer.md` R137: what quantizing and dequantizing give back, on mathematical integers and as stored. -/
def Obligations.QuantizerErrorBound : Prop :=
  ∀ (v : Sample) (sh : Nat),
    let q := quantized v.toInt sh
    let z := dequantized q sh
    (sh = 0 → wrap16 z = v) ∧
    (1 ≤ sh → (z - v.toInt).natAbs ≤ 2 ^ (sh - 1)) ∧
    (-32768 ≤ z ∧ z ≤ 32767 → (wrap16 z).toInt = q * 2 ^ sh ∧ ((wrap16 z).toInt - v.toInt).natAbs < 2 ^ sh) ∧
    (wrap16 (dequantized (quantized 32767 5) 5)).toInt = -32768

/-- `41_quantizer.md` R139, R131, R132: on a written block `QUANT` completes; each coefficient becomes `Q` of itself and
its position's shift; every other word of `CM` and everything else but `pc` stays. -/
def Obligations.QuantQuantizesTheBlock : Prop :=
  ∀ s : State, DimensionsOk .quant s → s.RegionFits → s.RegionWritten →
    ∃ t, exec .quant s = .next t ∧ t = { s with cm := t.cm, pc := s.pc + 1 } ∧
      (∀ r < s.w.toNat, ∀ c < s.w.toNat, ∀ v, Memory.read s.cm (s.blkAddr r c) = some v →
        let sh := s.scale.toNat + (if r < s.w.toNat / 4 ∧ c < s.w.toNat / 4 then 0
          else if r < s.w.toNat / 2 ∧ c < s.w.toNat / 2 then 2 else 5)
        ∃ q, Memory.read t.cm (s.blkAddr r c) = some q ∧ q.toInt = quantized v.toInt sh) ∧
      (∀ a, s.OutsideRegion a → Memory.read t.cm a = Memory.read s.cm a)

/-- `41_quantizer.md` R140, R135, R136: on a written block `DEQUANT` completes; each coefficient becomes
`wrap16(q × 2^shift)`; `OVF` is set exactly if it was set or some product does not fit; the rest stays. -/
def Obligations.DequantScalesTheBlock : Prop :=
  ∀ s : State, DimensionsOk .dequant s → s.RegionFits → s.RegionWritten →
    let shift := fun (r c : Nat) => s.scale.toNat + (if r < s.w.toNat / 4 ∧ c < s.w.toNat / 4 then 0
      else if r < s.w.toNat / 2 ∧ c < s.w.toNat / 2 then 2 else 5)
    ∃ t, exec .dequant s = .next t ∧ t = { s with cm := t.cm, ovf := t.ovf, pc := s.pc + 1 } ∧
      (∀ r < s.w.toNat, ∀ c < s.w.toNat, ∀ v, Memory.read s.cm (s.blkAddr r c) = some v →
        Memory.read t.cm (s.blkAddr r c) = some (BitVec.ofInt 16 (v.toInt * 2 ^ shift r c))) ∧
      (t.ovf = true ↔ s.ovf = true ∨ ∃ r < s.w.toNat, ∃ c < s.w.toNat, ∃ v,
        Memory.read s.cm (s.blkAddr r c) = some v ∧
          (v.toInt * 2 ^ shift r c < -32768 ∨ 32767 < v.toInt * 2 ^ shift r c)) ∧
      (∀ a, s.OutsideRegion a → Memory.read t.cm a = Memory.read s.cm a)

/-! ## Scanner -/

/-- `42_zigzag.md` R146, R148: the default order visits every position exactly once, anti-diagonal by anti-diagonal, odd
ones with the row increasing and even ones with the row decreasing, from (0, 0) to (N − 1, N − 1). -/
def Obligations.DefaultScanIsTheDiagonalBijection : Prop :=
  ∀ n : Nat, 1 ≤ n →
    IsScan n (diagonalScan n) ∧ (diagonalScan n).length = n * n ∧
    (diagonalScan n).head? = some (0, 0) ∧ (diagonalScan n).getLast? = some (n - 1, n - 1) ∧
    (diagonalScan n).Pairwise (fun p q => p.1 + p.2 < q.1 + q.2 ∨
      (p.1 + p.2 = q.1 + q.2 ∧ if (p.1 + p.2) % 2 = 1 then p.1 < q.1 else q.1 < p.1))

/-- `42_zigzag.md` R150: on a written block `ZIGZAG` completes; `SQ[i]` becomes the coefficient at `ZZ_N(i)`, `SQ` from
`N²` on and everything else but `pc` stays. -/
def Obligations.ZigzagCopiesTheBlockInScanOrder : Prop :=
  ∀ s : State, DimensionsOk .zigzag s → s.RegionFits → s.RegionWritten →
    IsScan s.w.toNat (scanOrder s.cfg.zz s.w.toNat) →
    ∃ t, exec .zigzag s = .next t ∧ t = { s with sq := t.sq, pc := s.pc + 1 } ∧
      (∀ (i : Nat) (p : Nat × Nat), (scanOrder s.cfg.zz s.w.toNat)[i]? = some p →
        Memory.read t.sq i = Memory.read s.cm (s.blkAddr p.1 p.2)) ∧
      (∀ i, s.w.toNat * s.w.toNat ≤ i → Memory.read t.sq i = Memory.read s.sq i)

/-- `42_zigzag.md` R151: with `SQ[0..N²−1]` written `UNZIGZAG` completes; the coefficient at `ZZ_N(i)` becomes `SQ[i]`,
every other word of `CM` and everything else but `pc` stays. -/
def Obligations.UnzigzagCopiesTheSequenceBack : Prop :=
  ∀ s : State, DimensionsOk .unzigzag s → s.RegionFits →
    (∀ i < s.w.toNat * s.w.toNat, (Memory.read s.sq i).isSome) →
    IsScan s.w.toNat (scanOrder s.cfg.zz s.w.toNat) →
    ∃ t, exec .unzigzag s = .next t ∧ t = { s with cm := t.cm, pc := s.pc + 1 } ∧
      (∀ (i : Nat) (p : Nat × Nat), (scanOrder s.cfg.zz s.w.toNat)[i]? = some p →
        Memory.read t.cm (s.blkAddr p.1 p.2) = Memory.read s.sq i) ∧
      (∀ a, s.OutsideRegion a → Memory.read t.cm a = Memory.read s.cm a)

/-- `42_zigzag.md` R152: the two scanner commands undo each other for every legal order. -/
def Obligations.ScannerCommandsAreMutualInverses : Prop :=
  ∀ s : State, s.BlockSide → s.RegionFits → IsScan s.w.toNat (scanOrder s.cfg.zz s.w.toNat) →
    (s.RegionWritten → ∃ t u, exec .zigzag s = .next t ∧ exec .unzigzag t = .next u ∧
      (∀ a, Memory.read u.cm a = Memory.read s.cm a) ∧
      (∀ (i : Nat) (p : Nat × Nat), (scanOrder s.cfg.zz s.w.toNat)[i]? = some p →
        Memory.read u.sq i = Memory.read s.cm (s.blkAddr p.1 p.2))) ∧
    ((∀ i < s.w.toNat * s.w.toNat, (Memory.read s.sq i).isSome) →
      ∃ t u, exec .unzigzag s = .next t ∧ exec .zigzag t = .next u ∧
        ∀ i, Memory.read u.sq i = Memory.read s.sq i)

/-! ## Bitstream -/

/-- `43_bitstream.md` R165, R157: with room in `OB`, `PUTBITS n` completes and the bits written so far are followed by
the low `n` bits of `VAL`, most significant first; nothing else but `pc` changes. -/
def Obligations.PutbitsAppendsTheLowBits : Prop :=
  ∀ (s : State) (n : BitVec 8), n.toNat ≤ 32 → s.wr.Legal → s.wr.HasRoom s.cfg.obBytes n.toNat →
    ∃ t, exec (.putbits n) s = .next t ∧ t = { s with wr := t.wr, pc := s.pc + 1 } ∧ t.wr.Legal ∧
      t.wr.bits = s.wr.bits ++ msbBits n.toNat s.val.toNat

/-- `43_bitstream.md` R166, R158: `FLUSH` completes a pending byte with zero bits and appends it, and does nothing when
none is pending. -/
def Obligations.FlushPadsWithZeroBits : Prop :=
  (∀ s : State, s.wr.wcnt = 0 → exec .flush s = .next { s with pc := s.pc + 1 }) ∧
  (∀ s : State, s.wr.wcnt ≠ 0 → s.wr.ob.length < s.cfg.obBytes →
    exec .flush s = .next { s with wr := { ob := s.wr.ob ++ [s.wr.wacc], wacc := 0, wcnt := 0 }, pc := s.pc + 1 }) ∧
  (∀ s t : State, s.wr.Legal → s.wr.wcnt ≠ 0 → s.wr.ob.length < s.cfg.obBytes → exec .flush s = .next t →
    t.wr.bits = s.wr.bits ++ List.replicate (8 - s.wr.wcnt.toNat) false)

/-- `43_bitstream.md` R167 to R170, `20_memory.md` R56: with room in `OB`, a byte field completes: the pending byte is
flushed, then the field's bytes are appended, most significant first; the writer is left aligned. -/
def Obligations.ByteFieldsAreAppendedBigEndian : Prop :=
  ∀ s : State,
    let room := fun n => s.wr.padded.length + n ≤ s.cfg.obBytes
    let done := fun (t : State) (xs : List Byte) =>
      t = { s with wr := t.wr, pc := s.pc + 1 } ∧ t.wr.ob = s.wr.padded ++ xs ∧ t.wr.wcnt = 0 ∧
        (s.wr.wcnt ≠ 0 ∨ s.wr.Legal → t.wr.wacc = 0)
    (room 1 → ∃ t x, exec .putu8 s = .next t ∧ done t [x] ∧ x.toNat = s.val.toNat % 2 ^ 8) ∧
    (room 2 → ∃ t x1 x0, exec .putu16 s = .next t ∧ done t [x1, x0] ∧ bigEndian [x1, x0] = s.val.toNat % 2 ^ 16) ∧
    (room 4 → ∃ t x3 x2 x1 x0, exec .putu32 s = .next t ∧ done t [x3, x2, x1, x0] ∧
      bigEndian [x3, x2, x1, x0] = s.val.toNat) ∧
    (room 1 → ∃ t, exec .putscale s = .next t ∧ done t [s.scale])

/-- `43_bitstream.md` R159: without room a writer command raises `OutFull`. `RLEENC` on a legal side does when the pairs of
its sequence find no room, and as soon as the pairs that end within the words it has read find none, whatever the words
after them are (`44_entropy.md` R188, `60_exceptions.md` R243 item 6). -/
def Obligations.WriterCommandsRaiseOutFull : Prop :=
  ∀ (s : State), s.wr.ob.length ≤ s.cfg.obBytes → s.wr.Legal →
    let full := fun (i : Instr) => ∃ t, exec i s = .next t ∧ t.run = .faulted ∧ t.fcode = some .outFull ∧
      t.fpc = s.pc ∧ t.pc = s.pc
    (∀ n : BitVec 8, ¬ s.wr.HasRoom s.cfg.obBytes n.toNat → full (.putbits n)) ∧
    (s.wr.wcnt ≠ 0 → s.wr.ob.length = s.cfg.obBytes → full .flush) ∧
    (s.cfg.obBytes < s.wr.padded.length + 1 → full .putu8 ∧ full .putscale) ∧
    (s.cfg.obBytes < s.wr.padded.length + 2 → full .putu16) ∧
    (s.cfg.obBytes < s.wr.padded.length + 4 → full .putu32) ∧
    (∀ k : BitVec 8, ¬ s.wr.HasRoom s.cfg.obBytes (riceCode k.toNat (s.val.toNat % 65536)).length →
      full (.riceenc k)) ∧
    (∀ xs : List Sample, s.BlockSide → (∀ j < xs.length, Memory.read s.sq j = xs[j]?) →
      (xs.length = s.w.toNat * s.w.toNat → ¬ s.wr.HasRoom s.cfg.obBytes (pairsCode (runs xs)).length →
        full .rleenc) ∧
      (xs.length ≤ s.w.toNat * s.w.toNat → ¬ s.wr.HasRoom s.cfg.obBytes (pairsCode (runs xs).dropLast).length →
        full .rleenc))

/-- `43_bitstream.md` R177, `60_exceptions.md` R246: after `OutFull` the bytes that `OB` held are unchanged, `OLEN` is at
most `OB_BYTES`, the writer is legal, and nothing else but the fault registers (and the model's count of draws, log
entry 5) changes. -/
def Obligations.StateAfterOutFull : Prop :=
  ∀ (i : Instr) (s t : State), s.run = .running → s.wr.ob.length ≤ s.cfg.obBytes → exec i s = .next t →
    t.fcode = some .outFull → t.run = .faulted →
    t = { s with wr := t.wr, draws := s.draws + 1, fcode := some .outFull, run := .faulted, fpc := s.pc } ∧
      s.wr.ob <+: t.wr.ob ∧ t.wr.ob.length ≤ s.cfg.obBytes ∧ t.wr.Legal

/-- `43_bitstream.md` R171, R161, R162: `GETBITS n` reads the next `n` bits into `VAL`, most significant first, when
that many are left, and raises `Eof` exactly when they are not. -/
def Obligations.GetbitsReadsTheNextBits : Prop :=
  ∀ (s : State) (n : BitVec 8), n.toNat ≤ 32 → s.rd.Legal →
    (n.toNat ≤ s.rd.avail → ∃ t, exec (.getbits n) s = .next t ∧
      t = { s with rd := t.rd, val := t.val, pc := s.pc + 1 } ∧
      t.val.toNat = bitsValue (s.rd.rest.take n.toNat) ∧ t.rd.Legal ∧ t.rd.ib = s.rd.ib ∧
      t.rd.position = s.rd.position + n.toNat) ∧
    (s.rd.avail < n.toNat → ∃ t, exec (.getbits n) s = .next t ∧ t.run = .faulted ∧ t.fcode = some .eof ∧
      t.fpc = s.pc ∧ t.pc = s.pc)

/-- `43_bitstream.md` R172, R163: `RALIGN` moves to the next byte boundary, discarding the rest of the current byte. -/
def Obligations.RalignMovesToTheNextByte : Prop :=
  ∀ s : State, s.rd.Legal → ∃ t, exec .ralign s = .next t ∧ t = { s with rd := t.rd, pc := s.pc + 1 } ∧
    t.rd.ib = s.rd.ib ∧ t.rd.rbit = 0 ∧ t.rd.rpos.toNat = s.rd.nextByte ∧ t.rd.Legal

/-- `43_bitstream.md` R173 to R176, `20_memory.md` R56: a byte field aligns and reads its bytes, most significant first,
when they are there, and raises `Eof` exactly when they are not. -/
def Obligations.ByteFieldsAreReadBigEndian : Prop :=
  ∀ s : State, s.rd.Legal →
    let field := fun n => (s.rd.ib.drop s.rd.nextByte).take n
    let moved := fun (t : State) (n : Nat) =>
      t.rd.ib = s.rd.ib ∧ t.rd.rbit = 0 ∧ t.rd.rpos.toNat = s.rd.nextByte + n
    let eof := fun (i : Instr) => ∃ t, exec i s = .next t ∧ t.run = .faulted ∧ t.fcode = some .eof ∧ t.fpc = s.pc ∧
      t.pc = s.pc
    let read := fun (i : Instr) (n : Nat) =>
      (s.rd.nextByte + n ≤ s.rd.ib.length → ∃ t, exec i s = .next t ∧
        t = { s with rd := t.rd, val := t.val, pc := s.pc + 1 } ∧ t.val.toNat = bigEndian (field n) ∧ moved t n) ∧
      (s.rd.ib.length < s.rd.nextByte + n → eof i)
    read .getu8 1 ∧ read .getu16 2 ∧ read .getu32 4 ∧
    (s.rd.nextByte + 1 ≤ s.rd.ib.length → ∃ t x, exec .getscale s = .next t ∧
      t = { s with rd := t.rd, scale := x, pc := s.pc + 1 } ∧ field 1 = [x] ∧ moved t 1) ∧
    (s.rd.ib.length < s.rd.nextByte + 1 → eof .getscale)

/-- `60_exceptions.md` R246, `43_bitstream.md` R177: after a data-dependent fault of a command that reads `IB`, only the
fault registers, the reader's position and the command's destination (and the model's count of draws, log entry 5) have
changed; the position is a legal one. -/
def Obligations.StateAfterAReaderFault : Prop :=
  ∀ (i : Instr) (s t : State), s.run = .running → s.rd.Legal → exec i s = .next t → t.run = .faulted →
    t.fcode ∈ [some .eof, some .badCode, some .runOverrun] →
    let faulted := { s with rd := t.rd, draws := s.draws + 1, fcode := t.fcode, run := .faulted, fpc := s.pc }
    t.rd.ib = s.rd.ib ∧ t.rd.Legal ∧
    (writesVal i = true → t = { faulted with val := t.val }) ∧
    (i = .getscale → t = { faulted with scale := t.scale }) ∧
    (i = .rledec → t = { faulted with sq := t.sq } ∧
      ∀ j, s.w.toNat * s.w.toNat ≤ j → Memory.read t.sq j = Memory.read s.sq j)

/-! ## Entropy coder -/

/-- `44_entropy.md` R186, R181: with room in `OB`, `RICEENC kk` completes and appends the Rice code of `VAL[15:0]`,
which has `q + 1 + k` bits. -/
def Obligations.RiceencAppendsTheCode : Prop :=
  ∀ (s : State) (k : BitVec 8), k.toNat ≤ 15 → s.wr.Legal →
    let v := s.val.toNat % 65536
    (riceCode k.toNat v).length = v / 2 ^ k.toNat + 1 + k.toNat ∧
    (s.wr.HasRoom s.cfg.obBytes (riceCode k.toNat v).length →
      ∃ t, exec (.riceenc k) s = .next t ∧ t = { s with wr := t.wr, pc := s.pc + 1 } ∧ t.wr.Legal ∧
        t.wr.bits = s.wr.bits ++ riceCode k.toNat v)

/-- `44_entropy.md` R187, R183: when the bits left begin with the Rice code of `v`, `RICEDEC kk` completes, `VAL` is `v`
and the reader stands just after the code. -/
def Obligations.RicedecReadsTheCode : Prop :=
  ∀ (s : State) (k : BitVec 8) (v : Nat) (tail : List Bool), k.toNat ≤ 15 → v < 65536 → s.rd.Legal →
    s.rd.rest = riceCode k.toNat v ++ tail →
    ∃ t, exec (.ricedec k) s = .next t ∧ t = { s with rd := t.rd, val := t.val, pc := s.pc + 1 } ∧
      t.val.toNat = v ∧ t.rd.Legal ∧ t.rd.ib = s.rd.ib ∧
      t.rd.position = s.rd.position + (riceCode k.toNat v).length

/-- `44_entropy.md` R182: a run of ones that reaches `2^(16−k)` raises `BadCode`; bits that end before that, or before
the remainder is complete, raise `Eof`. -/
def Obligations.RicedecRejectsWhatIsNoCode : Prop :=
  ∀ (s : State) (k : BitVec 8), k.toNat ≤ 15 → s.rd.Legal →
    let raises := fun (f : FaultCode) => ∃ t, exec (.ricedec k) s = .next t ∧ t.run = .faulted ∧ t.fcode = some f ∧
      t.fpc = s.pc ∧ t.pc = s.pc
    (∀ tail, s.rd.rest = List.replicate (2 ^ (16 - k.toNat)) true ++ tail → raises .badCode) ∧
    (∀ q, q < 2 ^ (16 - k.toNat) → s.rd.rest = List.replicate q true → raises .eof) ∧
    (∀ q bs, q < 2 ^ (16 - k.toNat) → bs.length < k.toNat → s.rd.rest = List.replicate q true ++ false :: bs →
      raises .eof)

/-- `44_entropy.md` R188: the pairs of a sequence stand for it, their lengths are 1 to 65535, and neighbouring pairs
have different values unless the first was cut at 65535. -/
def Obligations.PairsAreMaximalRuns : Prop :=
  ∀ xs : List Sample, expand (runs xs) = xs ∧ (∀ p ∈ runs xs, 1 ≤ p.1 ∧ p.1 ≤ 65535) ∧
    (runs xs).IsChain (fun p q => p.2 ≠ q.2 ∨ p.1 = 65535)

/-- `44_entropy.md` R188: on a legal block side with the sequence written and room in `OB`, `RLEENC` completes and
appends the code of the sequence's pairs, at most 19 bits per coefficient (R193); nothing else but `pc` changes. On
another side it raises `IllegalConfig` and changes nothing else. -/
def Obligations.RleencAppendsThePairs : Prop :=
  (∀ (s : State) (xs : List Sample), s.BlockSide → s.wr.Legal → xs.length = s.w.toNat * s.w.toNat →
    (∀ i < s.w.toNat * s.w.toNat, Memory.read s.sq i = xs[i]?) →
    (pairsCode (runs xs)).length ≤ 19 * xs.length ∧
    (s.wr.HasRoom s.cfg.obBytes (pairsCode (runs xs)).length →
      ∃ t, exec .rleenc s = .next t ∧ t = { s with wr := t.wr, pc := s.pc + 1 } ∧ t.wr.Legal ∧
        t.wr.bits = s.wr.bits ++ pairsCode (runs xs))) ∧
  (∀ s : State, ¬ s.BlockSide →
    exec .rleenc s = .next { s with fcode := some .illegalConfig, run := .faulted, fpc := s.pc })

/-- `44_entropy.md` R189: when the bits left begin with the code of pairs whose lengths sum to `N²`, the last one not
empty, `RLEDEC` completes: `SQ[0..N²−1]` is the sequence they stand for, the reader stands just after them, `SQ` from
`N²` on and everything else but `pc` stays. Pairs of length 0 and neighbours of equal value are among them. -/
def Obligations.RledecReadsThePairs : Prop :=
  ∀ (s : State) (ps : List (Nat × Sample)) (len : Nat) (v : Sample) (tail : List Bool),
    s.BlockSide → s.rd.Legal → (∀ p ∈ ps, p.1 < 65536) → 1 ≤ len → len < 65536 →
    (expand (ps ++ [(len, v)])).length = s.w.toNat * s.w.toNat →
    s.rd.rest = pairsCode (ps ++ [(len, v)]) ++ tail →
    ∃ t, exec .rledec s = .next t ∧ t = { s with rd := t.rd, sq := t.sq, pc := s.pc + 1 } ∧
      (∀ i < s.w.toNat * s.w.toNat, Memory.read t.sq i = (expand (ps ++ [(len, v)]))[i]?) ∧
      (∀ i, s.w.toNat * s.w.toNat ≤ i → Memory.read t.sq i = Memory.read s.sq i) ∧
      t.rd.Legal ∧ t.rd.ib = s.rd.ib ∧
      t.rd.position = s.rd.position + (pairsCode (ps ++ [(len, v)])).length

/-- `44_entropy.md` R192: what `RLEENC` wrote, `RLEDEC` reads back: a reader whose bits are the code of the pairs of a
sequence of `N²` coefficients restores that sequence. -/
def Obligations.RunLengthRoundTrip : Prop :=
  ∀ (s : State) (xs : List Sample) (tail : List Bool), s.BlockSide → s.rd.Legal →
    xs.length = s.w.toNat * s.w.toNat → s.rd.rest = pairsCode (runs xs) ++ tail →
    ∃ t, exec .rledec s = .next t ∧ t.run = s.run ∧ t.scale = s.scale ∧
      ∀ i < s.w.toNat * s.w.toNat, Memory.read t.sq i = xs[i]?

/-- `44_entropy.md` R189, R194: a wrong block side raises `IllegalConfig` and changes nothing else. After pairs that make
fewer than `N²` coefficients, a run longer than what is missing raises `RunOverrun`, bits that end inside the next length
or the next value raise `Eof`, and `2^15` ones in a length or 2 ones in a value raise `BadCode` (R182); a value is read
before its length is held against what is missing. -/
def Obligations.RledecRejectsOverruns : Prop :=
  (∀ s : State, ¬ s.BlockSide →
    exec .rledec s = .next { s with fcode := some .illegalConfig, run := .faulted, fpc := s.pc }) ∧
  (∀ (s : State) (ps : List (Nat × Sample)) (bs : List Bool), s.BlockSide → s.rd.Legal → (∀ p ∈ ps, p.1 < 65536) →
    (expand ps).length < s.w.toNat * s.w.toNat → s.rd.rest = pairsCode ps ++ bs →
    let raises := fun (f : FaultCode) => ∃ t, exec .rledec s = .next t ∧ t.run = .faulted ∧ t.fcode = some f ∧
      t.fpc = s.pc ∧ t.pc = s.pc
    (∀ len v tail, len < 65536 → s.w.toNat * s.w.toNat < (expand ps).length + len →
      bs = pairsCode [(len, v)] ++ tail → raises .runOverrun) ∧
    (EndsInsideCode 1 bs → raises .eof) ∧
    (∀ tail, bs = List.replicate (2 ^ 15) true ++ tail → raises .badCode) ∧
    (∀ len cs, len < 65536 → bs = riceCode 1 len ++ cs →
      (EndsInsideCode 15 cs → raises .eof) ∧
      (∀ tail, cs = List.replicate 2 true ++ tail → raises .badCode)))

/-! ## Faults and the whole machine -/

/-- `60_exceptions.md` R244, R241, `10_state.md` R30: fault entry writes `FCODE`, `RUN` and `FPC` and nothing else, and
`STATUS` then shows the code and `FAULTED`. -/
def Obligations.FaultEntryWritesOnlyTheFaultRegisters : Prop :=
  ∀ (f : FaultCode) (s : State),
    s.takeFault f = { s with fcode := some f, run := .faulted, fpc := s.pc } ∧
    (s.takeFault f).status.toNat = 3 + 4 * s.ovf.toNat + 16 *
      (match f with
        | .eof => 1 | .illegalCommand => 2 | .illegalConfig => 3 | .addrRange => 4
        | .badCode => 5 | .runOverrun => 6 | .outFull => 7 | .fetchRange => 8)

/-- `60_exceptions.md` R242: a command raises only the faults listed for it. -/
def Obligations.CommandsRaiseOnlyTheirFaults : Prop :=
  ∀ (i : Instr) (s t : State), s.run = .running → exec i s = .next t → t.run = .faulted →
    ∃ f ∈ mayRaise i, t.fcode = some f ∧ t.fpc = s.pc

/-- `10_state.md` R25: a command either completes and advances `pc` by one, or is `HALT` and leaves it, or raises a
fault and leaves it. -/
def Obligations.PcAdvancesByOne : Prop :=
  ∀ (i : Instr) (s t : State), s.run = .running → exec i s = .next t →
    (i ≠ .halt ∧ t.run = .running ∧ t.pc = s.pc + 1) ∨
    (i = .halt ∧ t.run = .halted ∧ t.pc = s.pc) ∨
    (t.run = .faulted ∧ t.pc = s.pc ∧ t.fpc = s.pc)

/-- `10_state.md` R27: `OVF` is sticky: only the lifting commands and `DEQUANT` set it, only `CLRF` clears it. -/
def Obligations.OvfIsSticky : Prop :=
  ∀ (i : Instr) (s t : State), exec i s = .next t →
    (s.ovf = true → i ≠ .clrf → t.ovf = true) ∧
    (s.ovf = false → setsOvf i = false → t.ovf = false) ∧
    (i = .clrf → t.ovf = false)

/-- `10_state.md` R28, `20_memory.md` R50: which command writes which register and memory; everything else keeps its
value, and the parameters and the program always do (R41, R22). -/
def Obligations.OnlyTheNamedCommandsWrite : Prop :=
  ∀ (i : Instr) (s t : State), exec i s = .next t →
    t.cfg = s.cfg ∧ t.pm = s.pm ∧ t.rd.ib = s.rd.ib ∧
    ((∀ v, i ≠ .setr .org v) → t.org = s.org) ∧
    ((∀ v, i ≠ .setr .stride v) → t.stride = s.stride) ∧
    ((∀ v, i ≠ .setr .w v) → t.w = s.w) ∧
    ((∀ v, i ≠ .setr .h v) → t.h = s.h) ∧
    (writesScale i = false → t.scale = s.scale) ∧
    (writesVal i = false → t.val = s.val) ∧
    (writesCM i = false → t.cm = s.cm) ∧
    (writesSQ i = false → t.sq = s.sq) ∧
    (writesOB i = false → t.wr = s.wr) ∧
    (readsIB i = false → t.rd = s.rd) ∧
    (s.run = .running → t.run ≠ .faulted → t.fpc = s.fpc ∧ t.fcode = s.fcode ∧ t.draws = s.draws)

/-- `20_memory.md` R61: `OB` is append-only: no step overwrites or removes a byte. -/
def Obligations.OutputIsAppendOnly : Prop :=
  ∀ s t : State, step s = .next t → s.wr.ob <+: t.wr.ob

/-- `45_system.md` R207: every run ends: `n` steps after which the sequencer still runs have used up `n` of the words
from `pc` to the end of the program, so a run of `PLEN` words from `pc = 0` has at most `PLEN + 1` steps. -/
def Obligations.RunsAreBoundedByTheProgram : Prop :=
  ∀ (n : Nat) (s t : State), s.pc.toNat ≤ s.pm.length → s.pm.length ≤ 65535 → s.run = .running →
    Host.Core.run Sys2Proof.core n s = .next t → t.run = .running → s.pc.toNat + n ≤ s.pm.length

/-- `10_state.md` R42, `70_reset_and_hazards.md` R270, R271: the reset state in the host's view: every register of R28
at its reset value, no word of `CM` or `SQ` written; and `H_RESET` leads there from every state, in every run state. -/
def Obligations.ResetValues : Prop :=
  ∀ s : State, ∃ t, hostAct .reset s = .ok t ∧ t.cfg = s.cfg ∧
    (∀ n ∈ [0, 4, 5, 6, 7, 8, 9, 10, 11, 12, 13, 14], hostRead (.reg n) t = .ok 0) ∧
    (∀ n ∈ [1, 2, 3], hostRead (.reg n) t = .ok 16) ∧
    t.run = .idle ∧ t.ovf = false ∧ t.fcode = none ∧
    (∀ a, Memory.read t.cm a = none) ∧ (∀ i, Memory.read t.sq i = none) ∧
    t = { State.reset with cfg := s.cfg, draws := s.draws }

/-- `10_state.md` R37, R28, `70_reset_and_hazards.md` R274, R278: what the host may do and what each action does. While
the sequencer runs there is no move but `H_RESET` and the read of `STATUS`; `H_START` needs `IDLE` or `HALTED`,
`H_CLEARFAULT` needs `FAULTED` and keeps `FPC` and `OVF`; `H_WRITE_REG` writes the six registers that R28 lets the host
write, truncated to their widths; `H_READ_REG` reads the fifteen of R28; a word of `CM` or `SQ` is read as the `Int16` it
holds (R34, R35, `20_memory.md` R51). An action outside the table is no move: that it answers a name and no state is the
model's choice (log entry 8), that registers and bytes are read as unsigned numbers its deduction (log entry 16). -/
def Obligations.HostActionsOfTheRunState : Prop :=
  ∀ s : State,
    -- while running
    (s.run = .running → (∀ a : HostAction, a ≠ .reset → hostAct a s = .error .running) ∧
      ∀ r : HostRead, r ≠ .reg 5 → hostRead r s = .error .running) ∧
    hostRead (.reg 5) s = .ok
      ((match s.run with | .idle => 0 | .running => 1 | .halted => 2 | .faulted => 3) + 4 * (s.ovf.toNat : Int) + 16 *
        (match s.fcode with
          | none => 0
          | some .eof => 1 | some .illegalCommand => 2 | some .illegalConfig => 3 | some .addrRange => 4
          | some .badCode => 5 | some .runOverrun => 6 | some .outFull => 7 | some .fetchRange => 8)) ∧
    -- the run states
    (s.run = .idle ∨ s.run = .halted → hostAct .start s = .ok { s with pc := 0, run := .running } ∧
      hostAct .clearFault s = .error .wrongRunState) ∧
    (s.run = .faulted → hostAct .clearFault s = .ok { s with run := .idle, fcode := none } ∧
      hostAct .start s = .error .wrongRunState) ∧
    (s.run ≠ .running →
      -- the program and the buffers
      (∀ words : List CmdWord, hostAct (.loadProg words) s =
        if words.length ≤ s.cfg.pmWords then .ok { s with pm := words } else .error .outOfRange) ∧
      (∀ bytes : List Byte, hostAct (.loadIB bytes) s =
        if bytes.length ≤ s.cfg.ibBytes then .ok { s with rd := { ib := bytes, rpos := 0, rbit := 0 } }
        else .error .outOfRange) ∧
      hostAct .clearOB s = .ok { s with wr := { ob := [], wacc := 0, wcnt := 0 } } ∧
      (∀ i x, s.wr.ob[i]? = some x → hostRead (.ob i) s = .ok (x.toNat : Int)) ∧
      (∀ i, s.wr.ob.length ≤ i → hostRead (.ob i) s = .error .outOfRange) ∧
      -- the word memories
      (∀ a v, a < s.cfg.cmWords → ∃ t, hostAct (.writeCM a v) s = .ok t ∧ t = { s with cm := t.cm } ∧
        hostRead (.cm a) t = .ok v.toInt ∧ ∀ b, b ≠ a → hostRead (.cm b) t = hostRead (.cm b) s) ∧
      (∀ a v, a < s.cfg.cmWords → Memory.read s.cm a = some v → hostRead (.cm a) s = .ok v.toInt) ∧
      (∀ a, a < s.cfg.cmWords → Memory.read s.cm a = none → hostRead (.cm a) s = .error .unwritten) ∧
      (∀ a v, s.cfg.cmWords ≤ a → hostAct (.writeCM a v) s = .error .outOfRange ∧
        hostRead (.cm a) s = .error .outOfRange) ∧
      (∀ i v, i < 1024 → ∃ t, hostAct (.writeSQ i v) s = .ok t ∧ t = { s with sq := t.sq } ∧
        hostRead (.sq i) t = .ok v.toInt ∧ ∀ j, j ≠ i → hostRead (.sq j) t = hostRead (.sq j) s) ∧
      (∀ i v, i < 1024 → Memory.read s.sq i = some v → hostRead (.sq i) s = .ok v.toInt) ∧
      (∀ i, i < 1024 → Memory.read s.sq i = none → hostRead (.sq i) s = .error .unwritten) ∧
      (∀ i v, 1024 ≤ i → hostAct (.writeSQ i v) s = .error .outOfRange ∧
        hostRead (.sq i) s = .error .outOfRange) ∧
      -- the registers
      (∀ v : BitVec 32,
        hostAct (.writeReg 0 v) s = .ok { s with org := v.setWidth 16 } ∧
        hostAct (.writeReg 1 v) s = .ok { s with stride := v.setWidth 16 } ∧
        hostAct (.writeReg 2 v) s = .ok { s with w := v.setWidth 16 } ∧
        hostAct (.writeReg 3 v) s = .ok { s with h := v.setWidth 16 } ∧
        hostAct (.writeReg 4 v) s = .ok { s with scale := v.setWidth 8 } ∧
        hostAct (.writeReg 7 v) s = .ok { s with val := v }) ∧
      (∀ n v, n ∉ [0, 1, 2, 3, 4, 7] → hostAct (.writeReg n v) s = .error .noSuchRegister) ∧
      hostRead (.reg 0) s = .ok (s.org.toNat : Int) ∧ hostRead (.reg 1) s = .ok (s.stride.toNat : Int) ∧
      hostRead (.reg 2) s = .ok (s.w.toNat : Int) ∧ hostRead (.reg 3) s = .ok (s.h.toNat : Int) ∧
      hostRead (.reg 4) s = .ok (s.scale.toNat : Int) ∧ hostRead (.reg 6) s = .ok (s.fpc.toNat : Int) ∧
      hostRead (.reg 7) s = .ok (s.val.toNat : Int) ∧
      (s.wr.ob.length < 2 ^ 32 → hostRead (.reg 8) s = .ok (s.wr.ob.length : Int)) ∧
      hostRead (.reg 9) s = .ok (256 * (s.wr.wcnt.toNat : Int) + s.wr.wacc.toNat) ∧
      (s.rd.ib.length < 2 ^ 32 → hostRead (.reg 10) s = .ok (s.rd.ib.length : Int)) ∧
      hostRead (.reg 11) s = .ok (s.rd.rpos.toNat : Int) ∧ hostRead (.reg 12) s = .ok (s.rd.rbit.toNat : Int) ∧
      hostRead (.reg 13) s = .ok (s.pc.toNat : Int) ∧
      (s.pm.length < 2 ^ 16 → hostRead (.reg 14) s = .ok (s.pm.length : Int)) ∧
      (∀ n, 14 < n → hostRead (.reg n) s = .error .noSuchRegister))

/-! ## The invariant -/

/-- `10_state.md` R42: the invariant holds at reset (the parameters' defaults are `00_scope.md` R9's). -/
def Obligations.InvariantAtReset : Prop :=
  State.reset.Inv

/-- Every step keeps the invariant (`10_state.md` R24, R38, R39, `20_memory.md` R52, R54). -/
def Obligations.StepKeepsTheInvariant : Prop :=
  ∀ s t : State, s.Inv → step s = .next t → t.Inv

/-- Every host action keeps the invariant (`10_state.md` R37). -/
def Obligations.HostActionsKeepTheInvariant : Prop :=
  ∀ (a : HostAction) (s t : State), s.Inv → hostAct a s = .ok t → t.Inv
end

