-- ==== Sys2Proof/Laws/Memory.lean ====
section
/-! SUPPORT. The laws of the word memories: read after write, what a list of writes changes, the canonical form. -/

namespace Sys2Proof.Machine

variable {w : Nat}

theorem Memory.read_write_same (m : Memory w) (a : Nat) (v : BitVec w) :
    Memory.read (Memory.write m a v) a = some v := by
  induction m with
  | nil => simp [Memory.write, Memory.read]
  | cons e m ih =>
    obtain ⟨k, x⟩ := e
    simp only [Memory.write]
    split
    · simp [Memory.read]
    · split
      · simp [Memory.read]
      · simp only [Memory.read, ih]
        rw [if_neg (by omega), if_neg (by omega)]

theorem Memory.read_write_other (m : Memory w) {a b : Nat} (v : BitVec w) (h : b ≠ a) :
    Memory.read (Memory.write m a v) b = Memory.read m b := by
  induction m with
  | nil => simp [Memory.write, Memory.read, h]
  | cons e m ih =>
    obtain ⟨k, x⟩ := e
    simp only [Memory.write]
    split
    · simp only [Memory.read, if_neg h]
      split <;> split <;> first | rfl | omega | (split <;> first | rfl | omega)
    · split
      · subst_vars
        simp only [Memory.read, if_neg h]
      · simp only [Memory.read, ih]

theorem Memory.read_write (m : Memory w) (a b : Nat) (v : BitVec w) :
    Memory.read (Memory.write m a v) b = if b = a then some v else Memory.read m b := by
  split
  · subst_vars; exact Memory.read_write_same m _ v
  · exact Memory.read_write_other m v ‹_›

/-- The keys after a write. -/
theorem Memory.mem_write {m : Memory w} {a : Nat} {v : BitVec w} {e : Nat × BitVec w}
    (h : e ∈ Memory.write m a v) : e = (a, v) ∨ e ∈ m := by
  induction m with
  | nil => simpa [Memory.write] using h
  | cons x m ih =>
    obtain ⟨k, y⟩ := x
    simp only [Memory.write] at h
    split at h
    · rcases List.mem_cons.1 h with rfl | h
      · exact .inl rfl
      · exact .inr h
    · split at h
      · rcases List.mem_cons.1 h with rfl | h
        · exact .inl rfl
        · exact .inr (List.mem_cons_of_mem _ h)
      · rcases List.mem_cons.1 h with rfl | h
        · exact .inr List.mem_cons_self
        · rcases ih h with rfl | h
          · exact .inl rfl
          · exact .inr (List.mem_cons_of_mem _ h)

/-- A write keeps the canonical form. -/
theorem Memory.write_wf {m : Memory w} (h : Memory.wf m) (a : Nat) (v : BitVec w) :
    Memory.wf (Memory.write m a v) := by
  induction m with
  | nil => simp [Memory.write, Memory.wf]
  | cons x m ih =>
    obtain ⟨k, y⟩ := x
    obtain ⟨hk, hm⟩ := List.pairwise_cons.1 h
    simp only [Memory.write]
    split
    · refine List.pairwise_cons.2 ⟨fun e he => ?_, h⟩
      rcases List.mem_cons.1 he with rfl | he
      · assumption
      · have := hk e he; simp only at this ⊢; omega
    · split
      · subst_vars
        exact List.pairwise_cons.2 ⟨hk, hm⟩
      · refine List.pairwise_cons.2 ⟨fun e he => ?_, ih hm⟩
        rcases Memory.mem_write he with rfl | he
        · simp only; omega
        · exact hk e he

/-- Lists of addresses read back: every address has its value. -/
theorem readWords_eq_some {m : Memory w} {as : List Nat} {vs : List (BitVec w)} :
    readWords m as = some vs ↔ as.map (Memory.read m) = vs.map some := by
  induction as generalizing vs with
  | nil => cases vs <;> simp [readWords]
  | cons a as ih =>
    simp only [readWords, List.map_cons]
    cases hr : Memory.read m a with
    | none => cases vs <;> simp
    | some v =>
      cases hs : readWords m as with
      | none =>
        cases vs with
        | nil => simp
        | cons x xs =>
          simp only [reduceCtorEq, List.map_cons, List.cons.injEq, false_iff, not_and]
          intro _ hx
          have := ih.2 hx
          simp [hs] at this
      | some ws =>
        have h1 := ih.1 hs
        cases vs with
        | nil => simp
        | cons x xs =>
          simp only [Option.some.injEq, List.map_cons, List.cons.injEq, h1]
          constructor
          · rintro ⟨rfl, rfl⟩; exact ⟨rfl, rfl⟩
          · rintro ⟨rfl, h⟩
            exact ⟨rfl, (List.map_injective_iff.2 (Option.some_injective _)) h⟩

theorem readWords_length {m : Memory w} {as : List Nat} {vs : List (BitVec w)} (h : readWords m as = some vs) :
    vs.length = as.length := by
  have := congrArg List.length (readWords_eq_some.1 h)
  simpa using this.symm

/-- All the addresses are written exactly if the list can be read. -/
theorem readWords_isSome {m : Memory w} {as : List Nat} :
    (readWords m as).isSome ↔ ∀ a ∈ as, (Memory.read m a).isSome := by
  induction as with
  | nil => simp [readWords]
  | cons a as ih =>
    simp only [readWords, List.forall_mem_cons, ← ih]
    cases Memory.read m a <;> cases readWords m as <;> simp

theorem readWords_congr {m m' : Memory w} {as : List Nat} (h : ∀ a ∈ as, Memory.read m a = Memory.read m' a) :
    readWords m as = readWords m' as := by
  induction as with
  | nil => rfl
  | cons a as ih =>
    simp only [readWords, h a List.mem_cons_self, ih (fun b hb => h b (List.mem_cons_of_mem _ hb))]

/-- Addresses that are not listed keep their words. -/
theorem read_writeWords_other {m : Memory w} {as : List Nat} {vs : List (BitVec w)} {b : Nat} (h : b ∉ as) :
    Memory.read (writeWords m as vs) b = Memory.read m b := by
  induction as generalizing m vs with
  | nil => cases vs <;> rfl
  | cons a as ih =>
    cases vs with
    | nil => rfl
    | cons v vs =>
      simp only [writeWords]
      rw [ih (fun hb => h (List.mem_cons_of_mem _ hb)),
        Memory.read_write_other m v (fun hb => h (by subst hb; exact List.mem_cons_self))]

/-- Distinct addresses receive their values. -/
theorem read_writeWords_getElem {m : Memory w} {as : List Nat} {vs : List (BitVec w)} (hd : as.Nodup)
    (hl : vs.length = as.length) {i : Nat} (hi : i < as.length) :
    Memory.read (writeWords m as vs) as[i] = vs[i]? := by
  induction as generalizing m vs i with
  | nil => simp at hi
  | cons a as ih =>
    cases vs with
    | nil => simp at hl
    | cons v vs =>
      obtain ⟨ha, hd⟩ := List.nodup_cons.1 hd
      simp only [writeWords]
      cases i with
      | zero =>
        simp only [List.getElem_cons_zero, List.getElem?_cons_zero]
        rw [read_writeWords_other ha, Memory.read_write_same]
      | succ i =>
        simp only [List.getElem_cons_succ, List.getElem?_cons_succ]
        exact ih hd (by simpa using hl) (by simpa using hi)

/-- What a list of distinct addresses reads after it was written. -/
theorem readWords_writeWords {m : Memory w} {as : List Nat} {vs : List (BitVec w)} (hd : as.Nodup)
    (hl : vs.length = as.length) : readWords (writeWords m as vs) as = some vs := by
  rw [readWords_eq_some]
  apply List.ext_getElem (by simp [hl])
  intro i h1 h2
  simp only [List.length_map] at h1 h2
  simp only [List.getElem_map]
  rw [read_writeWords_getElem hd hl h1, List.getElem?_eq_getElem h2]

theorem writeWords_wf {m : Memory w} (h : Memory.wf m) (as : List Nat) (vs : List (BitVec w)) :
    Memory.wf (writeWords m as vs) := by
  induction as generalizing m vs with
  | nil => cases vs <;> exact h
  | cons a as ih =>
    cases vs with
    | nil => exact h
    | cons v vs => exact ih (Memory.write_wf h a v) vs

theorem mem_writeWords {m : Memory w} {as : List Nat} {vs : List (BitVec w)} {e : Nat × BitVec w}
    (h : e ∈ writeWords m as vs) : e.1 ∈ as ∨ e ∈ m := by
  induction as generalizing m vs with
  | nil => cases vs <;> exact .inr h
  | cons a as ih =>
    cases vs with
    | nil => exact .inr h
    | cons v vs =>
      rcases ih h with h | h
      · exact .inl (List.mem_cons_of_mem _ h)
      · rcases Memory.mem_write h with rfl | h
        · exact .inl List.mem_cons_self
        · exact .inr h

/-- Writing back what was read changes no reading. -/
theorem read_writeWords_of_readWords {m m' : Memory w} {as : List Nat} {vs : List (BitVec w)} (hd : as.Nodup)
    (h : readWords m as = some vs) (ho : ∀ b, b ∉ as → Memory.read m' b = Memory.read m b) (b : Nat) :
    Memory.read (writeWords m' as vs) b = Memory.read m b := by
  by_cases hb : b ∈ as
  · obtain ⟨i, hi, rfl⟩ := List.getElem_of_mem hb
    rw [read_writeWords_getElem hd (readWords_length h) hi]
    have h2 := readWords_eq_some.1 h
    have h3 : (as.map (Memory.read m))[i]? = (vs.map some)[i]? := by rw [h2]
    have hl := readWords_length h
    rw [List.getElem?_map, List.getElem?_map, List.getElem?_eq_getElem hi,
      List.getElem?_eq_getElem (hl ▸ hi)] at h3
    rw [List.getElem?_eq_getElem (hl ▸ hi)]
    simpa using h3.symm
  · rw [read_writeWords_other hb, ho b hb]

end Sys2Proof.Machine
end

