-- ==== Sys2Proof/Laws/Lift.lean ====
section
/-! SUPPORT. The one-line lifting step: halves and interleaving of lines, the sums place by place, narrowing. -/

namespace Sys2Proof.Machine

/-! ## Halves of a line -/

theorem evens_length {α : Type} : ∀ x : List α, (evens x).length = (x.length + 1) / 2
  | [] => by simp [evens]
  | [_] => by simp [evens]
  | _ :: _ :: x => by simp only [evens, List.length_cons, evens_length x]; omega

theorem odds_length {α : Type} : ∀ x : List α, (odds x).length = x.length / 2
  | [] => by simp [odds]
  | [_] => by simp [odds]
  | _ :: _ :: x => by simp only [odds, List.length_cons, odds_length x]; omega

theorem evens_getElem? {α : Type} : ∀ (x : List α) (i : Nat), (evens x)[i]? = x[2 * i]?
  | [], i => by simp [evens]
  | [a], i => by cases i <;> simp [evens]
  | a :: b :: x, i => by
    cases i with
    | zero => rfl
    | succ i => simp only [evens, List.getElem?_cons_succ, evens_getElem? x i, Nat.mul_succ]

theorem odds_getElem? {α : Type} : ∀ (x : List α) (i : Nat), (odds x)[i]? = x[2 * i + 1]?
  | [], i => by simp [odds]
  | [a], i => by simp [odds]
  | a :: b :: x, i => by
    cases i with
    | zero => rfl
    | succ i => simp only [odds, List.getElem?_cons_succ, odds_getElem? x i, Nat.mul_succ]

theorem interleave_evens_odds {α : Type} : ∀ x : List α, interleave (evens x) (odds x) = x
  | [] => rfl
  | [_] => rfl
  | _ :: _ :: x => by simp only [evens, odds, interleave, interleave_evens_odds x]

theorem evens_interleave {α : Type} : ∀ {x y : List α}, x.length = y.length → evens (interleave x y) = x
  | [], [], _ => rfl
  | _ :: x, _ :: y, h => by simp only [interleave, evens, evens_interleave (Nat.succ.inj h)]

theorem odds_interleave {α : Type} : ∀ {x y : List α}, x.length = y.length → odds (interleave x y) = y
  | [], [], _ => rfl
  | _ :: x, _ :: y, h => by simp only [interleave, odds, odds_interleave (Nat.succ.inj h)]

theorem interleave_length {α : Type} : ∀ x y : List α, (interleave x y).length = x.length + y.length
  | [], [] => rfl
  | [], _ :: _ => by simp [interleave]
  | _ :: _, [] => by simp [interleave]
  | _ :: x, _ :: y => by simp only [interleave, List.length_cons, interleave_length x y]; omega

/-! ## Neighbours with the end element again -/

theorem nextOrLast_length {α : Type} (x : List α) : (nextOrLast x).length = x.length := by
  cases x with
  | nil => rfl
  | cons a x => simp [nextOrLast, List.getLast?_cons]

theorem prevOrFirst_length {α : Type} (x : List α) : (prevOrFirst x).length = x.length := by
  cases x with
  | nil => rfl
  | cons a x => simp [prevOrFirst]

theorem nextOrLast_getElem? {α : Type} (x : List α) {i : Nat} (h : i < x.length) :
    (nextOrLast x)[i]? = x[min (i + 1) (x.length - 1)]? := by
  simp only [nextOrLast]
  by_cases hi : i + 1 < x.length
  · rw [List.getElem?_append_left (by simp; omega), List.getElem?_tail, Nat.min_eq_left (by omega)]
  · have hl : x.length - 1 = i := by omega
    rw [List.getElem?_append_right (by simp; omega), Nat.min_eq_right (by omega)]
    have hn : x ≠ [] := by rintro rfl; simp at h
    rw [List.getLast?_eq_getElem?, List.length_tail, hl, Nat.sub_self, List.getElem?_eq_getElem h]
    rfl

theorem prevOrFirst_getElem? {α : Type} (x : List α) {i : Nat} (h : i < x.length) :
    (prevOrFirst x)[i]? = x[i - 1]? := by
  cases x with
  | nil => simp at h
  | cons a x =>
    simp only [prevOrFirst, List.head?_cons, Option.toList_some, List.singleton_append]
    cases i with
    | zero => rfl
    | succ i =>
      simp only [List.getElem?_cons_succ, Nat.add_sub_cancel]
      rw [List.getElem?_dropLast, if_pos (by simp at h ⊢; omega)]

theorem predictSums_length (low : List Sample) : (predictSums low).length = low.length := by
  simp [predictSums, nextOrLast_length]

theorem updateSums_length (d : List Sample) : (updateSums d).length = d.length := by
  simp [updateSums, prevOrFirst_length]

theorem getElem?_eq_getD {x : List Sample} {i : Nat} (h : i < x.length) : x[i]? = some (x.getD i 0) := by
  simp [List.getD, List.getElem?_eq_getElem h]

theorem predictSums_getElem? (low : List Sample) {i : Nat} (h : i < low.length) :
    (predictSums low)[i]? =
      some ((low.getD i 0).toInt + (low.getD (min (i + 1) (low.length - 1)) 0).toInt) := by
  simp only [predictSums, List.getElem?_zipWith, nextOrLast_getElem? low h, getElem?_eq_getD h,
    getElem?_eq_getD (x := low) (i := min (i + 1) (low.length - 1)) (by omega)]

theorem updateSums_getElem? (d : List Sample) {i : Nat} (h : i < d.length) :
    (updateSums d)[i]? = some ((d.getD (i - 1) 0).toInt + (d.getD i 0).toInt + 2) := by
  simp only [updateSums, List.getElem?_zipWith, prevOrFirst_getElem? d h, getElem?_eq_getD h,
    getElem?_eq_getD (x := d) (i := i - 1) (by omega)]

/-! ## Narrowing -/

theorem wrap16_toInt (v : Sample) : wrap16 v.toInt = v := by
  simp [wrap16]

theorem wrap16_add_sub (v : Sample) (z : Int) : wrap16 ((wrap16 (v.toInt + z)).toInt - z) = v := by
  apply BitVec.eq_of_toInt_eq
  simp only [wrap16, BitVec.toInt_ofInt, Int.bmod_sub_bmod, Int.add_sub_cancel]
  exact BitVec.toInt_bmod_cancel v

theorem wrap16_sub_add (v : Sample) (z : Int) : wrap16 ((wrap16 (v.toInt - z)).toInt + z) = v := by
  have := wrap16_add_sub v (-z)
  simpa [sub_eq_add_neg] using this

theorem fits16_iff (z : Int) : fits16 z = true ↔ -32768 ≤ z ∧ z ≤ 32767 := by
  simp [fits16]

theorem wrap16_toInt_of_fits {z : Int} (h : -32768 ≤ z ∧ z ≤ 32767) : (wrap16 z).toInt = z := by
  simp only [wrap16, BitVec.toInt_ofInt]
  rw [Int.bmod_def]
  split <;> omega

/-! ## The shifts of the sums in either setting (`40_dwt.md` R104, `00_scope.md` R12) -/

theorem half_wide (z : Int) : half .wide z = z / 2 := by simp [half, ashr]

theorem half_wrap16 (z : Int) : half .wrap16 z = (BitVec.ofInt 16 z).toInt / 2 := by simp [half, ashr, wrap16]

theorem quarter_wide (z : Int) : quarter .wide z = z / 4 := by simp [quarter, ashr]

theorem quarter_wrap16 (z : Int) : quarter .wrap16 z = (BitVec.ofInt 16 z).toInt / 4 := by simp [quarter, ashr, wrap16]

/-- Adding a quantity to each place of a line and taking it away again. -/
theorem undo_add (f : Int → Int) (l : List Sample) (u : List Int) (h : l.length = u.length) :
    (List.zipWith (fun v z => v.toInt - f z) ((List.zipWith (fun v z => v.toInt + f z) l u).map wrap16) u).map wrap16
      = l := by
  induction l generalizing u with
  | nil => simp
  | cons v l ih =>
    cases u with
    | nil => simp at h
    | cons z u =>
      simp only [List.zipWith_cons_cons, List.map_cons, wrap16_add_sub, ih u (by simpa using h)]

theorem undo_sub (f : Int → Int) (l : List Sample) (u : List Int) (h : l.length = u.length) :
    (List.zipWith (fun v z => v.toInt + f z) ((List.zipWith (fun v z => v.toInt - f z) l u).map wrap16) u).map wrap16
      = l := by
  induction l generalizing u with
  | nil => simp
  | cons v l ih =>
    cases u with
    | nil => simp at h
    | cons z u =>
      simp only [List.zipWith_cons_cons, List.map_cons, wrap16_sub_add, ih u (by simpa using h)]

/-! ## The steps in parts -/

/-- The high half that the forward step makes. -/
def predictedHigh (width : LiftWidth) (x : List Sample) : List Sample :=
  (List.zipWith (fun v z => v.toInt - half width z) (odds x) (predictSums (evens x))).map wrap16

/-- The low half that the forward step makes. -/
def updatedLow (width : LiftWidth) (x : List Sample) : List Sample :=
  (List.zipWith (fun v z => v.toInt + quarter width z) (evens x) (updateSums (predictedHigh width x))).map wrap16

theorem fLift_out (width : LiftWidth) (x : List Sample) :
    (fLift width x).out = updatedLow width x ++ predictedHigh width x := rfl

/-- The low half that the inverse step restores. -/
def restoredLow (width : LiftWidth) (y : List Sample) : List Sample :=
  (List.zipWith (fun v z => v.toInt - quarter width z) (y.take (y.length / 2))
    (updateSums (y.drop (y.length / 2)))).map wrap16

/-- The high half that the inverse step restores. -/
def restoredHigh (width : LiftWidth) (y : List Sample) : List Sample :=
  (List.zipWith (fun v z => v.toInt + half width z) (y.drop (y.length / 2))
    (predictSums (restoredLow width y))).map wrap16

theorem iLift_out (width : LiftWidth) (y : List Sample) :
    (iLift width y).out = interleave (restoredLow width y) (restoredHigh width y) := rfl

theorem predictedHigh_length (width : LiftWidth) {x : List Sample} (h : x.length % 2 = 0) :
    (predictedHigh width x).length = x.length / 2 := by
  simp only [predictedHigh, List.length_map, List.length_zipWith, odds_length, predictSums_length, evens_length]
  omega

theorem updatedLow_length (width : LiftWidth) {x : List Sample} (h : x.length % 2 = 0) :
    (updatedLow width x).length = x.length / 2 := by
  simp only [updatedLow, List.length_map, List.length_zipWith, updateSums_length, predictedHigh_length width h,
    evens_length]
  omega

theorem restoredLow_length (width : LiftWidth) {y : List Sample} (h : y.length % 2 = 0) :
    (restoredLow width y).length = y.length / 2 := by
  simp only [restoredLow, List.length_map, List.length_zipWith, updateSums_length, List.length_take, List.length_drop]
  omega

theorem restoredHigh_length (width : LiftWidth) {y : List Sample} (h : y.length % 2 = 0) :
    (restoredHigh width y).length = y.length / 2 := by
  simp only [restoredHigh, List.length_map, List.length_zipWith, predictSums_length, restoredLow_length width h,
    List.length_drop]
  omega

theorem fLift_length (width : LiftWidth) {x : List Sample} (h : x.length % 2 = 0) :
    (fLift width x).out.length = x.length := by
  rw [fLift_out, List.length_append, updatedLow_length width h, predictedHigh_length width h]
  omega

theorem iLift_length (width : LiftWidth) {y : List Sample} (h : y.length % 2 = 0) :
    (iLift width y).out.length = y.length := by
  rw [iLift_out, interleave_length, restoredLow_length width h, restoredHigh_length width h]
  omega

end Sys2Proof.Machine
end

