-- ==== Sys2Proof/Laws/State.lean ====
section
/-! SUPPORT. What each named update of the state leaves in each field. -/

namespace Sys2Proof.Machine

@[simp] theorem State.advance_cfg (s : State) : (s.advance).cfg = s.cfg := rfl
@[simp] theorem State.advance_pm (s : State) : (s.advance).pm = s.pm := rfl
@[simp] theorem State.advance_pc (s : State) : (s.advance).pc = s.pc + 1 := rfl
@[simp] theorem State.advance_cm (s : State) : (s.advance).cm = s.cm := rfl
@[simp] theorem State.advance_sq (s : State) : (s.advance).sq = s.sq := rfl
@[simp] theorem State.advance_org (s : State) : (s.advance).org = s.org := rfl
@[simp] theorem State.advance_stride (s : State) : (s.advance).stride = s.stride := rfl
@[simp] theorem State.advance_w (s : State) : (s.advance).w = s.w := rfl
@[simp] theorem State.advance_h (s : State) : (s.advance).h = s.h := rfl
@[simp] theorem State.advance_scale (s : State) : (s.advance).scale = s.scale := rfl
@[simp] theorem State.advance_run (s : State) : (s.advance).run = s.run := rfl
@[simp] theorem State.advance_ovf (s : State) : (s.advance).ovf = s.ovf := rfl
@[simp] theorem State.advance_fcode (s : State) : (s.advance).fcode = s.fcode := rfl
@[simp] theorem State.advance_fpc (s : State) : (s.advance).fpc = s.fpc := rfl
@[simp] theorem State.advance_val (s : State) : (s.advance).val = s.val := rfl
@[simp] theorem State.advance_wr (s : State) : (s.advance).wr = s.wr := rfl
@[simp] theorem State.advance_rd (s : State) : (s.advance).rd = s.rd := rfl
@[simp] theorem State.advance_draws (s : State) : (s.advance).draws = s.draws := rfl

@[simp] theorem State.takeFault_cfg (f : FaultCode) (s : State) : (s.takeFault f).cfg = s.cfg := rfl
@[simp] theorem State.takeFault_pm (f : FaultCode) (s : State) : (s.takeFault f).pm = s.pm := rfl
@[simp] theorem State.takeFault_pc (f : FaultCode) (s : State) : (s.takeFault f).pc = s.pc := rfl
@[simp] theorem State.takeFault_cm (f : FaultCode) (s : State) : (s.takeFault f).cm = s.cm := rfl
@[simp] theorem State.takeFault_sq (f : FaultCode) (s : State) : (s.takeFault f).sq = s.sq := rfl
@[simp] theorem State.takeFault_org (f : FaultCode) (s : State) : (s.takeFault f).org = s.org := rfl
@[simp] theorem State.takeFault_stride (f : FaultCode) (s : State) : (s.takeFault f).stride = s.stride := rfl
@[simp] theorem State.takeFault_w (f : FaultCode) (s : State) : (s.takeFault f).w = s.w := rfl
@[simp] theorem State.takeFault_h (f : FaultCode) (s : State) : (s.takeFault f).h = s.h := rfl
@[simp] theorem State.takeFault_scale (f : FaultCode) (s : State) : (s.takeFault f).scale = s.scale := rfl
@[simp] theorem State.takeFault_run (f : FaultCode) (s : State) : (s.takeFault f).run = .faulted := rfl
@[simp] theorem State.takeFault_ovf (f : FaultCode) (s : State) : (s.takeFault f).ovf = s.ovf := rfl
@[simp] theorem State.takeFault_fcode (f : FaultCode) (s : State) : (s.takeFault f).fcode = some f := rfl
@[simp] theorem State.takeFault_fpc (f : FaultCode) (s : State) : (s.takeFault f).fpc = s.pc := rfl
@[simp] theorem State.takeFault_val (f : FaultCode) (s : State) : (s.takeFault f).val = s.val := rfl
@[simp] theorem State.takeFault_wr (f : FaultCode) (s : State) : (s.takeFault f).wr = s.wr := rfl
@[simp] theorem State.takeFault_rd (f : FaultCode) (s : State) : (s.takeFault f).rd = s.rd := rfl
@[simp] theorem State.takeFault_draws (f : FaultCode) (s : State) : (s.takeFault f).draws = s.draws := rfl

@[simp] theorem State.clearFault_cfg (s : State) : (s.clearFault).cfg = s.cfg := rfl
@[simp] theorem State.clearFault_pm (s : State) : (s.clearFault).pm = s.pm := rfl
@[simp] theorem State.clearFault_pc (s : State) : (s.clearFault).pc = s.pc := rfl
@[simp] theorem State.clearFault_cm (s : State) : (s.clearFault).cm = s.cm := rfl
@[simp] theorem State.clearFault_sq (s : State) : (s.clearFault).sq = s.sq := rfl
@[simp] theorem State.clearFault_org (s : State) : (s.clearFault).org = s.org := rfl
@[simp] theorem State.clearFault_stride (s : State) : (s.clearFault).stride = s.stride := rfl
@[simp] theorem State.clearFault_w (s : State) : (s.clearFault).w = s.w := rfl
@[simp] theorem State.clearFault_h (s : State) : (s.clearFault).h = s.h := rfl
@[simp] theorem State.clearFault_scale (s : State) : (s.clearFault).scale = s.scale := rfl
@[simp] theorem State.clearFault_run (s : State) : (s.clearFault).run = .idle := rfl
@[simp] theorem State.clearFault_ovf (s : State) : (s.clearFault).ovf = s.ovf := rfl
@[simp] theorem State.clearFault_fcode (s : State) : (s.clearFault).fcode = none := rfl
@[simp] theorem State.clearFault_fpc (s : State) : (s.clearFault).fpc = s.fpc := rfl
@[simp] theorem State.clearFault_val (s : State) : (s.clearFault).val = s.val := rfl
@[simp] theorem State.clearFault_wr (s : State) : (s.clearFault).wr = s.wr := rfl
@[simp] theorem State.clearFault_rd (s : State) : (s.clearFault).rd = s.rd := rfl
@[simp] theorem State.clearFault_draws (s : State) : (s.clearFault).draws = s.draws := rfl

@[simp] theorem State.start_cfg (s : State) : (s.start).cfg = s.cfg := rfl
@[simp] theorem State.start_pm (s : State) : (s.start).pm = s.pm := rfl
@[simp] theorem State.start_pc (s : State) : (s.start).pc = 0 := rfl
@[simp] theorem State.start_cm (s : State) : (s.start).cm = s.cm := rfl
@[simp] theorem State.start_sq (s : State) : (s.start).sq = s.sq := rfl
@[simp] theorem State.start_org (s : State) : (s.start).org = s.org := rfl
@[simp] theorem State.start_stride (s : State) : (s.start).stride = s.stride := rfl
@[simp] theorem State.start_w (s : State) : (s.start).w = s.w := rfl
@[simp] theorem State.start_h (s : State) : (s.start).h = s.h := rfl
@[simp] theorem State.start_scale (s : State) : (s.start).scale = s.scale := rfl
@[simp] theorem State.start_run (s : State) : (s.start).run = .running := rfl
@[simp] theorem State.start_ovf (s : State) : (s.start).ovf = s.ovf := rfl
@[simp] theorem State.start_fcode (s : State) : (s.start).fcode = s.fcode := rfl
@[simp] theorem State.start_fpc (s : State) : (s.start).fpc = s.fpc := rfl
@[simp] theorem State.start_val (s : State) : (s.start).val = s.val := rfl
@[simp] theorem State.start_wr (s : State) : (s.start).wr = s.wr := rfl
@[simp] theorem State.start_rd (s : State) : (s.start).rd = s.rd := rfl
@[simp] theorem State.start_draws (s : State) : (s.start).draws = s.draws := rfl

@[simp] theorem State.forgetVal_cfg (s : State) : (s.forgetVal).cfg = s.cfg := rfl
@[simp] theorem State.forgetVal_pm (s : State) : (s.forgetVal).pm = s.pm := rfl
@[simp] theorem State.forgetVal_pc (s : State) : (s.forgetVal).pc = s.pc := rfl
@[simp] theorem State.forgetVal_cm (s : State) : (s.forgetVal).cm = s.cm := rfl
@[simp] theorem State.forgetVal_sq (s : State) : (s.forgetVal).sq = s.sq := rfl
@[simp] theorem State.forgetVal_org (s : State) : (s.forgetVal).org = s.org := rfl
@[simp] theorem State.forgetVal_stride (s : State) : (s.forgetVal).stride = s.stride := rfl
@[simp] theorem State.forgetVal_w (s : State) : (s.forgetVal).w = s.w := rfl
@[simp] theorem State.forgetVal_h (s : State) : (s.forgetVal).h = s.h := rfl
@[simp] theorem State.forgetVal_scale (s : State) : (s.forgetVal).scale = s.scale := rfl
@[simp] theorem State.forgetVal_run (s : State) : (s.forgetVal).run = s.run := rfl
@[simp] theorem State.forgetVal_ovf (s : State) : (s.forgetVal).ovf = s.ovf := rfl
@[simp] theorem State.forgetVal_fcode (s : State) : (s.forgetVal).fcode = s.fcode := rfl
@[simp] theorem State.forgetVal_fpc (s : State) : (s.forgetVal).fpc = s.fpc := rfl
@[simp] theorem State.forgetVal_val (s : State) : (s.forgetVal).val = Config.freeVal s.draws := rfl
@[simp] theorem State.forgetVal_wr (s : State) : (s.forgetVal).wr = s.wr := rfl
@[simp] theorem State.forgetVal_rd (s : State) : (s.forgetVal).rd = s.rd := rfl
@[simp] theorem State.forgetVal_draws (s : State) : (s.forgetVal).draws = s.draws := rfl

@[simp] theorem State.forgetScale_cfg (s : State) : (s.forgetScale).cfg = s.cfg := rfl
@[simp] theorem State.forgetScale_pm (s : State) : (s.forgetScale).pm = s.pm := rfl
@[simp] theorem State.forgetScale_pc (s : State) : (s.forgetScale).pc = s.pc := rfl
@[simp] theorem State.forgetScale_cm (s : State) : (s.forgetScale).cm = s.cm := rfl
@[simp] theorem State.forgetScale_sq (s : State) : (s.forgetScale).sq = s.sq := rfl
@[simp] theorem State.forgetScale_org (s : State) : (s.forgetScale).org = s.org := rfl
@[simp] theorem State.forgetScale_stride (s : State) : (s.forgetScale).stride = s.stride := rfl
@[simp] theorem State.forgetScale_w (s : State) : (s.forgetScale).w = s.w := rfl
@[simp] theorem State.forgetScale_h (s : State) : (s.forgetScale).h = s.h := rfl
@[simp] theorem State.forgetScale_scale (s : State) : (s.forgetScale).scale = Config.freeScale s.draws := rfl
@[simp] theorem State.forgetScale_run (s : State) : (s.forgetScale).run = s.run := rfl
@[simp] theorem State.forgetScale_ovf (s : State) : (s.forgetScale).ovf = s.ovf := rfl
@[simp] theorem State.forgetScale_fcode (s : State) : (s.forgetScale).fcode = s.fcode := rfl
@[simp] theorem State.forgetScale_fpc (s : State) : (s.forgetScale).fpc = s.fpc := rfl
@[simp] theorem State.forgetScale_val (s : State) : (s.forgetScale).val = s.val := rfl
@[simp] theorem State.forgetScale_wr (s : State) : (s.forgetScale).wr = s.wr := rfl
@[simp] theorem State.forgetScale_rd (s : State) : (s.forgetScale).rd = s.rd := rfl
@[simp] theorem State.forgetScale_draws (s : State) : (s.forgetScale).draws = s.draws := rfl

@[simp] theorem State.forgetSq_cfg (n : Nat) (s : State) : (s.forgetSq n).cfg = s.cfg := rfl
@[simp] theorem State.forgetSq_pm (n : Nat) (s : State) : (s.forgetSq n).pm = s.pm := rfl
@[simp] theorem State.forgetSq_pc (n : Nat) (s : State) : (s.forgetSq n).pc = s.pc := rfl
@[simp] theorem State.forgetSq_cm (n : Nat) (s : State) : (s.forgetSq n).cm = s.cm := rfl
@[simp] theorem State.forgetSq_org (n : Nat) (s : State) : (s.forgetSq n).org = s.org := rfl
@[simp] theorem State.forgetSq_stride (n : Nat) (s : State) : (s.forgetSq n).stride = s.stride := rfl
@[simp] theorem State.forgetSq_w (n : Nat) (s : State) : (s.forgetSq n).w = s.w := rfl
@[simp] theorem State.forgetSq_h (n : Nat) (s : State) : (s.forgetSq n).h = s.h := rfl
@[simp] theorem State.forgetSq_scale (n : Nat) (s : State) : (s.forgetSq n).scale = s.scale := rfl
@[simp] theorem State.forgetSq_run (n : Nat) (s : State) : (s.forgetSq n).run = s.run := rfl
@[simp] theorem State.forgetSq_ovf (n : Nat) (s : State) : (s.forgetSq n).ovf = s.ovf := rfl
@[simp] theorem State.forgetSq_fcode (n : Nat) (s : State) : (s.forgetSq n).fcode = s.fcode := rfl
@[simp] theorem State.forgetSq_fpc (n : Nat) (s : State) : (s.forgetSq n).fpc = s.fpc := rfl
@[simp] theorem State.forgetSq_val (n : Nat) (s : State) : (s.forgetSq n).val = s.val := rfl
@[simp] theorem State.forgetSq_wr (n : Nat) (s : State) : (s.forgetSq n).wr = s.wr := rfl
@[simp] theorem State.forgetSq_rd (n : Nat) (s : State) : (s.forgetSq n).rd = s.rd := rfl
@[simp] theorem State.forgetSq_draws (n : Nat) (s : State) : (s.forgetSq n).draws = s.draws := rfl

@[simp] theorem State.forgetReader_cfg (s : State) : (s.forgetReader).cfg = s.cfg := rfl
@[simp] theorem State.forgetReader_pm (s : State) : (s.forgetReader).pm = s.pm := rfl
@[simp] theorem State.forgetReader_pc (s : State) : (s.forgetReader).pc = s.pc := rfl
@[simp] theorem State.forgetReader_cm (s : State) : (s.forgetReader).cm = s.cm := rfl
@[simp] theorem State.forgetReader_sq (s : State) : (s.forgetReader).sq = s.sq := rfl
@[simp] theorem State.forgetReader_org (s : State) : (s.forgetReader).org = s.org := rfl
@[simp] theorem State.forgetReader_stride (s : State) : (s.forgetReader).stride = s.stride := rfl
@[simp] theorem State.forgetReader_w (s : State) : (s.forgetReader).w = s.w := rfl
@[simp] theorem State.forgetReader_h (s : State) : (s.forgetReader).h = s.h := rfl
@[simp] theorem State.forgetReader_scale (s : State) : (s.forgetReader).scale = s.scale := rfl
@[simp] theorem State.forgetReader_run (s : State) : (s.forgetReader).run = s.run := rfl
@[simp] theorem State.forgetReader_ovf (s : State) : (s.forgetReader).ovf = s.ovf := rfl
@[simp] theorem State.forgetReader_fcode (s : State) : (s.forgetReader).fcode = s.fcode := rfl
@[simp] theorem State.forgetReader_fpc (s : State) : (s.forgetReader).fpc = s.fpc := rfl
@[simp] theorem State.forgetReader_val (s : State) : (s.forgetReader).val = s.val := rfl
@[simp] theorem State.forgetReader_wr (s : State) : (s.forgetReader).wr = s.wr := rfl
@[simp] theorem State.forgetReader_draws (s : State) : (s.forgetReader).draws = s.draws := rfl

@[simp] theorem State.forgetWriter_cfg (s : State) : (s.forgetWriter).cfg = s.cfg := rfl
@[simp] theorem State.forgetWriter_pm (s : State) : (s.forgetWriter).pm = s.pm := rfl
@[simp] theorem State.forgetWriter_pc (s : State) : (s.forgetWriter).pc = s.pc := rfl
@[simp] theorem State.forgetWriter_cm (s : State) : (s.forgetWriter).cm = s.cm := rfl
@[simp] theorem State.forgetWriter_sq (s : State) : (s.forgetWriter).sq = s.sq := rfl
@[simp] theorem State.forgetWriter_org (s : State) : (s.forgetWriter).org = s.org := rfl
@[simp] theorem State.forgetWriter_stride (s : State) : (s.forgetWriter).stride = s.stride := rfl
@[simp] theorem State.forgetWriter_w (s : State) : (s.forgetWriter).w = s.w := rfl
@[simp] theorem State.forgetWriter_h (s : State) : (s.forgetWriter).h = s.h := rfl
@[simp] theorem State.forgetWriter_scale (s : State) : (s.forgetWriter).scale = s.scale := rfl
@[simp] theorem State.forgetWriter_run (s : State) : (s.forgetWriter).run = s.run := rfl
@[simp] theorem State.forgetWriter_ovf (s : State) : (s.forgetWriter).ovf = s.ovf := rfl
@[simp] theorem State.forgetWriter_fcode (s : State) : (s.forgetWriter).fcode = s.fcode := rfl
@[simp] theorem State.forgetWriter_fpc (s : State) : (s.forgetWriter).fpc = s.fpc := rfl
@[simp] theorem State.forgetWriter_val (s : State) : (s.forgetWriter).val = s.val := rfl
@[simp] theorem State.forgetWriter_rd (s : State) : (s.forgetWriter).rd = s.rd := rfl
@[simp] theorem State.forgetWriter_draws (s : State) : (s.forgetWriter).draws = s.draws := rfl

@[simp] theorem State.nextDraw_cfg (s : State) : (s.nextDraw).cfg = s.cfg := rfl
@[simp] theorem State.nextDraw_pm (s : State) : (s.nextDraw).pm = s.pm := rfl
@[simp] theorem State.nextDraw_pc (s : State) : (s.nextDraw).pc = s.pc := rfl
@[simp] theorem State.nextDraw_cm (s : State) : (s.nextDraw).cm = s.cm := rfl
@[simp] theorem State.nextDraw_sq (s : State) : (s.nextDraw).sq = s.sq := rfl
@[simp] theorem State.nextDraw_org (s : State) : (s.nextDraw).org = s.org := rfl
@[simp] theorem State.nextDraw_stride (s : State) : (s.nextDraw).stride = s.stride := rfl
@[simp] theorem State.nextDraw_w (s : State) : (s.nextDraw).w = s.w := rfl
@[simp] theorem State.nextDraw_h (s : State) : (s.nextDraw).h = s.h := rfl
@[simp] theorem State.nextDraw_scale (s : State) : (s.nextDraw).scale = s.scale := rfl
@[simp] theorem State.nextDraw_run (s : State) : (s.nextDraw).run = s.run := rfl
@[simp] theorem State.nextDraw_ovf (s : State) : (s.nextDraw).ovf = s.ovf := rfl
@[simp] theorem State.nextDraw_fcode (s : State) : (s.nextDraw).fcode = s.fcode := rfl
@[simp] theorem State.nextDraw_fpc (s : State) : (s.nextDraw).fpc = s.fpc := rfl
@[simp] theorem State.nextDraw_val (s : State) : (s.nextDraw).val = s.val := rfl
@[simp] theorem State.nextDraw_wr (s : State) : (s.nextDraw).wr = s.wr := rfl
@[simp] theorem State.nextDraw_rd (s : State) : (s.nextDraw).rd = s.rd := rfl
@[simp] theorem State.nextDraw_draws (s : State) : (s.nextDraw).draws = s.draws + 1 := rfl

@[simp] theorem State.setVal_cfg (x : Nat) (s : State) : (s.setVal x).cfg = s.cfg := rfl
@[simp] theorem State.setVal_pm (x : Nat) (s : State) : (s.setVal x).pm = s.pm := rfl
@[simp] theorem State.setVal_pc (x : Nat) (s : State) : (s.setVal x).pc = s.pc := rfl
@[simp] theorem State.setVal_cm (x : Nat) (s : State) : (s.setVal x).cm = s.cm := rfl
@[simp] theorem State.setVal_sq (x : Nat) (s : State) : (s.setVal x).sq = s.sq := rfl
@[simp] theorem State.setVal_org (x : Nat) (s : State) : (s.setVal x).org = s.org := rfl
@[simp] theorem State.setVal_stride (x : Nat) (s : State) : (s.setVal x).stride = s.stride := rfl
@[simp] theorem State.setVal_w (x : Nat) (s : State) : (s.setVal x).w = s.w := rfl
@[simp] theorem State.setVal_h (x : Nat) (s : State) : (s.setVal x).h = s.h := rfl
@[simp] theorem State.setVal_scale (x : Nat) (s : State) : (s.setVal x).scale = s.scale := rfl
@[simp] theorem State.setVal_run (x : Nat) (s : State) : (s.setVal x).run = s.run := rfl
@[simp] theorem State.setVal_ovf (x : Nat) (s : State) : (s.setVal x).ovf = s.ovf := rfl
@[simp] theorem State.setVal_fcode (x : Nat) (s : State) : (s.setVal x).fcode = s.fcode := rfl
@[simp] theorem State.setVal_fpc (x : Nat) (s : State) : (s.setVal x).fpc = s.fpc := rfl
@[simp] theorem State.setVal_val (x : Nat) (s : State) : (s.setVal x).val = BitVec.ofNat 32 x := rfl
@[simp] theorem State.setVal_wr (x : Nat) (s : State) : (s.setVal x).wr = s.wr := rfl
@[simp] theorem State.setVal_rd (x : Nat) (s : State) : (s.setVal x).rd = s.rd := rfl
@[simp] theorem State.setVal_draws (x : Nat) (s : State) : (s.setVal x).draws = s.draws := rfl

@[simp] theorem State.forgetReader_ib (s : State) : s.forgetReader.rd.ib = s.rd.ib := rfl

/-! ## What the host reads (`10_state.md` R28) -/

theorem State.wstate_toNat (s : State) : s.wstate.toNat = 256 * s.wr.wcnt.toNat + s.wr.wacc.toNat := by
  have := s.wr.wcnt.isLt
  simp only [State.wstate, BitVec.toNat_append, BitVec.toNat_ofNat, Nat.zero_mod, Nat.zero_shiftLeft, Nat.zero_or]
  rw [← Nat.shiftLeft_add_eq_or_of_lt s.wr.wacc.isLt, Nat.shiftLeft_eq]
  omega

theorem State.hostValue_reg (n : Nat) (s : State) :
    s.hostValue (.reg n) = (s.readReg n).map (fun v => (v.toNat : Int)) := rfl

end Sys2Proof.Machine
end

