-- ==== Sys2Proof/Laws/Region.lean ====
section
/-! SUPPORT. The region and its lines: addresses, the checks, what one lifting step and a pass over lines do to `CM`. -/

namespace Sys2Proof.Machine

/-! ## Addresses -/

/-- Rows do not overlap when `STRIDE ≥ W` (`20_memory.md` R53). -/
theorem State.blkAddr_inj (s : State) {n r c r' c' : Nat} (hn : n ≤ s.stride.toNat) (hc : c < n) (hc' : c' < n)
    (h : s.blkAddr r c = s.blkAddr r' c') : r = r' ∧ c = c' := by
  simp only [State.blkAddr] at h
  have hr : r = r' := by
    rcases Nat.lt_trichotomy r r' with hlt | heq | hlt
    · have := Nat.mul_le_mul_right s.stride.toNat (Nat.succ_le_of_lt hlt)
      rw [Nat.succ_mul] at this
      omega
    · exact heq
    · have := Nat.mul_le_mul_right s.stride.toNat (Nat.succ_le_of_lt hlt)
      rw [Nat.succ_mul] at this
      omega
  subst hr
  exact ⟨rfl, by omega⟩

theorem State.mem_rowLine (s : State) {n r a : Nat} : a ∈ s.rowLine n r ↔ ∃ c < n, s.blkAddr r c = a := by
  simp [State.rowLine]

theorem State.mem_colLine (s : State) {n c a : Nat} : a ∈ s.colLine n c ↔ ∃ r < n, s.blkAddr r c = a := by
  simp [State.colLine]

@[simp] theorem State.rowLine_length (s : State) (n r : Nat) : (s.rowLine n r).length = n := by simp [State.rowLine]

@[simp] theorem State.colLine_length (s : State) (n c : Nat) : (s.colLine n c).length = n := by simp [State.colLine]

theorem State.rowLine_nodup (s : State) {n r : Nat} : (s.rowLine n r).Nodup := by
  refine List.Nodup.map_on (fun c _ c' _ h => ?_) List.nodup_range
  simp only [State.blkAddr] at h
  omega

theorem State.colLine_nodup (s : State) {n m c : Nat} (hm : m ≤ s.stride.toNat) (hc : c < m) :
    (s.colLine n c).Nodup :=
  List.Nodup.map_on (fun _ _ _ _ h => (s.blkAddr_inj hm hc hc h).1) List.nodup_range

theorem State.rows_disjoint (s : State) {w h : Nat} (hw : w ≤ s.stride.toNat) :
    ((List.range h).map (s.rowLine w)).Pairwise List.Disjoint := by
  rw [List.pairwise_map]
  refine List.Pairwise.imp ?_ (List.pairwise_lt_range (n := h))
  intro r r' hlt a ha ha'
  obtain ⟨c, hc, rfl⟩ := s.mem_rowLine.1 ha
  obtain ⟨c', hc', e⟩ := s.mem_rowLine.1 ha'
  have := (s.blkAddr_inj hw hc' hc e).1
  omega

theorem State.cols_disjoint (s : State) {w h : Nat} (hw : w ≤ s.stride.toNat) :
    ((List.range w).map (s.colLine h)).Pairwise List.Disjoint := by
  rw [List.pairwise_map]
  refine List.Pairwise.imp_of_mem ?_ (List.pairwise_lt_range (n := w))
  intro c c' hc hc' hlt a ha ha'
  obtain ⟨r, -, rfl⟩ := s.mem_colLine.1 ha
  obtain ⟨r', -, e⟩ := s.mem_colLine.1 ha'
  have := (s.blkAddr_inj hw (List.mem_range.1 hc') (List.mem_range.1 hc) e).2
  omega

/-- Address `a` belongs to the `w × h` rectangle at `ORG`. -/
def State.InRect (s : State) (w h a : Nat) : Prop :=
  ∃ r < h, ∃ c < w, s.blkAddr r c = a

theorem State.inRect_rows (s : State) {w h a : Nat} :
    s.InRect w h a ↔ ∃ l ∈ (List.range h).map (s.rowLine w), a ∈ l := by
  simp [State.InRect, State.mem_rowLine]

theorem State.inRect_cols (s : State) {w h a : Nat} :
    s.InRect w h a ↔ ∃ l ∈ (List.range w).map (s.colLine h), a ∈ l := by
  simp only [State.InRect, List.mem_map, List.mem_range, exists_exists_and_eq_and, State.mem_colLine]
  constructor
  · rintro ⟨r, hr, c, hc, h⟩; exact ⟨c, hc, r, hr, h⟩
  · rintro ⟨c, hc, r, hr, h⟩; exact ⟨r, hr, c, hc, h⟩

theorem State.outsideRegion_iff (s : State) (a : Nat) : s.OutsideRegion a ↔ ¬ s.InRect s.w.toNat s.h.toNat a := by
  simp only [State.OutsideRegion, State.InRect, not_exists, not_and]
  exact ⟨fun h r hr c hc e => h r hr c hc e.symm, fun h r hr c hc e => h r hr c hc e.symm⟩

theorem State.InRect.mono {s : State} {w w' h h' a : Nat} (hw : w ≤ w') (hh : h ≤ h') (ha : s.InRect w h a) :
    s.InRect w' h' a := by
  obtain ⟨r, hr, c, hc, e⟩ := ha
  exact ⟨r, by omega, c, by omega, e⟩

/-- Every address of the region lies in `CM` when its last one does (`20_memory.md` R52, R53). -/
theorem State.InRect.lt {s : State} {a : Nat} (hf : s.RegionFits) (ha : s.InRect s.w.toNat s.h.toNat a) :
    a < s.cfg.cmWords := by
  obtain ⟨r, hr, c, hc, rfl⟩ := ha
  have h1 : r * s.stride.toNat ≤ (s.h.toNat - 1) * s.stride.toNat := Nat.mul_le_mul_right _ (by omega)
  have h2 := hf.2
  simp only [State.blkAddr]
  omega

/-! ## The checks -/

theorem State.regionFault_none (s : State) (b : Bool) : s.regionFault b = none ↔ b = true ∧ s.RegionFits := by
  simp only [State.regionFault, State.RegionFits]
  split
  · simp_all
  · split
    · simp; omega
    · split
      · simp; omega
      · simp_all

theorem State.regionFault_some {s : State} {b : Bool} {f : FaultCode} (h : s.regionFault b = some f) :
    f = .illegalConfig ∨ f = .addrRange := by
  simp only [State.regionFault] at h
  split at h
  · simp_all
  · split at h
    · simp_all
    · split at h <;> simp_all

theorem evenSide_iff (n : Nat) : evenSide n = true ↔ EvenSize n := by simp [evenSide]

theorem quadSide_iff (n : Nat) : quadSide n = true ↔ QuadSize n := by simp [quadSide]

theorem State.blockOk_iff (s : State) : s.blockOk = true ↔ s.BlockSide := by simp [State.blockOk]

theorem State.quantOk_iff (s : State) :
    s.quantOk = true ↔ s.BlockSide ∧ (s.cfg.qSmall = .refuse → 16 ≤ s.w.toNat) := by
  simp only [State.quantOk, State.blockOk_iff, Bool.decide_and, Bool.and_eq_true,
    decide_eq_true_eq, not_and, not_lt]

/-! ## One line, and lines one after another -/

/-- What lifting commands can do to `CM` and `OVF` within a set of addresses. -/
structure LiftState.Within (P : Nat → Prop) (a a' : LiftState) : Prop where
  other : ∀ b, ¬ P b → Memory.read a'.cm b = Memory.read a.cm b
  written : ∀ b, (Memory.read a.cm b).isSome → (Memory.read a'.cm b).isSome
  form : Memory.wf a.cm → Memory.wf a'.cm
  keys : ∀ e ∈ a'.cm, P e.1 ∨ e ∈ a.cm
  sticky : a.ovf = true → a'.ovf = true

theorem LiftState.Within.refl (P : Nat → Prop) (a : LiftState) : LiftState.Within P a a :=
  ⟨fun _ _ => rfl, fun _ h => h, id, fun _ h => .inr h, id⟩

theorem LiftState.Within.trans {P : Nat → Prop} {a b c : LiftState} (h : LiftState.Within P a b)
    (h' : LiftState.Within P b c) : LiftState.Within P a c where
  other x hx := (h'.other x hx).trans (h.other x hx)
  written x hx := h'.written x (h.written x hx)
  form := h'.form ∘ h.form
  keys e he := by
    rcases h'.keys e he with hp | he
    · exact .inl hp
    · exact h.keys e he
  sticky := h'.sticky ∘ h.sticky

theorem LiftState.Within.mono {P Q : Nat → Prop} {a b : LiftState} (h : LiftState.Within P a b)
    (hpq : ∀ x, P x → Q x) : LiftState.Within Q a b :=
  ⟨fun x hx => h.other x (fun hp => hx (hpq x hp)), h.written, h.form,
    fun e he => (h.keys e he).imp (hpq _) id, h.sticky⟩

theorem isSome_read_writeWords {w : Nat} {m : Memory w} {as : List Nat} {vs : List (BitVec w)} {b : Nat}
    (h : (Memory.read m b).isSome) : (Memory.read (writeWords m as vs) b).isSome := by
  induction as generalizing m vs with
  | nil => cases vs <;> exact h
  | cons a as ih =>
    cases vs with
    | nil => exact h
    | cons v vs =>
      apply ih
      rw [Memory.read_write]
      split
      · rfl
      · exact h

theorem writeWords_within {m : Memory 16} {as : List Nat} {vs : List Sample} {o o' : Bool} (ho : o = true → o' = true) :
    LiftState.Within (· ∈ as) ⟨m, o⟩ ⟨writeWords m as vs, o'⟩ :=
  ⟨fun _ hb => read_writeWords_other hb, fun _ h => isSome_read_writeWords h, fun h => writeWords_wf h as vs,
    fun _ he => mem_writeWords he, ho⟩

theorem liftLine_within {step : List Sample → LineResult} {as : List Nat} {a a' : LiftState}
    (h : liftLine step as a = some a') : LiftState.Within (· ∈ as) a a' := by
  simp only [liftLine] at h
  split at h
  · cases h
  · cases h
    exact writeWords_within (fun ho => by simp [stickyOvf, ho])

theorem liftLines_within {step : List Sample → LineResult} {ls : List (List Nat)} {a a' : LiftState}
    (h : liftLines step ls a = some a') : LiftState.Within (fun b => ∃ l ∈ ls, b ∈ l) a a' := by
  induction ls generalizing a with
  | nil => cases h; exact .refl _ _
  | cons l ls ih =>
    obtain ⟨b, h1, h2⟩ := Option.bind_eq_some_iff.1 h
    exact ((liftLine_within h1).mono (fun x hx => ⟨l, List.mem_cons_self, hx⟩)).trans
      ((ih h2).mono (fun x ⟨l', hl', hx⟩ => ⟨l', List.mem_cons_of_mem _ hl', hx⟩))

theorem liftLine_isSome {step : List Sample → LineResult} {as : List Nat} {a : LiftState} :
    (liftLine step as a).isSome ↔ ∀ b ∈ as, (Memory.read a.cm b).isSome := by
  rw [← readWords_isSome]
  simp only [liftLine]
  split <;> simp_all

theorem liftLines_none {step : List Sample → LineResult} {ls : List (List Nat)} {a : LiftState} {l : List Nat} {b : Nat}
    (hl : l ∈ ls) (hb : b ∈ l) (hn : Memory.read a.cm b = none) (hd : ls.Pairwise List.Disjoint) :
    liftLines step ls a = none := by
  induction ls generalizing a with
  | nil => cases hl
  | cons k ls ih =>
    obtain ⟨hk, hd⟩ := List.pairwise_cons.1 hd
    simp only [liftLines]
    cases h1 : liftLine step k a with
    | none => rfl
    | some a' =>
      rcases List.mem_cons.1 hl with rfl | hl
      · have := (liftLine_isSome (step := step) (as := l) (a := a)).1 (by rw [h1]; rfl) b hb
        simp [hn] at this
      · refine ih hl ?_ hd
        rw [(liftLine_within h1).other b (fun hbk => hk l hl hbk hb), hn]

/-- A pass over lines that do not meet: it succeeds when all their words are written; each line becomes the step's result
on what it held before the pass, every other word stays. -/
theorem liftLines_spec {step : List Sample → LineResult}
    (hstep : ∀ x : List Sample, x.length % 2 = 0 → (step x).out.length = x.length)
    {ls : List (List Nat)} (hn : ∀ l ∈ ls, l.Nodup) (he : ∀ l ∈ ls, l.length % 2 = 0) (hd : ls.Pairwise List.Disjoint)
    (a : LiftState) (hw : ∀ l ∈ ls, ∀ b ∈ l, (Memory.read a.cm b).isSome) :
    ∃ a', liftLines step ls a = some a' ∧
      ∀ l ∈ ls, ∀ x, readWords a.cm l = some x → readWords a'.cm l = some (step x).out := by
  induction ls generalizing a with
  | nil => exact ⟨a, rfl, fun l hl => absurd hl (List.not_mem_nil)⟩
  | cons k ls ih =>
    obtain ⟨hk, hd⟩ := List.pairwise_cons.1 hd
    obtain ⟨b, hb⟩ := Option.isSome_iff_exists.1
      ((liftLine_isSome (step := step) (a := a)).2 (hw k List.mem_cons_self))
    have hin := liftLine_within hb
    obtain ⟨a', ha', hres⟩ := ih (fun l hl => hn l (List.mem_cons_of_mem _ hl))
      (fun l hl => he l (List.mem_cons_of_mem _ hl)) hd b
      (fun l hl c hc => hin.written c (hw l (List.mem_cons_of_mem _ hl) c hc))
    refine ⟨a', by simp [liftLines, hb, ha'], fun l hl x hx => ?_⟩
    rcases List.mem_cons.1 hl with rfl | hl
    · have hxb : readWords b.cm l = some (step x).out := by
        simp only [liftLine, hx] at hb
        cases hb
        exact readWords_writeWords (hn l List.mem_cons_self)
          (by rw [hstep x (by rw [readWords_length hx]; exact he l List.mem_cons_self), readWords_length hx])
      rw [← hxb]
      refine readWords_congr (fun c hc => ?_)
      refine (liftLines_within ha').other c (fun ⟨l', hl', hc'⟩ => hk l' hl' hc hc')
    · refine hres l hl x ?_
      rw [← hx]
      exact readWords_congr (fun c hc => hin.other c (fun hck => hk l hl hck hc))

/-- A pass of inverse steps after a pass of forward steps over the same lines restores every word; it may start from any
memory that reads like the one the forward pass left. -/
theorem liftLines_undo {f g : List Sample → LineResult}
    (hf : ∀ x : List Sample, x.length % 2 = 0 → (f x).out.length = x.length)
    (hg : ∀ x : List Sample, x.length % 2 = 0 → (g x).out.length = x.length)
    (hu : ∀ x : List Sample, x.length % 2 = 0 → (g (f x).out).out = x)
    {ls : List (List Nat)} (hn : ∀ l ∈ ls, l.Nodup) (he : ∀ l ∈ ls, l.length % 2 = 0) (hd : ls.Pairwise List.Disjoint)
    {a b : LiftState} (hw : ∀ l ∈ ls, ∀ c ∈ l, (Memory.read a.cm c).isSome) (hb : liftLines f ls a = some b)
    (b' : LiftState) (hbb : ∀ c, Memory.read b'.cm c = Memory.read b.cm c) :
    ∃ e, liftLines g ls b' = some e ∧ ∀ c, Memory.read e.cm c = Memory.read a.cm c := by
  obtain ⟨b1, e1, hres⟩ := liftLines_spec hf hn he hd a hw
  rw [hb] at e1
  cases e1
  have hin := liftLines_within hb
  obtain ⟨e, he', hres'⟩ := liftLines_spec hg hn he hd b' (fun l hl c hc => by
    rw [hbb]; exact hin.written c (hw l hl c hc))
  refine ⟨e, he', fun c => ?_⟩
  by_cases hc : ∃ l ∈ ls, c ∈ l
  · obtain ⟨l, hl, hcl⟩ := hc
    obtain ⟨x, hx⟩ := Option.isSome_iff_exists.1 (readWords_isSome.2 (hw l hl))
    have hlen : x.length % 2 = 0 := by rw [readWords_length hx]; exact he l hl
    have h1 : readWords b'.cm l = some (f x).out := by
      rw [readWords_congr (fun c _ => hbb c)]
      exact hres l hl x hx
    have h2 := hres' l hl _ h1
    rw [hu x hlen, ← hx] at h2
    have h3 : l.map (Memory.read e.cm) = l.map (Memory.read a.cm) := by
      rw [readWords_eq_some.1 (h2.trans hx), readWords_eq_some.1 hx]
    exact List.map_inj_left.1 h3 c hcl
  · rw [(liftLines_within he').other c hc, hbb, hin.other c hc]

end Sys2Proof.Machine
end

