-- ==== Sys2Proof/Laws/Plane.lean ====
section
/-! SUPPORT. The 2D passes and the blocks: what `Fwd2D` and `Inv2D` change, when they succeed, that they undo each other;
the cells of a block and the scan orders. -/

namespace Sys2Proof.Machine

/-! ## Passes -/

theorem fwd2D_within {s : State} {w h : Nat} {a a' : LiftState} (e : fwd2D s w h a = some a') :
    LiftState.Within (s.InRect w h) a a' := by
  obtain ⟨b, h1, h2⟩ := Option.bind_eq_some_iff.1 e
  exact ((liftLines_within h1).mono (fun _ hx => s.inRect_rows.2 hx)).trans
    ((liftLines_within h2).mono (fun _ hx => s.inRect_cols.2 hx))

theorem inv2D_within {s : State} {w h : Nat} {a a' : LiftState} (e : inv2D s w h a = some a') :
    LiftState.Within (s.InRect w h) a a' := by
  obtain ⟨b, h1, h2⟩ := Option.bind_eq_some_iff.1 e
  exact ((liftLines_within h1).mono (fun _ hx => s.inRect_cols.2 hx)).trans
    ((liftLines_within h2).mono (fun _ hx => s.inRect_rows.2 hx))

/-- What the line lemmas ask of the rows of a rectangle. -/
theorem State.rows_ok (s : State) {w h : Nat} (he : w % 2 = 0) :
    (∀ l ∈ (List.range h).map (s.rowLine w), l.Nodup) ∧ ∀ l ∈ (List.range h).map (s.rowLine w), l.length % 2 = 0 := by
  constructor <;> simp [State.rowLine_nodup, he]

/-- What the line lemmas ask of the columns of a rectangle. -/
theorem State.cols_ok (s : State) {w h : Nat} (hw : w ≤ s.stride.toNat) (he : h % 2 = 0) :
    (∀ l ∈ (List.range w).map (s.colLine h), l.Nodup) ∧ ∀ l ∈ (List.range w).map (s.colLine h), l.length % 2 = 0 := by
  constructor
  · intro l hl
    obtain ⟨c, hc, rfl⟩ := List.mem_map.1 hl
    exact s.colLine_nodup hw (List.mem_range.1 hc)
  · simp [he]

/-- Every word of the rectangle has been written. -/
def LiftState.RectWritten (s : State) (w h : Nat) (a : LiftState) : Prop :=
  ∀ b, s.InRect w h b → (Memory.read a.cm b).isSome

theorem LiftState.RectWritten.after {s : State} {w h : Nat} {P : Nat → Prop} {a a' : LiftState}
    (hr : LiftState.RectWritten s w h a) (hp : LiftState.Within P a a') : LiftState.RectWritten s w h a' :=
  fun b hb => hp.written b (hr b hb)

theorem State.regionWritten_iff (s : State) (o : Bool) :
    s.RegionWritten ↔ LiftState.RectWritten s s.w.toNat s.h.toNat ⟨s.cm, o⟩ := by
  constructor
  · rintro h b ⟨r, hr, c, hc, rfl⟩; exact h r hr c hc
  · intro h r hr c hc; exact h _ ⟨r, hr, c, hc, rfl⟩

theorem rows_pass (s : State) {w h : Nat} {f : List Sample → LineResult}
    (hf : ∀ x : List Sample, x.length % 2 = 0 → (f x).out.length = x.length) (hw : w ≤ s.stride.toNat)
    (he : w % 2 = 0) {a : LiftState} (ha : LiftState.RectWritten s w h a) :
    ∃ b, liftLines f ((List.range h).map (s.rowLine w)) a = some b := by
  obtain ⟨b, hb, -⟩ := liftLines_spec hf (s.rows_ok he).1 (s.rows_ok he).2 (s.rows_disjoint hw) a
    (fun l hl c hc => ha c (s.inRect_rows.2 ⟨l, hl, hc⟩))
  exact ⟨b, hb⟩

theorem cols_pass (s : State) {w h : Nat} {f : List Sample → LineResult}
    (hf : ∀ x : List Sample, x.length % 2 = 0 → (f x).out.length = x.length) (hw : w ≤ s.stride.toNat)
    (he : h % 2 = 0) {a : LiftState} (ha : LiftState.RectWritten s w h a) :
    ∃ b, liftLines f ((List.range w).map (s.colLine h)) a = some b := by
  obtain ⟨b, hb, -⟩ := liftLines_spec hf (s.cols_ok hw he).1 (s.cols_ok hw he).2 (s.cols_disjoint hw) a
    (fun l hl c hc => ha c (s.inRect_cols.2 ⟨l, hl, hc⟩))
  exact ⟨b, hb⟩

theorem fwd2D_isSome (s : State) {w h : Nat} (hw : w ≤ s.stride.toNat) (hwe : w % 2 = 0) (hhe : h % 2 = 0)
    {a : LiftState} (ha : LiftState.RectWritten s w h a) : ∃ b, fwd2D s w h a = some b := by
  obtain ⟨b, hb⟩ := rows_pass s (w := w) (h := h) (f := fLift s.cfg.liftWidth) (fun x hx => fLift_length s.cfg.liftWidth hx) hw hwe ha
  obtain ⟨c, hc⟩ := cols_pass s (w := w) (h := h) (f := fLift s.cfg.liftWidth) (fun x hx => fLift_length s.cfg.liftWidth hx) hw hhe (ha.after (liftLines_within hb))
  exact ⟨c, by simp [fwd2D, hb, hc]⟩

theorem inv2D_isSome (s : State) {w h : Nat} (hw : w ≤ s.stride.toNat) (hwe : w % 2 = 0) (hhe : h % 2 = 0)
    {a : LiftState} (ha : LiftState.RectWritten s w h a) : ∃ b, inv2D s w h a = some b := by
  obtain ⟨b, hb⟩ := cols_pass s (w := w) (h := h) (f := iLift s.cfg.liftWidth) (fun x hx => iLift_length s.cfg.liftWidth hx) hw hhe ha
  obtain ⟨c, hc⟩ := rows_pass s (w := w) (h := h) (f := iLift s.cfg.liftWidth) (fun x hx => iLift_length s.cfg.liftWidth hx) hw hwe (ha.after (liftLines_within hb))
  exact ⟨c, by simp [inv2D, hb, hc]⟩

/-- `Inv2D` after `Fwd2D` on the same rectangle restores every word (`40_dwt.md` R118), given that the inverse step
undoes the forward step on one line (R106). -/
theorem inv2D_fwd2D (s : State) {w h : Nat} (hw : w ≤ s.stride.toNat) (hwe : w % 2 = 0) (hhe : h % 2 = 0)
    (hu : ∀ x : List Sample, x.length % 2 = 0 → (iLift s.cfg.liftWidth (fLift s.cfg.liftWidth x).out).out = x)
    {a b : LiftState} (ha : LiftState.RectWritten s w h a) (hb : fwd2D s w h a = some b) (b' : LiftState)
    (hbb : ∀ c, Memory.read b'.cm c = Memory.read b.cm c) :
    ∃ e, inv2D s w h b' = some e ∧ ∀ c, Memory.read e.cm c = Memory.read a.cm c := by
  obtain ⟨m, h1, h2⟩ := Option.bind_eq_some_iff.1 hb
  have hf : ∀ x : List Sample, x.length % 2 = 0 → (fLift s.cfg.liftWidth x).out.length = x.length :=
    fun x hx => fLift_length _ hx
  have hi : ∀ x : List Sample, x.length % 2 = 0 → (iLift s.cfg.liftWidth x).out.length = x.length :=
    fun x hx => iLift_length _ hx
  have hm := ha.after (liftLines_within h1)
  obtain ⟨d, hd, hdr⟩ := liftLines_undo hf hi hu (s.cols_ok hw hhe).1 (s.cols_ok hw hhe).2 (s.cols_disjoint hw)
    (fun l hl c hc => hm c (s.inRect_cols.2 ⟨l, hl, hc⟩)) h2 b' hbb
  obtain ⟨e, he, her⟩ := liftLines_undo hf hi hu (s.rows_ok hwe).1 (s.rows_ok hwe).2 (s.rows_disjoint hw)
    (fun l hl c hc => ha c (s.inRect_rows.2 ⟨l, hl, hc⟩)) h1 d hdr
  exact ⟨e, by simp [inv2D, hd, he], her⟩

/-! ## Cells and scan orders -/

theorem mem_blockCells {n r c : Nat} : (r, c) ∈ blockCells n ↔ r < n ∧ c < n := by
  simp only [blockCells, List.mem_flatMap, List.mem_range, List.mem_map, Prod.mk.injEq]
  constructor
  · rintro ⟨r', hr, c', hc, rfl, rfl⟩; exact ⟨hr, hc⟩
  · rintro ⟨hr, hc⟩; exact ⟨r, hr, c, hc, rfl, rfl⟩

theorem blockCells_nodup (n : Nat) : (blockCells n).Nodup := by
  refine List.nodup_flatMap.2 ⟨fun r _ => ?_, ?_⟩
  · exact List.nodup_range.map_on (fun c _ c' _ h => (Prod.mk.inj h).2)
  · refine List.Pairwise.imp ?_ (List.pairwise_lt_range (n := n))
    intro r r' hlt p hp hp'
    obtain ⟨c, -, rfl⟩ := List.mem_map.1 hp
    obtain ⟨c', -, e⟩ := List.mem_map.1 hp'
    have := (Prod.mk.inj e).1
    omega

theorem blockCells_length (n : Nat) : (blockCells n).length = n * n := by
  simp [blockCells, List.length_flatMap]

/-- Row by row is a scan order. -/
theorem isScan_blockCells (n : Nat) : IsScan n (blockCells n) :=
  ⟨blockCells_nodup n, fun ⟨_, _⟩ hp => mem_blockCells.1 hp, fun _ hr _ hc => mem_blockCells.2 ⟨hr, hc⟩⟩

theorem IsScan.length {n : Nat} {ps : List (Nat × Nat)} (h : IsScan n ps) : ps.length = n * n := by
  rw [← blockCells_length n]
  refine ((List.perm_ext_iff_of_nodup h.1 (blockCells_nodup n)).2 ?_).length_eq
  rintro ⟨r, c⟩
  rw [mem_blockCells]
  exact ⟨fun hp => h.2.1 _ hp, fun ⟨hr, hc⟩ => h.2.2 r hr c hc⟩

theorem State.cellAddrs_nodup (s : State) {n : Nat} {ps : List (Nat × Nat)} (hn : n ≤ s.stride.toNat)
    (h : IsScan n ps) : (s.cellAddrs ps).Nodup := by
  refine h.1.map_on ?_
  rintro ⟨r, c⟩ hp ⟨r', c'⟩ hp' e
  obtain ⟨rfl, rfl⟩ := s.blkAddr_inj hn (h.2.1 _ hp).2 (h.2.1 _ hp').2 e
  rfl

theorem State.mem_cellAddrs (s : State) {n a : Nat} {ps : List (Nat × Nat)} (h : IsScan n ps) :
    a ∈ s.cellAddrs ps ↔ s.InRect n n a := by
  simp only [State.cellAddrs, List.mem_map, State.InRect]
  constructor
  · rintro ⟨p, hp, rfl⟩; exact ⟨p.1, (h.2.1 p hp).1, p.2, (h.2.1 p hp).2, rfl⟩
  · rintro ⟨r, hr, c, hc, rfl⟩; exact ⟨(r, c), h.2.2 r hr c hc, rfl⟩

@[simp] theorem State.cellAddrs_length (s : State) (ps : List (Nat × Nat)) : (s.cellAddrs ps).length = ps.length := by
  simp [State.cellAddrs]

/-! ## The default order (`42_zigzag.md` R148) -/

theorem mem_diagonalRows {n d r : Nat} (hn : 1 ≤ n) : r ∈ diagonalRows n d ↔ r < n ∧ r ≤ d ∧ d - r < n := by
  have key : r ∈ List.range' (d + 1 - n) (min d (n - 1) + 1 - (d + 1 - n)) ↔ r < n ∧ r ≤ d ∧ d - r < n := by
    rw [List.mem_range'_1]
    omega
  simp only [diagonalRows]
  split
  · exact key
  · rw [List.mem_reverse]; exact key

theorem mem_diagonalScan {n r c : Nat} (hn : 1 ≤ n) : (r, c) ∈ diagonalScan n ↔ r < n ∧ c < n := by
  simp only [diagonalScan, List.mem_flatMap, List.mem_range, List.mem_map, mem_diagonalRows hn, Prod.mk.injEq]
  constructor
  · rintro ⟨d, hd, r', ⟨h1, h2, h3⟩, rfl, rfl⟩; exact ⟨h1, h3⟩
  · rintro ⟨hr, hc⟩; exact ⟨r + c, by omega, r, ⟨hr, by omega, by omega⟩, rfl, by omega⟩

theorem diagonalRows_nodup (n d : Nat) : (diagonalRows n d).Nodup := by
  simp only [diagonalRows]
  split
  · exact List.nodup_range'
  · exact List.nodup_reverse.2 List.nodup_range'

theorem isScan_diagonalScan {n : Nat} (hn : 1 ≤ n) : IsScan n (diagonalScan n) := by
  refine ⟨?_, fun ⟨r, c⟩ hp => (mem_diagonalScan hn).1 hp, fun r hr c hc => (mem_diagonalScan hn).2 ⟨hr, hc⟩⟩
  refine List.nodup_flatMap.2 ⟨fun d _ => ?_, ?_⟩
  · exact (diagonalRows_nodup n d).map_on (fun r _ r' _ h => (Prod.mk.inj h).1)
  · refine List.Pairwise.imp ?_ (List.pairwise_lt_range (n := 2 * n - 1))
    intro d d' hlt p hp hp'
    obtain ⟨r, hr, rfl⟩ := List.mem_map.1 hp
    obtain ⟨r', hr', e⟩ := List.mem_map.1 hp'
    have h1 := (mem_diagonalRows hn).1 hr
    have h2 := (mem_diagonalRows hn).1 hr'
    have e1 := (Prod.mk.inj e).1
    have e2 := (Prod.mk.inj e).2
    omega

end Sys2Proof.Machine
end

