-- ==== Sys2Proof/Laws/Streams.lean ====
section
/-! SUPPORT. The bit writer and the bit reader as bit strings: what each primitive appends or takes, when it raises its
fault, and that it keeps the writer and the reader legal. -/

namespace Sys2Proof.Machine

/-! ## Bit strings -/

@[simp] theorem msbBits_length (n v : Nat) : (msbBits n v).length = n := by
  induction n with
  | zero => rfl
  | succ n ih => simp [msbBits, ih]

theorem msbBits_getElem? (n v i : Nat) : (msbBits n v)[i]? = if i < n then some (v.testBit (n - 1 - i)) else none := by
  induction n generalizing i with
  | zero => simp [msbBits]
  | succ n ih =>
    cases i with
    | zero => simp [msbBits]
    | succ i =>
      simp only [msbBits, List.getElem?_cons_succ, ih, Nat.add_lt_add_iff_right]
      congr 3
      omega

@[simp] theorem byteBits_nil : byteBits [] = [] := rfl

@[simp] theorem byteBits_cons (x : Byte) (xs : List Byte) : byteBits (x :: xs) = msbBits 8 x.toNat ++ byteBits xs := rfl

@[simp] theorem byteBits_append (xs ys : List Byte) : byteBits (xs ++ ys) = byteBits xs ++ byteBits ys := by
  simp [byteBits]

@[simp] theorem byteBits_length (xs : List Byte) : (byteBits xs).length = 8 * xs.length := by
  induction xs with
  | nil => rfl
  | cons x xs ih => simp [ih]; omega

/-- Bit `8p + q` of a byte string is bit `7 − q` of byte `p` (`43_bitstream.md` R160). -/
theorem byteBits_getElem? (xs : List Byte) (p q : Nat) (hq : q < 8) :
    (byteBits xs)[8 * p + q]? = xs[p]?.map (fun x => x.getLsbD (7 - q)) := by
  induction xs generalizing p with
  | nil => simp
  | cons x xs ih =>
    cases p with
    | zero =>
      simp only [byteBits_cons, Nat.mul_zero, Nat.zero_add]
      rw [List.getElem?_append_left (by simpa using hq), msbBits_getElem?, if_pos hq]
      simp [BitVec.getLsbD]
    | succ p =>
      simp only [byteBits_cons, List.getElem?_cons_succ]
      rw [List.getElem?_append_right (by simp; omega)]
      have : 8 * (p + 1) + q - (msbBits 8 x.toNat).length = 8 * p + q := by simp; omega
      rw [this, ih]

theorem bitsValue_foldl (bs : List Bool) (v : Nat) :
    bs.foldl (fun v b => 2 * v + b.toNat) v = v * 2 ^ bs.length + bitsValue bs := by
  induction bs generalizing v with
  | nil => simp [bitsValue]
  | cons b bs ih =>
    simp only [List.foldl_cons, bitsValue, List.length_cons]
    rw [ih, ih (2 * 0 + b.toNat)]
    ring

theorem bitsValue_cons (b : Bool) (bs : List Bool) :
    bitsValue (b :: bs) = b.toNat * 2 ^ bs.length + bitsValue bs := by
  simp only [bitsValue, List.foldl_cons]
  rw [bitsValue_foldl]
  simp [bitsValue]

/-- The value of the `n` low bits of `v` is `v` modulo `2^n`. -/
theorem bitsValue_msbBits (n v : Nat) : bitsValue (msbBits n v) = v % 2 ^ n := by
  induction n with
  | zero => simp [msbBits, bitsValue, Nat.mod_one]
  | succ n ih =>
    rw [msbBits, bitsValue_cons, ih, msbBits_length, Nat.mod_pow_succ, Nat.toNat_testBit]
    ring

theorem bitsValue_lt (bs : List Bool) : bitsValue bs < 2 ^ bs.length := by
  induction bs with
  | nil => simp [bitsValue]
  | cons b bs ih =>
    rw [bitsValue_cons, List.length_cons, Nat.pow_succ]
    cases b <;> simp <;> omega

/-! ## The writer -/

/-- A list of bits written one after another. -/
def Writer.putList (cap : Nat) : List Bool → Writer → Option Writer
  | [], w => some w
  | b :: bs, w => (Writer.putBit cap b w).bind (Writer.putList cap bs)

theorem Writer.putList_append (cap : Nat) (as bs : List Bool) (w : Writer) :
    Writer.putList cap (as ++ bs) w = (Writer.putList cap as w).bind (Writer.putList cap bs) := by
  induction as generalizing w with
  | nil => rfl
  | cons a as ih =>
    simp only [List.cons_append, putList]
    cases Writer.putBit cap a w <;> simp [ih]

theorem Writer.putBits_eq_putList (cap v n : Nat) (w : Writer) :
    Writer.putBits cap v n w = Writer.putList cap (msbBits n v) w := by
  induction n generalizing w with
  | zero => rfl
  | succ n ih =>
    simp only [putBits, msbBits, putList]
    cases Writer.putBit cap (v.testBit n) w <;> simp [ih]

theorem Writer.putOnes_eq_putList (cap n : Nat) (w : Writer) :
    Writer.putOnes cap n w = Writer.putList cap (List.replicate n true) w := by
  induction n generalizing w with
  | zero => rfl
  | succ n ih =>
    simp only [putOnes, List.replicate_succ, putList]
    cases Writer.putBit cap true w <;> simp [ih]

theorem riceEnc_eq_putList (cap v k : Nat) (w : Writer) :
    riceEnc cap v k w = Writer.putList cap (riceCode k v) w := by
  simp only [riceEnc, riceCode, Writer.putOnes_eq_putList, Writer.putList_append, Option.bind_assoc]
  congr 1
  funext w'
  simp only [Writer.putList]
  congr 1
  funext w''
  exact Writer.putBits_eq_putList _ _ _ _

theorem putPair_eq_putList (cap len : Nat) (v : Sample) (w : Writer) :
    putPair cap len v w = Writer.putList cap (riceCode 1 len ++ riceCode 15 v.toNat) w := by
  rw [Writer.putList_append, putPair, riceEnc_eq_putList]
  congr 1
  funext w'
  exact riceEnc_eq_putList _ _ _ _

/-! ## The run-length encoder's loop, in terms of the pairs of what it has read (`44_entropy.md` R188) -/

/-- The length and value of the run in which a sequence that continues `len` times `v` ends. -/
def lastRun (v : Sample) : Nat → List Sample → Nat × Sample
  | len, [] => (len, v)
  | len, x :: xs => if x = v ∧ len < rleMaxRun then lastRun v (len + 1) xs else lastRun x 1 xs

theorem runsFrom_ne_nil (v : Sample) (len : Nat) (xs : List Sample) : runsFrom v len xs ≠ [] := by
  induction xs generalizing v len with
  | nil => simp [runsFrom]
  | cons x xs ih =>
    simp only [runsFrom]
    split
    · exact ih _ _
    · simp

theorem dropLast_runsFrom (v : Sample) (len : Nat) (xs : List Sample) :
    (runsFrom v len xs).dropLast ++ [lastRun v len xs] = runsFrom v len xs := by
  induction xs generalizing v len with
  | nil => rfl
  | cons x xs ih =>
    simp only [runsFrom, lastRun]
    split
    · exact ih _ _
    · rw [List.dropLast_cons_of_ne_nil (runsFrom_ne_nil _ _ _), List.cons_append, ih]

/-- The loop on written words, with more words after them: it writes the pairs that have ended, then goes on with the
last run. -/
theorem rleEncFrom_written {cap : Nat} {sq : Memory 16} {v : Sample} {len : Nat} {as bs : List Nat} {xs : List Sample}
    {w : Writer} (h : readWords sq as = some xs) :
    rleEncFrom cap sq v len (as ++ bs) w =
      match Writer.putList cap (pairsCode (runsFrom v len xs).dropLast) w with
      | none => some none
      | some w' => rleEncFrom cap sq (lastRun v len xs).2 (lastRun v len xs).1 bs w' := by
  induction as generalizing v len xs w with
  | nil => cases h; rfl
  | cons a as ih =>
    simp only [readWords] at h
    split at h
    · rename_i x ys hx hys
      cases h
      simp only [List.cons_append, rleEncFrom, hx, runsFrom, lastRun]
      split
      · exact ih hys
      · rw [List.dropLast_cons_of_ne_nil (runsFrom_ne_nil _ _ _), putPair_eq_putList]
        have e : pairsCode ((len, v) :: (runsFrom x 1 ys).dropLast) =
            (riceCode 1 len ++ riceCode 15 v.toNat) ++ pairsCode (runsFrom x 1 ys).dropLast := rfl
        rw [e, Writer.putList_append cap (riceCode 1 len ++ riceCode 15 v.toNat) (pairsCode _)]
        cases Writer.putList cap (riceCode 1 len ++ riceCode 15 v.toNat) w with
        | none => rfl
        | some w' => exact ih hys
    · cases h

/-- On written words the encoder writes the code of their pairs. -/
theorem rleEnc_complete {cap : Nat} {sq : Memory 16} {as : List Nat} {xs : List Sample} {w : Writer}
    (h : readWords sq as = some xs) : rleEnc cap sq as w = some (Writer.putList cap (pairsCode (runs xs)) w) := by
  cases as with
  | nil => cases h; rfl
  | cons a as =>
    simp only [readWords] at h
    split at h
    · rename_i x ys hx hys
      cases h
      have := rleEncFrom_written (cap := cap) (v := x) (len := 1) (bs := []) (w := w) hys
      simp only [rleEnc, hx, runs]
      rw [List.append_nil] at this
      rw [this, ← dropLast_runsFrom x 1 ys]
      have e : ∀ ps p, pairsCode (ps ++ [p]) = pairsCode ps ++ (riceCode 1 p.1 ++ riceCode 15 p.2.toNat) := by
        intro ps p; simp [pairsCode]
      rw [e, Writer.putList_append, List.dropLast_concat]
      cases Writer.putList cap (pairsCode (runsFrom x 1 ys).dropLast) w with
      | none => rfl
      | some w' => simp only [rleEncFrom, putPair_eq_putList, Option.bind_some]
    · cases h

/-- What the encoder does once it has written the pairs that end within the words read first: it faults if they found no
room, and else goes on to the next word, which must be written. -/
theorem rleEnc_prefix {cap : Nat} {sq : Memory 16} {as : List Nat} {b : Nat} {bs : List Nat} {xs : List Sample}
    {w : Writer} (h : readWords sq as = some xs) :
    (Writer.putList cap (pairsCode (runs xs).dropLast) w = none → rleEnc cap sq (as ++ b :: bs) w = some none) ∧
    ((Writer.putList cap (pairsCode (runs xs).dropLast) w).isSome → Memory.read sq b = none →
      rleEnc cap sq (as ++ b :: bs) w = none) := by
  cases as with
  | nil =>
    cases h
    refine ⟨fun h => (by cases h), fun _ hb => ?_⟩
    simp only [List.nil_append, rleEnc, hb]
  | cons a as =>
    simp only [readWords] at h
    split at h
    · rename_i x ys hx hys
      cases h
      simp only [List.cons_append, rleEnc, hx, runs, rleEncFrom_written hys]
      cases Writer.putList cap (pairsCode (runsFrom x 1 ys).dropLast) w with
      | none => exact ⟨fun _ => rfl, fun h => (by cases h)⟩
      | some w' => exact ⟨fun h => (by cases h), fun _ hb => by simp only [rleEncFrom, hb]⟩
    · cases h

/-- A pending bit goes below the pending ones: the eight positions, checked one by one. -/
theorem putBit_accumulator :
    ∀ (cnt : BitVec 3) (acc : BitVec 8) (b : Bool), acc.toNat % 2 ^ (8 - cnt.toNat) = 0 →
      let acc' := acc + BitVec.ofNat 8 (b.toNat * 2 ^ (7 - cnt.toNat))
      acc'.toNat = acc.toNat + b.toNat * 2 ^ (7 - cnt.toNat) ∧
      (msbBits 8 acc'.toNat).take (cnt.toNat + 1) = (msbBits 8 acc.toNat).take cnt.toNat ++ [b] := by
  intro cnt acc b h
  have key : ∀ (cnt : Fin 8) (acc : Fin 256) (b : Bool), acc.val % 2 ^ (8 - cnt.val) = 0 →
      acc.val + b.toNat * 2 ^ (7 - cnt.val) < 256 ∧
      (msbBits 8 (acc.val + b.toNat * 2 ^ (7 - cnt.val))).take (cnt.val + 1) =
        (msbBits 8 acc.val).take cnt.val ++ [b] := by
    decide +kernel
  obtain ⟨h1, h2⟩ := key ⟨cnt.toNat, cnt.isLt⟩ ⟨acc.toNat, acc.isLt⟩ b h
  simp only at h1 h2
  have h3 : (acc + BitVec.ofNat 8 (b.toNat * 2 ^ (7 - cnt.toNat))).toNat =
      acc.toNat + b.toNat * 2 ^ (7 - cnt.toNat) := by
    rw [BitVec.toNat_add, BitVec.toNat_ofNat]
    omega
  exact ⟨h3, h3 ▸ h2⟩

theorem three_bits_lt (c : BitVec 3) : c.toNat < 8 := c.isLt

/-- `PutBit`: what it appends; it raises `OutFull` exactly when it completes a byte and `OB` is full (R156, R159). -/
theorem Writer.putBit_spec (cap : Nat) (b : Bool) (w : Writer) (hl : w.Legal) :
    (w.wcnt = 7 ∧ w.ob.length = cap → Writer.putBit cap b w = none) ∧
    (¬(w.wcnt = 7 ∧ w.ob.length = cap) → ∃ w', Writer.putBit cap b w = some w' ∧ w'.Legal ∧
      w'.bits = w.bits ++ [b] ∧ w.ob <+: w'.ob ∧
      8 * w'.ob.length + w'.wcnt.toNat = 8 * w.ob.length + w.wcnt.toNat + 1) := by
  have hacc := putBit_accumulator w.wcnt w.wacc b hl
  simp only at hacc
  obtain ⟨h1, h2⟩ := hacc
  constructor
  · rintro ⟨h7, hc⟩
    simp [putBit, appendByte, h7, hc]
  · intro hn
    by_cases h7 : w.wcnt = 7
    · have hc : ¬ w.ob.length = cap := fun h => hn ⟨h7, h⟩
      have h7' : w.wcnt.toNat = 7 := by rw [h7]; rfl
      refine ⟨{ ob := w.ob ++ [w.wacc + BitVec.ofNat 8 (b.toNat * 2 ^ (7 - w.wcnt.toNat))], wacc := 0, wcnt := 0 },
        by simp only [putBit, if_pos h7, appendByte, if_neg hc], ?_, ?_, ?_, ?_⟩
      · simp [Writer.Legal]
      · rw [h7'] at h2
        simp only [Writer.bits, byteBits_append, byteBits_cons, byteBits_nil, List.append_nil, h7', List.append_assoc]
        rw [← h2]
        generalize w.wacc + BitVec.ofNat 8 (b.toNat * 2 ^ (7 - 7)) = acc
        rw [List.take_of_length_le (l := msbBits 8 acc.toNat) (by simp)]
        simp
      · exact List.prefix_append _ _
      · simp [h7']; omega
    · have h7' : w.wcnt.toNat ≠ 7 := fun h => h7 (by apply BitVec.eq_of_toNat_eq; rw [h]; rfl)
      have hlt := three_bits_lt w.wcnt
      have hs : (w.wcnt + 1).toNat = w.wcnt.toNat + 1 := by
        rw [BitVec.toNat_add]
        show (w.wcnt.toNat + 1) % 8 = _
        omega
      refine ⟨{ w with wacc := w.wacc + BitVec.ofNat 8 (b.toNat * 2 ^ (7 - w.wcnt.toNat)), wcnt := w.wcnt + 1 },
        by simp only [putBit, if_neg h7], ?_, ?_, List.prefix_refl _, ?_⟩
      · simp only [Writer.Legal, hs, h1] at hl ⊢
        have e1 : 8 - w.wcnt.toNat = (8 - (w.wcnt.toNat + 1)) + 1 := by omega
        have e2 : 7 - w.wcnt.toNat = 8 - (w.wcnt.toNat + 1) := by omega
        rw [e1] at hl
        rw [e2]
        have d1 : 2 ^ (8 - (w.wcnt.toNat + 1)) ∣ w.wacc.toNat :=
          dvd_trans (pow_dvd_pow 2 (by omega)) (Nat.dvd_of_mod_eq_zero hl)
        exact Nat.mod_eq_zero_of_dvd (Nat.dvd_add d1 (Dvd.intro_left _ rfl))
      · simp only [Writer.bits, hs, List.append_assoc, h2]
      · simp only [hs]; omega

/-- A list of bits: with room, they are appended; without, `OutFull` is raised (R159). -/
theorem Writer.putList_spec (cap : Nat) (bs : List Bool) (w : Writer) (hl : w.Legal) (hc : w.ob.length ≤ cap) :
    (w.HasRoom cap bs.length → ∃ w', Writer.putList cap bs w = some w' ∧ w'.Legal ∧ w'.bits = w.bits ++ bs) ∧
    (¬ w.HasRoom cap bs.length → Writer.putList cap bs w = none) := by
  induction bs generalizing w with
  | nil =>
    refine ⟨fun _ => ⟨w, rfl, hl, by simp⟩, fun h => absurd ?_ h⟩
    have := three_bits_lt w.wcnt
    simp only [Writer.HasRoom, List.length_nil, Nat.add_zero]
    omega
  | cons b bs ih =>
    obtain ⟨hfull, hgo⟩ := Writer.putBit_spec cap b w hl
    have hlt := three_bits_lt w.wcnt
    by_cases h : w.wcnt = 7 ∧ w.ob.length = cap
    · have h7 : w.wcnt.toNat = 7 := by rw [h.1]; rfl
      refine ⟨fun hr => ?_, fun _ => by simp [putList, hfull h]⟩
      simp only [Writer.HasRoom, List.length_cons] at hr
      omega
    · obtain ⟨w', hw', hl', hb', -, hcount⟩ := hgo h
      have hlt' := three_bits_lt w'.wcnt
      have hc' : w'.ob.length ≤ cap := by
        by_cases h7 : w.wcnt = 7
        · have : w.ob.length ≠ cap := fun hh => h ⟨h7, hh⟩
          omega
        · have : w.wcnt.toNat ≠ 7 := fun hh => h7 (by apply BitVec.eq_of_toNat_eq; rw [hh]; rfl)
          omega
      have hroom : w'.HasRoom cap bs.length ↔ w.HasRoom cap (b :: bs).length := by
        simp only [Writer.HasRoom, List.length_cons]
        omega
      obtain ⟨h1, h2⟩ := ih w' hl' hc'
      simp only [putList, hw', Option.bind_some, ← hroom]
      refine ⟨fun hr => ?_, h2⟩
      obtain ⟨w'', e, hl'', hb''⟩ := h1 hr
      exact ⟨w'', e, hl'', by rw [hb'', hb', List.append_assoc]; rfl⟩

/-- What every writer primitive does to the buffer: it grows, within its capacity, and the writer stays legal. -/
structure Writer.Grows (cap : Nat) (w w' : Writer) : Prop where
  prefixed : w.ob <+: w'.ob
  capacity : w.ob.length ≤ cap → w'.ob.length ≤ cap
  legal : w.Legal → w'.Legal

theorem Writer.Grows.refl (cap : Nat) (w : Writer) : Writer.Grows cap w w :=
  ⟨List.prefix_refl _, id, id⟩

theorem Writer.Grows.trans {cap : Nat} {w w' w'' : Writer} (h : Writer.Grows cap w w') (h' : Writer.Grows cap w' w'') :
    Writer.Grows cap w w'' :=
  ⟨h.prefixed.trans h'.prefixed, h'.capacity ∘ h.capacity, h'.legal ∘ h.legal⟩

theorem Writer.appendByte_eq_some {cap : Nat} {x : Byte} {w w' : Writer} (h : Writer.appendByte cap x w = some w') :
    w.ob.length ≠ cap ∧ w' = { w with ob := w.ob ++ [x] } := by
  simp only [appendByte] at h
  split at h
  · cases h
  · exact ⟨‹_›, (Option.some.inj h).symm⟩

theorem Writer.appendByte_grows {cap : Nat} {x : Byte} {w w' : Writer} (h : Writer.appendByte cap x w = some w') :
    Writer.Grows cap w w' := by
  obtain ⟨hne, rfl⟩ := Writer.appendByte_eq_some h
  refine ⟨List.prefix_append _ _, fun hc => ?_, fun hl => hl⟩
  simp only [List.length_append, List.length_singleton]
  omega

theorem Writer.putBit_grows {cap : Nat} {b : Bool} {w w' : Writer} (h : Writer.putBit cap b w = some w') :
    Writer.Grows cap w w' := by
  refine ⟨?_, ?_, fun hl => ?_⟩
  · simp only [putBit] at h
    split at h
    · exact (Writer.appendByte_grows h).prefixed
    · cases h; exact List.prefix_refl _
  · simp only [putBit] at h
    split at h
    · exact (Writer.appendByte_grows h).capacity
    · cases h; exact id
  · obtain ⟨h1, h2⟩ := Writer.putBit_spec cap b w hl
    by_cases hf : w.wcnt = 7 ∧ w.ob.length = cap
    · rw [h1 hf] at h; cases h
    · obtain ⟨w'', e, hl', -⟩ := h2 hf
      rw [e] at h; cases h; exact hl'

theorem Writer.putList_grows {cap : Nat} {bs : List Bool} {w w' : Writer} (h : Writer.putList cap bs w = some w') :
    Writer.Grows cap w w' := by
  induction bs generalizing w with
  | nil => cases h; exact .refl _ _
  | cons b bs ih =>
    obtain ⟨w1, h1, h2⟩ := Option.bind_eq_some_iff.1 h
    exact (Writer.putBit_grows h1).trans (ih h2)

theorem Writer.flush_grows {cap : Nat} {w w' : Writer} (h : Writer.flush cap w = some w') :
    Writer.Grows cap w w' := by
  simp only [flush] at h
  split at h
  · cases h; exact .refl _ _
  · have := Writer.appendByte_grows h
    exact ⟨this.prefixed, this.capacity, fun _ => this.legal (by simp [Writer.Legal])⟩

theorem Writer.appendBytes_grows {cap : Nat} {xs : List Byte} {w w' : Writer}
    (h : Writer.appendBytes cap xs w = some w') : Writer.Grows cap w w' := by
  induction xs generalizing w with
  | nil => cases h; exact .refl _ _
  | cons x xs ih =>
    obtain ⟨w1, h1, h2⟩ := Option.bind_eq_some_iff.1 h
    exact (Writer.appendByte_grows h1).trans (ih h2)

theorem rleEncFrom_grows {cap : Nat} {sq : Memory 16} {v : Sample} {len : Nat} {as : List Nat} {w w' : Writer}
    (h : rleEncFrom cap sq v len as w = some (some w')) : Writer.Grows cap w w' := by
  induction as generalizing v len w with
  | nil =>
    simp only [rleEncFrom, putPair_eq_putList, Option.some.injEq] at h
    exact Writer.putList_grows h
  | cons a as ih =>
    simp only [rleEncFrom] at h
    split at h
    · cases h
    · split at h
      · exact ih h
      · split at h
        · cases h
        · rename_i w1 h1
          rw [putPair_eq_putList] at h1
          exact (Writer.putList_grows h1).trans (ih h)

theorem rleEnc_grows {cap : Nat} {sq : Memory 16} {as : List Nat} {w w' : Writer}
    (h : rleEnc cap sq as w = some (some w')) : Writer.Grows cap w w' := by
  cases as with
  | nil => cases h; exact Writer.Grows.refl _ _
  | cons a as =>
    simp only [rleEnc] at h
    split at h
    · cases h
    · exact rleEncFrom_grows h

theorem byteField_grows {cap : Nat} {xs : List Byte} {w w' : Writer} (h : byteField cap xs w = some w') :
    Writer.Grows cap w w' := by
  obtain ⟨w1, h1, h2⟩ := Option.bind_eq_some_iff.1 h
  exact (Writer.flush_grows h1).trans (Writer.appendBytes_grows h2)

/-- Bytes appended one after another: all of them, or `OutFull`. -/
theorem Writer.appendBytes_spec (cap : Nat) (xs : List Byte) (w : Writer) (hc : w.ob.length ≤ cap) :
    (w.ob.length + xs.length ≤ cap → Writer.appendBytes cap xs w = some { w with ob := w.ob ++ xs }) ∧
    (cap < w.ob.length + xs.length → Writer.appendBytes cap xs w = none) := by
  induction xs generalizing w with
  | nil => exact ⟨fun _ => by simp [appendBytes], fun h => by simp at h; omega⟩
  | cons x xs ih =>
    simp only [appendBytes, appendByte, List.length_cons]
    by_cases h : w.ob.length = cap
    · exact ⟨fun hr => by omega, fun _ => by simp [h]⟩
    · rw [if_neg h]
      obtain ⟨h1, h2⟩ := ih { w with ob := w.ob ++ [x] } (by simp; omega)
      simp only [Option.bind_some]
      refine ⟨fun hr => ?_, fun hr => h2 (by simp; omega)⟩
      rw [h1 (by simp; omega)]
      simp

/-- A byte field: the pending byte, then the bytes, or `OutFull`. -/
theorem byteField_spec (cap : Nat) (x : Byte) (xs : List Byte) (w : Writer) (hc : w.ob.length ≤ cap) :
    (w.padded.length + (x :: xs).length ≤ cap → byteField cap (x :: xs) w =
      some { ob := w.padded ++ (x :: xs), wacc := if w.wcnt = 0 then w.wacc else 0, wcnt := 0 }) ∧
    (cap < w.padded.length + (x :: xs).length → byteField cap (x :: xs) w = none) := by
  by_cases h : w.wcnt = 0
  · obtain ⟨h1, h2⟩ := Writer.appendBytes_spec cap (x :: xs) w hc
    simp only [byteField, Writer.flush, Writer.padded, if_pos h, Option.bind_some]
    refine ⟨fun hr => ?_, h2⟩
    rw [h1 hr]
    simp [h]
  · simp only [byteField, Writer.flush, Writer.padded, if_neg h]
    by_cases hf : w.ob.length = cap
    · simp only [Writer.appendByte, hf, if_true, Option.bind_none]
      refine ⟨fun hr => ?_, fun _ => trivial⟩
      simp at hr; omega
    · simp only [Writer.appendByte, if_neg hf, Option.bind_some]
      obtain ⟨h1, h2⟩ := Writer.appendBytes_spec cap (x :: xs)
        { ob := w.ob ++ [w.wacc], wacc := 0, wcnt := 0 } (by simp; omega)
      exact ⟨fun hr => by rw [h1 hr], h2⟩

/-! ## The reader -/

theorem Reader.rest_length (r : Reader) : r.rest.length = 8 * r.ib.length - r.position := by
  simp [Reader.rest]

theorem Reader.avail_eq (r : Reader) (h : r.Legal) : r.avail = r.rest.length := by
  have := three_bits_lt r.rbit
  rw [Reader.rest_length]
  simp only [Reader.avail, Reader.position]
  omega

theorem Reader.skipBit_spec (r : Reader) (h : r.Legal) (hp : r.rpos.toNat < r.ib.length) :
    r.skipBit.Legal ∧ r.skipBit.ib = r.ib ∧ r.skipBit.position = r.position + 1 := by
  have hlt := three_bits_lt r.rbit
  by_cases h7 : r.rbit = 7
  · have h7' : r.rbit.toNat = 7 := by rw [h7]; rfl
    have hs : (r.rpos + 1).toNat = r.rpos.toNat + 1 := by
      rw [BitVec.toNat_add]
      show (r.rpos.toNat + 1) % 2 ^ 32 = _
      have := h.1
      omega
    simp only [Reader.skipBit, if_pos h7, Reader.Legal, Reader.position, hs, h7', implies_true, and_true, true_and]
    refine ⟨⟨h.1, hp⟩, ?_⟩
    show 8 * (r.rpos.toNat + 1) + 0 = _
    omega
  · have h7' : r.rbit.toNat ≠ 7 := fun hh => h7 (by apply BitVec.eq_of_toNat_eq; rw [hh]; rfl)
    have hs : (r.rbit + 1).toNat = r.rbit.toNat + 1 := by
      rw [BitVec.toNat_add]
      show (r.rbit.toNat + 1) % 8 = _
      omega
    simp only [Reader.skipBit, if_neg h7, Reader.Legal, Reader.position, hs]
    exact ⟨⟨h.1, h.2.1, fun he => absurd he (by omega)⟩, trivial, by omega⟩

/-- `GetBit`: the next bit, or `Eof` when none is left (R161). -/
theorem Reader.getBit_spec (r : Reader) (h : r.Legal) :
    (r.rest = [] → r.getBit = .error .eof) ∧
    (∀ b tl, r.rest = b :: tl → r.getBit = .ok (b, r.skipBit) ∧ r.skipBit.Legal ∧ r.skipBit.ib = r.ib ∧
      r.skipBit.rest = tl ∧ r.skipBit.position = r.position + 1) := by
  have hlt := three_bits_lt r.rbit
  constructor
  · intro he
    have hl := congrArg List.length he
    rw [Reader.rest_length] at hl
    simp only [Reader.position, List.length_nil] at hl
    have : r.ib.length ≤ r.rpos.toNat := by omega
    simp [Reader.getBit, List.getElem?_eq_none this]
  · intro b tl he
    have hl := congrArg List.length he
    rw [Reader.rest_length] at hl
    simp only [Reader.position, List.length_cons] at hl
    have hp : r.rpos.toNat < r.ib.length := by omega
    obtain ⟨h1, h2, h3⟩ := Reader.skipBit_spec r h hp
    refine ⟨?_, h1, h2, ?_, h3⟩
    · have hb : r.rest[0]? = some b := by rw [he]; rfl
      simp only [Reader.rest, List.getElem?_drop, Reader.position, Nat.add_zero] at hb
      rw [byteBits_getElem? _ _ _ hlt, List.getElem?_eq_getElem hp] at hb
      simp only [Option.map_some, Option.some.injEq] at hb
      simp only [Reader.getBit, List.getElem?_eq_getElem hp, hb]
    · have : r.skipBit.rest = r.rest.tail := by
        simp only [Reader.rest, h2, h3, List.tail_drop]
      rw [this, he]; rfl

/-- `GetBits(n)`: the next `n` bits, or `Eof` when fewer are left (R162). -/
theorem Reader.getBits_spec (n v : Nat) (r : Reader) (h : r.Legal) :
    (n ≤ r.rest.length → ∃ r', Reader.getBits n v r = .ok (v * 2 ^ n + bitsValue (r.rest.take n), r') ∧ r'.Legal ∧
      r'.ib = r.ib ∧ r'.rest = r.rest.drop n ∧ r'.position = r.position + n) ∧
    (r.rest.length < n → Reader.getBits n v r = .error .eof) := by
  induction n generalizing v r with
  | zero => exact ⟨fun _ => ⟨r, by simp [getBits, bitsValue], h, rfl, rfl, rfl⟩, fun h => by omega⟩
  | succ n ih =>
    obtain ⟨h1, h2⟩ := Reader.getBit_spec r h
    cases hr : r.rest with
    | nil =>
      exact ⟨fun hh => by simp at hh, fun _ => by simp [getBits, h1 hr]⟩
    | cons b tl =>
      obtain ⟨hg, hl, hib, hrest, hpos⟩ := h2 b tl hr
      obtain ⟨i1, i2⟩ := ih (2 * v + b.toNat) r.skipBit hl
      simp only [getBits, hg, hrest, List.length_cons, Nat.add_le_add_iff_right, Nat.add_lt_add_iff_right] at i1 i2 ⊢
      refine ⟨fun hn => ?_, i2⟩
      obtain ⟨r', e, hl', hib', hrest', hpos'⟩ := i1 hn
      refine ⟨r', ?_, hl', hib'.trans hib, by simp [hrest'], by omega⟩
      rw [e, List.take_succ_cons, bitsValue_cons, List.length_take, Nat.min_eq_left hn]
      congr 2
      ring

theorem Reader.align_spec (r : Reader) (h : r.Legal) :
    r.align.Legal ∧ r.align.ib = r.ib ∧ r.align.rbit = 0 ∧ r.align.rpos.toNat = r.nextByte := by
  by_cases h0 : r.rbit = 0
  · simp only [Reader.align, Reader.nextByte, if_pos h0]
    exact ⟨h, trivial, h0, trivial⟩
  · have hp : r.rpos.toNat < r.ib.length := by
      rcases Nat.lt_or_eq_of_le h.2.1 with hh | hh
      · exact hh
      · exact absurd (h.2.2 hh) h0
    have hs : (r.rpos + 1).toNat = r.rpos.toNat + 1 := by
      rw [BitVec.toNat_add]
      show (r.rpos.toNat + 1) % 2 ^ 32 = _
      have := h.1
      omega
    simp only [Reader.align, Reader.nextByte, if_neg h0, Reader.Legal, hs, implies_true, and_true]
    exact ⟨h.1, hp⟩

/-- `TakeByte`: the next whole byte, or `Eof` when none is left (R164). -/
theorem Reader.takeByte_spec (r : Reader) (h : r.Legal) (h0 : r.rbit = 0) :
    (r.ib.length ≤ r.rpos.toNat → r.takeByte = .error .eof) ∧
    (∀ x, r.ib[r.rpos.toNat]? = some x → ∃ r', r.takeByte = .ok (x, r') ∧ r'.Legal ∧ r'.rbit = 0 ∧
      r'.ib = r.ib ∧ r'.rpos.toNat = r.rpos.toNat + 1) := by
  constructor
  · intro hp
    simp [Reader.takeByte, List.getElem?_eq_none hp]
  · intro x hx
    have hp : r.rpos.toNat < r.ib.length := (List.getElem?_eq_some_iff.1 hx).1
    have hs : (r.rpos + 1).toNat = r.rpos.toNat + 1 := by
      rw [BitVec.toNat_add]
      show (r.rpos.toNat + 1) % 2 ^ 32 = _
      have := h.1
      omega
    refine ⟨{ r with rpos := r.rpos + 1 }, by simp [Reader.takeByte, hx], ?_, h0, rfl, hs⟩
    exact ⟨h.1, by simp only [hs]; omega, fun _ => h0⟩

/-- Bytes taken one after another, or `Eof` when there are fewer (R173 to R175). -/
theorem Reader.takeBytes_spec (n v : Nat) (r : Reader) (h : r.Legal) (h0 : r.rbit = 0) :
    (r.rpos.toNat + n ≤ r.ib.length → ∃ r', Reader.takeBytes n v r =
        .ok (((r.ib.drop r.rpos.toNat).take n).foldl (fun v x => 256 * v + x.toNat) v, r') ∧
      r'.Legal ∧ r'.rbit = 0 ∧ r'.ib = r.ib ∧ r'.rpos.toNat = r.rpos.toNat + n) ∧
    (r.ib.length < r.rpos.toNat + n → Reader.takeBytes n v r = .error .eof) := by
  induction n generalizing v r with
  | zero => exact ⟨fun _ => ⟨r, by simp [takeBytes], h, h0, rfl, rfl⟩, fun hh => by have := h.2.1; omega⟩
  | succ n ih =>
    obtain ⟨h1, h2⟩ := Reader.takeByte_spec r h h0
    by_cases hp : r.rpos.toNat < r.ib.length
    · obtain ⟨r1, e, hl, hb, hib, hpos⟩ := h2 _ (List.getElem?_eq_getElem hp)
      obtain ⟨i1, i2⟩ := ih (256 * v + (r.ib[r.rpos.toNat]).toNat) r1 hl hb
      simp only [takeBytes, e]
      refine ⟨fun hn => ?_, fun hn => i2 (by rw [hib]; omega)⟩
      obtain ⟨r', e', hl', hb', hib', hpos'⟩ := i1 (by rw [hib]; omega)
      refine ⟨r', ?_, hl', hb', hib'.trans hib, by omega⟩
      rw [e', hib, hpos, List.drop_eq_getElem_cons hp, List.take_succ_cons, List.foldl_cons]
    · exact ⟨fun hn => by omega, fun _ => by simp [takeBytes, h1 (by omega)]⟩

/-! ## Codes -/

theorem riceCode_length (k v : Nat) : (riceCode k v).length = v / 2 ^ k + 1 + k := by
  simp [riceCode]; omega

/-- The unary part on a run of ones that ends in time. -/
theorem riceUnary_spec (left q m : Nat) (r : Reader) (h : r.Legal) :
    (∀ tail, m < left → r.rest = List.replicate m true ++ false :: tail →
      ∃ r', riceUnary left q r = .ok (q + m, r') ∧ r'.Legal ∧ r'.ib = r.ib ∧ r'.rest = tail ∧
        r'.position = r.position + m + 1) ∧
    (m < left → r.rest = List.replicate m true → riceUnary left q r = .error .eof) ∧
    (∀ tail, r.rest = List.replicate left true ++ tail → riceUnary left q r = .error .badCode) := by
  induction left generalizing q m r with
  | zero => exact ⟨fun _ hm => by omega, fun hm => by omega, fun _ _ => rfl⟩
  | succ left ih =>
    obtain ⟨h1, h2⟩ := Reader.getBit_spec r h
    refine ⟨fun tail hm hr => ?_, fun hm hr => ?_, fun tail hr => ?_⟩
    · cases m with
      | zero =>
        obtain ⟨hg, hl, hib, hrest, hpos⟩ := h2 _ _ hr
        exact ⟨_, by simp [riceUnary, hg], hl, hib, hrest, by omega⟩
      | succ m =>
        obtain ⟨hg, hl, hib, hrest, hpos⟩ := h2 true _ (by rw [hr, List.replicate_succ]; rfl)
        obtain ⟨r', e, hl', hib', hrest', hpos'⟩ := (ih (q + 1) m _ hl).1 tail (by omega) hrest
        exact ⟨r', by simp only [riceUnary, hg, e]; congr 2; omega, hl', hib'.trans hib, hrest', by omega⟩
    · cases m with
      | zero => simp [riceUnary, h1 hr]
      | succ m =>
        obtain ⟨hg, hl, hib, hrest, hpos⟩ := h2 true _ (by rw [hr, List.replicate_succ])
        simp only [riceUnary, hg]
        exact (ih (q + 1) m _ hl).2.1 (by omega) hrest
    · obtain ⟨hg, hl, hib, hrest, hpos⟩ := h2 true _ (by rw [hr, List.replicate_succ]; rfl)
      simp only [riceUnary, hg]
      exact (ih (q + 1) m _ hl).2.2 tail hrest

theorem rice_quotient_lt {k v : Nat} (hk : k ≤ 15) (hv : v < 65536) : v / 2 ^ k < 2 ^ (16 - k) := by
  rw [Nat.div_lt_iff_lt_mul (Nat.two_pow_pos k), ← Nat.pow_add]
  have : 16 - k + k = 16 := by omega
  rw [this]
  omega

/-- The decoder on a code (R183). -/
theorem riceDec_riceCode {k v : Nat} (hk : k ≤ 15) (hv : v < 65536) (r : Reader) (h : r.Legal) (tail : List Bool)
    (hr : r.rest = riceCode k v ++ tail) :
    ∃ r', riceDec k r = .ok (v, r') ∧ r'.Legal ∧ r'.ib = r.ib ∧ r'.rest = tail ∧
      r'.position = r.position + (riceCode k v).length := by
  have hr' : r.rest = List.replicate (v / 2 ^ k) true ++ false :: (msbBits k (v % 2 ^ k) ++ tail) := by
    rw [hr, riceCode]; simp
  obtain ⟨r1, e1, hl1, hib1, hrest1, hpos1⟩ :=
    (riceUnary_spec (2 ^ (16 - k)) 0 _ r h).1 _ (rice_quotient_lt hk hv) hr'
  obtain ⟨r2, e2, hl2, hib2, hrest2, hpos2⟩ := (Reader.getBits_spec k 0 r1 hl1).1 (by rw [hrest1]; simp)
  refine ⟨r2, ?_, hl2, hib2.trans hib1, ?_, ?_⟩
  · simp only [riceDec, e1, e2, hrest1, Nat.zero_add, Nat.zero_mul]
    rw [List.take_append_of_le_length (by simp), List.take_of_length_le (by simp), bitsValue_msbBits, Nat.mod_mod]
    congr 2
    rw [Nat.mul_comm]
    exact Nat.div_add_mod v (2 ^ k)
  · rw [hrest2, hrest1, List.drop_append_of_le_length (by simp), List.drop_of_length_le (by simp)]
    rfl
  · rw [riceCode_length]; omega

/-- The decoder on bits that are no code (R182). -/
theorem riceDec_errors {k : Nat} (r : Reader) (h : r.Legal) :
    (∀ tail, r.rest = List.replicate (2 ^ (16 - k)) true ++ tail → riceDec k r = .error .badCode) ∧
    (∀ q, q < 2 ^ (16 - k) → r.rest = List.replicate q true → riceDec k r = .error .eof) ∧
    (∀ q bs, q < 2 ^ (16 - k) → bs.length < k → r.rest = List.replicate q true ++ false :: bs →
      riceDec k r = .error .eof) := by
  refine ⟨fun tail hr => ?_, fun q hq hr => ?_, fun q bs hq hb hr => ?_⟩
  · simp [riceDec, (riceUnary_spec _ 0 0 r h).2.2 tail hr]
  · simp [riceDec, (riceUnary_spec _ 0 q r h).2.1 hq hr]
  · obtain ⟨r1, e1, hl1, hib1, hrest1, hpos1⟩ := (riceUnary_spec _ 0 q r h).1 bs hq hr
    simp [riceDec, e1, (Reader.getBits_spec k 0 r1 hl1).2 (by rw [hrest1]; exact hb)]

end Sys2Proof.Machine
end

