-- ==== Sys2Proof/Laws/Effect.lean ====
section
/-! SUPPORT. Everything a command can do, said once: the outcomes of the shared operations, what the free values leave,
and `Effect`, the list of the next states that `exec` answers. -/

namespace Sys2Proof.Machine

/-! ## What the free values leave (`60_exceptions.md` R246) -/

theorem State.forgetReader_legal (s : State) (h : s.rd.Legal) : s.forgetReader.rd.Legal := by
  have hp : Config.freePosition s.draws % (8 * s.rd.ib.length + 1) < 8 * s.rd.ib.length + 1 :=
    Nat.mod_lt _ (Nat.succ_pos _)
  have hlen := h.1
  simp only [State.forgetReader, Reader.Legal, BitVec.toNat_ofNat]
  generalize Config.freePosition s.draws % (8 * s.rd.ib.length + 1) = p at hp
  have hlt : p / 8 < 2 ^ 32 := by omega
  rw [Nat.mod_eq_of_lt hlt]
  refine ⟨hlen, by omega, fun he => ?_⟩
  have : p % 8 = 0 := by omega
  rw [this]
  rfl

theorem partial_legal : ∀ (x : BitVec 8) (c : BitVec 3),
    ((x >>> (8 - c.toNat)) <<< (8 - c.toNat)).toNat % 2 ^ (8 - c.toNat) = 0 := by
  intro x c
  rw [BitVec.toNat_shiftLeft, Nat.shiftLeft_eq]
  have hd : 2 ^ (8 - c.toNat) ∣ 2 ^ 8 := pow_dvd_pow 2 (by omega)
  rw [Nat.mod_mod_of_dvd _ hd, Nat.mul_mod_left]

theorem State.forgetWriter_legal (s : State) : s.forgetWriter.wr.Legal :=
  partial_legal _ _

theorem State.forgetWriter_prefix (s : State) : s.wr.ob <+: s.forgetWriter.wr.ob :=
  List.prefix_append _ _

theorem State.forgetWriter_capacity (s : State) (h : s.wr.ob.length ≤ s.cfg.obBytes) :
    s.forgetWriter.wr.ob.length ≤ s.cfg.obBytes := by
  simp only [State.forgetWriter, List.length_append, List.length_map, List.length_range]
  have : Config.freeLength s.draws % (s.cfg.obBytes - s.wr.ob.length + 1) < s.cfg.obBytes - s.wr.ob.length + 1 :=
    Nat.mod_lt _ (Nat.succ_pos _)
  omega

theorem State.read_forgetSq (s : State) {n i : Nat} (h : n ≤ i) :
    Memory.read (s.forgetSq n).sq i = Memory.read s.sq i :=
  read_writeWords_other (by simpa using h)

/-! ## The dimension checks are those of the rules -/

theorem State.rowOk_iff (s : State) (k : BitVec 16) : s.rowOk k = true ↔ DimensionsOk (.fliftr k) s := by
  show _ ↔ EvenSize s.w.toNat ∧ k.toNat < s.h.toNat
  simp [State.rowOk, evenSide_iff]

theorem State.colOk_iff (s : State) (k : BitVec 16) : s.colOk k = true ↔ DimensionsOk (.fliftc k) s := by
  show _ ↔ EvenSize s.h.toNat ∧ k.toNat < s.w.toNat
  simp [State.colOk, evenSide_iff]

theorem State.planeOk_iff (s : State) : s.planeOk = true ↔ DimensionsOk .fdwt2 s := by
  show _ ↔ EvenSize s.w.toNat ∧ EvenSize s.h.toNat
  simp [State.planeOk, evenSide_iff]

theorem State.plane2Ok_iff (s : State) : s.plane2Ok = true ↔ DimensionsOk .fdwt2l s := by
  show _ ↔ QuadSize s.w.toNat ∧ QuadSize s.h.toNat
  simp [State.plane2Ok, quadSide_iff]

theorem State.quantOk_iff_dimensionsOk (s : State) : s.quantOk = true ↔ DimensionsOk .quant s :=
  s.quantOk_iff

theorem State.blockOk_iff_dimensionsOk (s : State) : s.blockOk = true ↔ DimensionsOk .zigzag s :=
  s.blockOk_iff

/-! ## The shared operations -/

/-- A lifting command whose checks pass and whose work succeeds completes. -/
theorem liftCommand_ok {d : Bool} {work : LiftState → Option LiftState} {s : State} {a : LiftState} (hd : d = true)
    (hf : s.RegionFits) (hw : work ⟨s.cm, s.ovf⟩ = some a) :
    liftCommand d work s = .next { s with cm := a.cm, ovf := a.ovf }.advance := by
  simp only [liftCommand, (s.regionFault_none d).2 ⟨hd, hf⟩, hw]

/-- A lifting command whose checks pass and that meets an unwritten word is refused. -/
theorem liftCommand_unwritten {d : Bool} {work : LiftState → Option LiftState} {s : State} (hd : d = true)
    (hf : s.RegionFits) (hw : work ⟨s.cm, s.ovf⟩ = none) : liftCommand d work s = .refused (.unwritten .cm) := by
  simp only [liftCommand, (s.regionFault_none d).2 ⟨hd, hf⟩, hw]

theorem liftCommand_cases {d : Bool} {work : LiftState → Option LiftState} {s t : State}
    (h : liftCommand d work s = .next t) :
    (∃ f, (f = .illegalConfig ∨ f = .addrRange) ∧ t = s.takeFault f) ∨
    (∃ a, d = true ∧ s.RegionFits ∧ work ⟨s.cm, s.ovf⟩ = some a ∧ t = { s with cm := a.cm, ovf := a.ovf }.advance) := by
  simp only [liftCommand] at h
  split at h
  · rename_i f hf
    exact .inl ⟨f, State.regionFault_some hf, (Host.Outcome.next.inj h).symm⟩
  · rename_i hf
    obtain ⟨hd, hr⟩ := (s.regionFault_none d).1 hf
    split at h
    · cases h
    · rename_i a ha
      exact .inr ⟨a, hd, hr, ha, (Host.Outcome.next.inj h).symm⟩

theorem quantCommand_cases {value : Int → Nat → Int} {s t : State} (h : quantCommand value s = .next t) :
    (∃ f, (f = .illegalConfig ∨ f = .addrRange) ∧ t = s.takeFault f) ∨
    (∃ vs, s.quantOk = true ∧ s.RegionFits ∧ readWords s.cm (s.cellAddrs (blockCells s.side)) = some vs ∧
      t = { s with
        cm := writeWords s.cm (s.cellAddrs (blockCells s.side))
          ((List.zipWith (fun (v : Sample) sh => value v.toInt sh) vs s.cellShifts).map wrap16)
        ovf := stickyOvf s.ovf (overflows (List.zipWith (fun (v : Sample) sh => value v.toInt sh) vs s.cellShifts)) }.advance) := by
  simp only [quantCommand] at h
  split at h
  · rename_i f hf
    exact .inl ⟨f, State.regionFault_some hf, (Host.Outcome.next.inj h).symm⟩
  · rename_i hf
    obtain ⟨hd, hr⟩ := (s.regionFault_none _).1 hf
    split at h
    · cases h
    · rename_i vs hv
      exact .inr ⟨vs, hd, hr, hv, (Host.Outcome.next.inj h).symm⟩

theorem execZigzag_cases {s t : State} (h : execZigzag s = .next t) :
    (∃ f, (f = .illegalConfig ∨ f = .addrRange) ∧ t = s.takeFault f) ∨
    (∃ vs, s.BlockSide ∧ s.RegionFits ∧ readWords s.cm s.scanAddrs = some vs ∧
      t = { s with sq := writeWords s.sq s.sqIndices vs }.advance) := by
  simp only [execZigzag] at h
  split at h
  · rename_i f hf
    exact .inl ⟨f, State.regionFault_some hf, (Host.Outcome.next.inj h).symm⟩
  · rename_i hf
    obtain ⟨hd, hr⟩ := (s.regionFault_none _).1 hf
    split at h
    · cases h
    · rename_i vs hv
      exact .inr ⟨vs, s.blockOk_iff.1 hd, hr, hv, (Host.Outcome.next.inj h).symm⟩

theorem execUnzigzag_cases {s t : State} (h : execUnzigzag s = .next t) :
    (∃ f, (f = .illegalConfig ∨ f = .addrRange) ∧ t = s.takeFault f) ∨
    (∃ vs, s.BlockSide ∧ s.RegionFits ∧ readWords s.sq s.sqIndices = some vs ∧
      t = { s with cm := writeWords s.cm s.scanAddrs vs }.advance) := by
  simp only [execUnzigzag] at h
  split at h
  · rename_i f hf
    exact .inl ⟨f, State.regionFault_some hf, (Host.Outcome.next.inj h).symm⟩
  · rename_i hf
    obtain ⟨hd, hr⟩ := (s.regionFault_none _).1 hf
    split at h
    · cases h
    · rename_i vs hv
      exact .inr ⟨vs, s.blockOk_iff.1 hd, hr, hv, (Host.Outcome.next.inj h).symm⟩

theorem writerCommand_cases {work : Writer → Option Writer} {s t : State} (h : writerCommand work s = .next t) :
    t = s.forgetWriter.nextDraw.takeFault .outFull ∨ ∃ w, work s.wr = some w ∧ t = { s with wr := w }.advance := by
  simp only [writerCommand] at h
  split at h
  · exact .inl (Host.Outcome.next.inj h).symm
  · exact .inr ⟨_, ‹_›, (Host.Outcome.next.inj h).symm⟩

theorem readerCommand_cases {α : Type} {work : Reader → Except FaultCode (α × Reader)} {store : α → State → State}
    {forget : State → State} {s t : State} (h : readerCommand work store forget s = .next t) :
    (∃ f, work s.rd = .error f ∧ t = (forget s.forgetReader).nextDraw.takeFault f) ∨
    (∃ x r, work s.rd = .ok (x, r) ∧ t = (store x { s with rd := r }).advance) := by
  simp only [readerCommand] at h
  split at h
  · exact .inl ⟨_, ‹_›, (Host.Outcome.next.inj h).symm⟩
  · exact .inr ⟨_, _, ‹_›, (Host.Outcome.next.inj h).symm⟩

/-! ## What the reader primitives can answer, from every reader -/

/-- A reader primitive keeps `IB` and a legal reader legal, and raises only the faults listed. -/
structure Reader.Moves {α : Type} (fs : List FaultCode) (work : Reader → Except FaultCode (α × Reader)) : Prop where
  keeps : ∀ r x r', work r = .ok (x, r') → r'.ib = r.ib ∧ (r.Legal → r'.Legal)
  raises : ∀ r f, work r = .error f → f ∈ fs

theorem Reader.getBit_moves : Reader.Moves [.eof] Reader.getBit where
  keeps r x r' h := by
    simp only [getBit] at h
    split at h
    · cases h
    · rename_i y hy
      cases h
      refine ⟨by simp only [Reader.skipBit]; split <;> rfl, fun hl => ?_⟩
      exact (Reader.skipBit_spec r hl (List.getElem?_eq_some_iff.1 hy).1).1
  raises r f h := by
    simp only [getBit] at h
    split at h <;> cases h
    simp

theorem Reader.getBits_moves (n v : Nat) : Reader.Moves [.eof] (Reader.getBits n v) := by
  induction n generalizing v with
  | zero => exact ⟨fun r x r' h => by cases h; exact ⟨rfl, id⟩, fun r f h => by cases h⟩
  | succ n ih =>
    constructor
    · intro r x r' h
      simp only [getBits] at h
      split at h
      · cases h
      · rename_i b r1 h1
        obtain ⟨i1, l1⟩ := Reader.getBit_moves.keeps _ _ _ h1
        obtain ⟨i2, l2⟩ := (ih _).keeps _ _ _ h
        exact ⟨i2.trans i1, l2 ∘ l1⟩
    · intro r f h
      simp only [getBits] at h
      split at h
      · rename_i g hg
        cases h; exact Reader.getBit_moves.raises _ _ hg
      · exact (ih _).raises _ _ h

theorem Reader.align_ib (r : Reader) : r.align.ib = r.ib := by
  simp only [Reader.align]; split <;> rfl

theorem Reader.takeByte_ib {r r' : Reader} {x : Byte} (h : r.takeByte = .ok (x, r')) :
    r'.ib = r.ib ∧ r'.rbit = r.rbit ∧ (r.Legal → r.rbit = 0 → r'.Legal) := by
  simp only [takeByte] at h
  split at h
  · cases h
  · rename_i y hy
    refine ⟨by cases h; rfl, by cases h; rfl, fun hl h0 => ?_⟩
    obtain ⟨r1, e, hl', -⟩ := (Reader.takeByte_spec r hl h0).2 _ hy
    simp only [takeByte, hy] at e
    cases h; cases e; exact hl'

theorem Reader.takeByte_error {r : Reader} {f : FaultCode} (h : r.takeByte = .error f) : f = .eof := by
  simp only [takeByte] at h
  split at h <;> cases h
  rfl

theorem Reader.takeBytes_ib {n v x : Nat} {r r' : Reader} (h : Reader.takeBytes n v r = .ok (x, r')) :
    r'.ib = r.ib ∧ (r.Legal → r.rbit = 0 → r'.Legal) := by
  induction n generalizing v r with
  | zero => cases h; exact ⟨rfl, fun hl _ => hl⟩
  | succ n ih =>
    simp only [takeBytes] at h
    split at h
    · cases h
    · rename_i y r1 h1
      obtain ⟨i1, b1, l1⟩ := Reader.takeByte_ib h1
      obtain ⟨i2, l2⟩ := ih h
      exact ⟨i2.trans i1, fun hl h0 => l2 (l1 hl h0) (b1.trans h0)⟩

theorem Reader.takeBytes_error {n v : Nat} {r : Reader} {f : FaultCode} (h : Reader.takeBytes n v r = .error f) :
    f = .eof := by
  induction n generalizing v r with
  | zero => cases h
  | succ n ih =>
    simp only [takeBytes] at h
    split at h
    · rename_i g hg
      cases h; exact Reader.takeByte_error hg
    · exact ih h

theorem Reader.field_moves (n : Nat) : Reader.Moves [.eof] (fun r => Reader.takeBytes n 0 r.align) where
  keeps r x r' h := by
    obtain ⟨i, l⟩ := Reader.takeBytes_ib h
    exact ⟨i.trans r.align_ib, fun hl => l (Reader.align_spec r hl).1 (Reader.align_spec r hl).2.2.1⟩
  raises r f h := by simp [Reader.takeBytes_error h]

theorem Reader.scale_moves : Reader.Moves [.eof] (fun r => Reader.takeByte r.align) where
  keeps r x r' h := by
    obtain ⟨i, -, l⟩ := Reader.takeByte_ib h
    exact ⟨i.trans r.align_ib, fun hl => l (Reader.align_spec r hl).1 (Reader.align_spec r hl).2.2.1⟩
  raises r f h := by simp [Reader.takeByte_error h]

theorem riceUnary_moves (left q : Nat) : Reader.Moves [.eof, .badCode] (riceUnary left q) := by
  induction left generalizing q with
  | zero => exact ⟨fun r x r' h => (by cases h), fun r f h => (by cases h; simp)⟩
  | succ left ih =>
    constructor
    · intro r x r' h
      simp only [riceUnary] at h
      split at h
      · cases h
      · rename_i r1 h1
        obtain ⟨i1, l1⟩ := Reader.getBit_moves.keeps _ _ _ h1
        obtain ⟨i2, l2⟩ := (ih _).keeps _ _ _ h
        exact ⟨i2.trans i1, l2 ∘ l1⟩
      · rename_i r1 h1
        cases h
        exact Reader.getBit_moves.keeps _ _ _ h1
    · intro r f h
      simp only [riceUnary] at h
      split at h
      · rename_i g hg
        cases h
        have := Reader.getBit_moves.raises _ _ hg
        simp_all
      · exact (ih _).raises _ _ h
      · cases h

theorem riceDec_moves (k : Nat) : Reader.Moves [.eof, .badCode] (riceDec k) where
  keeps r x r' h := by
    simp only [riceDec] at h
    split at h
    · cases h
    · rename_i q r1 h1
      split at h
      · cases h
      · rename_i m r2 h2
        cases h
        obtain ⟨i1, l1⟩ := (riceUnary_moves _ _).keeps _ _ _ h1
        obtain ⟨i2, l2⟩ := (Reader.getBits_moves _ _).keeps _ _ _ h2
        exact ⟨i2.trans i1, l2 ∘ l1⟩
  raises r f h := by
    simp only [riceDec] at h
    split at h
    · rename_i g hg
      cases h; exact (riceUnary_moves _ _).raises _ _ hg
    · split at h
      · rename_i g hg
        cases h
        have := (Reader.getBits_moves _ _).raises _ _ hg
        simp_all
      · cases h

theorem rleLoop_moves (fuel n : Nat) : Reader.Moves [.eof, .badCode, .runOverrun] (rleLoop fuel n) := by
  induction fuel generalizing n with
  | zero =>
    cases n with
    | zero => exact ⟨fun r x r' h => by cases h; exact ⟨rfl, id⟩, fun r f h => by cases h⟩
    | succ n => exact ⟨fun r x r' h => (by cases h), fun r f h => (by cases h; simp)⟩
  | succ fuel ih =>
    cases n with
    | zero => exact ⟨fun r x r' h => by cases h; exact ⟨rfl, id⟩, fun r f h => by cases h⟩
    | succ n =>
      constructor
      · intro r x r' h
        simp only [rleLoop] at h
        split at h
        · cases h
        · rename_i len r1 h1
          split at h
          · cases h
          · rename_i v r2 h2
            split at h
            · cases h
            · split at h
              · cases h
              · rename_i xs r3 h3
                cases h
                obtain ⟨i1, l1⟩ := (riceDec_moves _).keeps _ _ _ h1
                obtain ⟨i2, l2⟩ := (riceDec_moves _).keeps _ _ _ h2
                obtain ⟨i3, l3⟩ := (ih _).keeps _ _ _ h3
                exact ⟨i3.trans (i2.trans i1), l3 ∘ l2 ∘ l1⟩
      · intro r f h
        simp only [rleLoop] at h
        split at h
        · rename_i g hg
          cases h
          have := (riceDec_moves _).raises _ _ hg
          simp at this ⊢
          tauto
        · split at h
          · rename_i g hg
            cases h
            have := (riceDec_moves _).raises _ _ hg
            simp at this ⊢
            tauto
          · split at h
            · cases h; simp
            · split at h
              · rename_i g hg
                cases h; exact (ih _).raises _ _ hg
              · cases h

/-- The decoder makes as many coefficients as are missing. -/
theorem rleLoop_length {fuel n : Nat} {r r' : Reader} {xs : List Sample} (h : rleLoop fuel n r = .ok (xs, r')) :
    xs.length = n := by
  induction fuel generalizing n r xs with
  | zero =>
    cases n with
    | zero => cases h; rfl
    | succ n => cases h
  | succ fuel ih =>
    cases n with
    | zero => cases h; rfl
    | succ n =>
      simp only [rleLoop] at h
      split at h
      · cases h
      · split at h
        · cases h
        · split at h
          · cases h
          · split at h
            · cases h
            · rename_i ys r3 h3
              cases h
              have := ih h3
              simp only [List.length_append, List.length_replicate]
              omega

/-! ## The quantizer's values -/

theorem quantized_natAbs_le (v : Int) (sh : Nat) : (quantized v sh).natAbs ≤ v.natAbs := by
  simp only [quantized]
  split
  · exact Nat.le_refl _
  · rename_i h
    rw [Int.natAbs_mul, Int.natAbs_natCast]
    rcases Nat.eq_zero_or_pos v.natAbs with h0 | h0
    · have : v = 0 := by omega
      simp [this]
    · have hs : v.sign.natAbs = 1 := by
        rw [Int.natAbs_sign_of_ne_zero (by omega)]
      rw [hs, Nat.one_mul]
      obtain ⟨k, rfl⟩ : ∃ k, sh = k + 1 := ⟨sh - 1, by omega⟩
      rw [Nat.add_sub_cancel, Nat.pow_succ]
      have hp := Nat.two_pow_pos k
      refine Nat.div_le_of_le_mul ?_
      nlinarith

theorem overflows_eq_false {zs : List Int} : overflows zs = false ↔ ∀ z ∈ zs, -32768 ≤ z ∧ z ≤ 32767 := by
  simp [overflows, fits16]

theorem overflows_eq_true {zs : List Int} : overflows zs = true ↔ ∃ z ∈ zs, z < -32768 ∨ 32767 < z := by
  simp only [overflows, fits16, Bool.not_eq_eq_eq_not, Bool.not_true, List.all_eq_false, decide_eq_true_eq]
  refine exists_congr fun z => and_congr_right fun _ => ?_
  omega

/-- `41_quantizer.md` R134: quantized samples always fit. -/
theorem quantized_fits (v : Sample) (sh : Nat) :
    -32768 ≤ quantized v.toInt sh ∧ quantized v.toInt sh ≤ 32767 := by
  have h := quantized_natAbs_le v.toInt sh
  have h1 := BitVec.toInt_lt (x := v)
  have h2 := BitVec.le_toInt (x := v)
  rcases Int.lt_or_le v.toInt 0 with hneg | hpos
  · have : quantized v.toInt sh ≤ 0 := by
      simp only [quantized]
      split
      · omega
      · rw [Int.sign_eq_neg_one_of_neg hneg]
        have := Int.natCast_nonneg ((v.toInt.natAbs + 2 ^ (sh - 1)) / 2 ^ sh)
        omega
    norm_num at h1 h2
    omega
  · norm_num at h1 h2
    omega

theorem quantized_overflows (vs : List Sample) (shs : List Nat) :
    overflows (List.zipWith (fun v sh => quantized v.toInt sh) vs shs) = false := by
  rw [overflows_eq_false]
  intro z hz
  rw [List.mem_iff_getElem?] at hz
  obtain ⟨i, hi⟩ := hz
  rw [List.getElem?_zipWith] at hi
  split at hi
  · rename_i v sh _ _
    cases hi; exact quantized_fits v sh
  · cases hi

/-! ## Pairs -/

@[simp] theorem expand_nil : expand [] = [] := rfl

@[simp] theorem expand_cons (p : Nat × Sample) (ps : List (Nat × Sample)) :
    expand (p :: ps) = List.replicate p.1 p.2 ++ expand ps := rfl

@[simp] theorem pairsCode_nil : pairsCode [] = [] := rfl

@[simp] theorem pairsCode_cons (p : Nat × Sample) (ps : List (Nat × Sample)) :
    pairsCode (p :: ps) = riceCode 1 p.1 ++ riceCode 15 p.2.toNat ++ pairsCode ps := rfl

/-- Every pair takes a bit, so the decoder's fuel suffices. -/
theorem length_le_pairsCode (ps : List (Nat × Sample)) : ps.length ≤ (pairsCode ps).length := by
  induction ps with
  | nil => simp
  | cons p ps ih =>
    simp only [pairsCode_cons, List.length_append, List.length_cons, riceCode_length]
    omega

/-- One turn of the decoder's loop on a pair. -/
theorem rleLoop_pair {fuel n len : Nat} {v : Sample} {tail : List Bool} (r : Reader) (h : r.Legal) (hlen : len < 65536)
    (hr : r.rest = riceCode 1 len ++ riceCode 15 v.toNat ++ tail) :
    ∃ r', r'.Legal ∧ r'.ib = r.ib ∧ r'.rest = tail ∧
      r'.position = r.position + (riceCode 1 len ++ riceCode 15 v.toNat).length ∧
      rleLoop (fuel + 1) (n + 1) r =
        if n + 1 < len then .error .runOverrun
        else match rleLoop fuel (n + 1 - len) r' with
          | .error f => .error f
          | .ok (xs, r3) => .ok (List.replicate len v ++ xs, r3) := by
  rw [List.append_assoc] at hr
  obtain ⟨r1, e1, l1, i1, t1, p1⟩ := riceDec_riceCode (k := 1) (by omega) hlen r h _ hr
  obtain ⟨r2, e2, l2, i2, t2, p2⟩ := riceDec_riceCode (k := 15) (by omega) v.isLt r1 l1 _ t1
  refine ⟨r2, l2, i2.trans i1, t2, by simp only [List.length_append]; omega, ?_⟩
  simp only [rleLoop, e1, e2, BitVec.ofNat_toNat, BitVec.setWidth_eq]
  all_goals rfl

/-- The decoder on pairs whose lengths sum to what is missing, the last one not empty (R189). -/
theorem rleLoop_pairs {ps : List (Nat × Sample)} {fuel n len : Nat} {v : Sample} {tail : List Bool} (r : Reader)
    (h : r.Legal) (hps : ∀ p ∈ ps, p.1 < 65536) (h1 : 1 ≤ len) (h2 : len < 65536)
    (hn : (expand (ps ++ [(len, v)])).length = n) (hf : ps.length < fuel)
    (hr : r.rest = pairsCode (ps ++ [(len, v)]) ++ tail) :
    ∃ r', rleLoop fuel n r = .ok (expand (ps ++ [(len, v)]), r') ∧ r'.Legal ∧ r'.ib = r.ib ∧ r'.rest = tail ∧
      r'.position = r.position + (pairsCode (ps ++ [(len, v)])).length := by
  induction ps generalizing fuel n r with
  | nil =>
    obtain ⟨fuel, rfl⟩ : ∃ m, fuel = m + 1 := ⟨fuel - 1, by simp at hf; omega⟩
    obtain ⟨n, rfl⟩ : ∃ m, n = m + 1 := ⟨n - 1, by simp at hn; omega⟩
    have hlen : len = n + 1 := by simpa using hn
    obtain ⟨r', l, i, t, p, e⟩ := rleLoop_pair (fuel := fuel) (n := n) (tail := tail) r h h2 (by simpa using hr)
    refine ⟨r', ?_, l, i, t, by simpa using p⟩
    rw [e, if_neg (by omega), show n + 1 - len = 0 by omega]
    cases fuel <;> simp [rleLoop]
  | cons q ps ih =>
    obtain ⟨len', v'⟩ := q
    obtain ⟨fuel, rfl⟩ : ∃ m, fuel = m + 1 := ⟨fuel - 1, by simp at hf; omega⟩
    have hlast : 1 ≤ (expand (ps ++ [(len, v)])).length := by
      simp only [expand, List.flatMap_append, List.length_append, List.flatMap_cons, List.length_replicate]
      omega
    simp only [List.cons_append, expand_cons, List.length_append, List.length_replicate] at hn
    obtain ⟨n, rfl⟩ : ∃ m, n = m + 1 := ⟨n - 1, by omega⟩
    obtain ⟨r1, l, i, t, p, e⟩ := rleLoop_pair (fuel := fuel) (n := n)
      (tail := pairsCode (ps ++ [(len, v)]) ++ tail) r h (hps (len', v') List.mem_cons_self) (by simpa using hr)
    obtain ⟨r', e', l', i', t', p'⟩ := ih (fuel := fuel) (n := n + 1 - len') r1 l
      (fun q hq => hps q (List.mem_cons_of_mem _ hq)) (by omega) (by simp at hf; omega) t
    refine ⟨r', ?_, l', i'.trans i, t', ?_⟩
    · rw [e, if_neg (by omega), e']
      rfl
    · rw [p', p]; simp only [List.cons_append, pairsCode_cons, List.length_append]; omega

/-- The decoder on pairs of which the last one is too long (R189). -/
theorem rleLoop_overrun {ps : List (Nat × Sample)} {fuel n len : Nat} {v : Sample} {tail : List Bool} (r : Reader)
    (h : r.Legal) (hps : ∀ p ∈ ps, p.1 < 65536) (h2 : len < 65536) (h3 : (expand ps).length < n)
    (h4 : n < (expand ps).length + len) (hf : ps.length < fuel)
    (hr : r.rest = pairsCode (ps ++ [(len, v)]) ++ tail) : rleLoop fuel n r = .error .runOverrun := by
  induction ps generalizing fuel n r with
  | nil =>
    obtain ⟨fuel, rfl⟩ : ∃ m, fuel = m + 1 := ⟨fuel - 1, by simp at hf; omega⟩
    obtain ⟨n, rfl⟩ : ∃ m, n = m + 1 := ⟨n - 1, by simp at h3; omega⟩
    obtain ⟨r', -, -, -, -, e⟩ := rleLoop_pair (fuel := fuel) (n := n) (tail := tail) r h h2 (by simpa using hr)
    rw [e, if_pos (by simpa using h4)]
  | cons q ps ih =>
    obtain ⟨len', v'⟩ := q
    obtain ⟨fuel, rfl⟩ : ∃ m, fuel = m + 1 := ⟨fuel - 1, by simp at hf; omega⟩
    obtain ⟨n, rfl⟩ : ∃ m, n = m + 1 := ⟨n - 1, by omega⟩
    simp only [expand_cons, List.length_append, List.length_replicate] at h3 h4
    obtain ⟨r1, l, i, t, -, e⟩ := rleLoop_pair (fuel := fuel) (n := n)
      (tail := pairsCode (ps ++ [(len, v)]) ++ tail) r h (hps (len', v') List.mem_cons_self) (by simpa using hr)
    rw [e, if_neg (by omega), ih (fuel := fuel) (n := n + 1 - len') r1 l
      (fun q hq => hps q (List.mem_cons_of_mem _ hq)) (by omega) (by omega) (by simp at hf; omega) t]

/-- The fuel of `rleDec` covers every list of pairs that the bits left can hold. -/
theorem Reader.fuel_suffices {r : Reader} {ps : List (Nat × Sample)} {tail : List Bool}
    (hr : r.rest = pairsCode ps ++ tail) : ps.length < 8 * r.ib.length + 1 := by
  have h1 := length_le_pairsCode ps
  have h2 := congrArg List.length hr
  rw [Reader.rest_length, List.length_append] at h2
  omega

/-! ## Every next state -/

/-- The next states that `exec` answers, by what the command does. -/
inductive Effect (i : Instr) (s : State) : State → Prop
  | nop (e : i = .nop) : Effect i s s.advance
  | halt (e : i = .halt) : Effect i s { s with run := .halted }
  | org (v : BitVec 16) (e : i = .setr .org v) : Effect i s { s with org := v }.advance
  | stride (v : BitVec 16) (e : i = .setr .stride v) : Effect i s { s with stride := v }.advance
  | width (v : BitVec 16) (e : i = .setr .w v) : Effect i s { s with w := v }.advance
  | height (v : BitVec 16) (e : i = .setr .h v) : Effect i s { s with h := v }.advance
  | scale (v : BitVec 16) (e : i = .setr .scale v) : Effect i s { s with scale := v.setWidth 8 }.advance
  | ldval (v : BitVec 16) (e : i = .ldval v) : Effect i s { s with val := v.setWidth 32 }.advance
  | ldvalh (v : BitVec 16) (e : i = .ldvalh v) : Effect i s { s with val := v ++ s.val.extractLsb' 0 16 }.advance
  | clrf (e : i = .clrf) : Effect i s { s with ovf := false }.advance
  /-- A check failed: nothing else has changed (`60_exceptions.md` R245). -/
  | checked (f : FaultCode) (hm : f ∈ mayRaise i) (hf : f = .illegalConfig ∨ f = .addrRange) : Effect i s (s.takeFault f)
  /-- A command has written words of its region. -/
  | plane (a : LiftState) (hi : writesCM i = true) (hfit : s.RegionFits)
      (hw : (i = .unzigzag → IsScan s.side (scanOrder s.cfg.zz s.side)) →
        LiftState.Within (s.InRect s.w.toNat s.h.toNat) ⟨s.cm, s.ovf⟩ a)
      (hs : s.ovf = true → a.ovf = true) (ho : setsOvf i = false → a.ovf = s.ovf) : Effect i s { s with cm := a.cm, ovf := a.ovf }.advance
  | sequence (vs : List Sample) (e : i = .zigzag) (hb : s.BlockSide) :
      Effect i s { s with sq := writeWords s.sq s.sqIndices vs }.advance
  | wrote (w : Writer) (hi : writesOB i = true) (hg : Writer.Grows s.cfg.obBytes s.wr w) :
      Effect i s { s with wr := w }.advance
  | full (hi : writesOB i = true) (hm : FaultCode.outFull ∈ mayRaise i) :
      Effect i s (s.forgetWriter.nextDraw.takeFault .outFull)
  | aligned (e : i = .ralign) : Effect i s { s with rd := s.rd.align }.advance
  | gotVal (x : Nat) (r : Reader) (hi : writesVal i = true ∧ readsIB i = true) (hib : r.ib = s.rd.ib)
      (hl : s.rd.Legal → r.Legal) : Effect i s ({ s with rd := r }.setVal x).advance
  | gotScale (x : Byte) (r : Reader) (e : i = .getscale) (hib : r.ib = s.rd.ib) (hl : s.rd.Legal → r.Legal) :
      Effect i s { s with rd := r, scale := x }.advance
  | gotSq (xs : List Sample) (r : Reader) (e : i = .rledec) (hb : s.BlockSide) (hib : r.ib = s.rd.ib)
      (hl : s.rd.Legal → r.Legal) : Effect i s { s with rd := r, sq := writeWords s.sq s.sqIndices xs }.advance
  | lostVal (f : FaultCode) (hi : writesVal i = true ∧ readsIB i = true) (hm : f ∈ mayRaise i)
      (hf : f = .eof ∨ f = .badCode) : Effect i s (s.forgetReader.forgetVal.nextDraw.takeFault f)
  | lostScale (e : i = .getscale) : Effect i s (s.forgetReader.forgetScale.nextDraw.takeFault .eof)
  | lostSq (f : FaultCode) (e : i = .rledec) (hb : s.BlockSide) (hm : f = .eof ∨ f = .badCode ∨ f = .runOverrun) :
      Effect i s ((State.forgetSq (s.side * s.side) s.forgetReader).nextDraw.takeFault f)

theorem lift_effect {i : Instr} {d : Bool} {work : LiftState → Option LiftState} {s t : State}
    (h : liftCommand d work s = .next t) (hi : writesCM i = true ∧ setsOvf i = true)
    (hm : FaultCode.illegalConfig ∈ mayRaise i ∧ FaultCode.addrRange ∈ mayRaise i)
    (hw : ∀ a, d = true → work ⟨s.cm, s.ovf⟩ = some a →
      LiftState.Within (s.InRect s.w.toNat s.h.toNat) ⟨s.cm, s.ovf⟩ a) : Effect i s t := by
  rcases liftCommand_cases h with ⟨f, hf, rfl⟩ | ⟨a, hd, hfit, ha, rfl⟩
  · exact .checked f (by rcases hf with rfl | rfl; exacts [hm.1, hm.2]) hf
  · exact .plane a hi.1 hfit (fun _ => hw a hd ha) (hw a hd ha).sticky (fun hh => by rw [hi.2] at hh; cases hh)

theorem writer_effect {i : Instr} {work : Writer → Option Writer} {s t : State} (h : writerCommand work s = .next t)
    (hi : writesOB i = true) (hm : FaultCode.outFull ∈ mayRaise i)
    (hg : ∀ w, work s.wr = some w → Writer.Grows s.cfg.obBytes s.wr w) : Effect i s t := by
  rcases writerCommand_cases h with rfl | ⟨w, hw, rfl⟩
  · exact .full hi hm
  · exact .wrote w hi (hg w hw)

theorem val_effect {i : Instr} {fs : List FaultCode} {work : Reader → Except FaultCode (Nat × Reader)} {s t : State}
    (h : readerCommand work State.setVal State.forgetVal s = .next t) (hi : writesVal i = true ∧ readsIB i = true)
    (hw : Reader.Moves fs work) (hm : ∀ f ∈ fs, f ∈ mayRaise i ∧ (f = .eof ∨ f = .badCode)) : Effect i s t := by
  rcases readerCommand_cases h with ⟨f, hf, rfl⟩ | ⟨x, r, hx, rfl⟩
  · exact .lostVal f hi (hm f (hw.raises _ _ hf)).1 (hm f (hw.raises _ _ hf)).2
  · exact .gotVal x r hi (hw.keeps _ _ _ hx).1 (hw.keeps _ _ _ hx).2

theorem State.InRect.of_row {s : State} {n k a : Nat} (hk : k < s.h.toNat) (hn : n ≤ s.w.toNat)
    (h : a ∈ s.rowLine n k) : s.InRect s.w.toNat s.h.toNat a := by
  obtain ⟨c, hc, e⟩ := s.mem_rowLine.1 h
  exact ⟨k, hk, c, by omega, e⟩

theorem State.InRect.of_col {s : State} {n k a : Nat} (hk : k < s.w.toNat) (hn : n ≤ s.h.toNat)
    (h : a ∈ s.colLine n k) : s.InRect s.w.toNat s.h.toNat a := by
  obtain ⟨r, hr, e⟩ := s.mem_colLine.1 h
  exact ⟨r, by omega, k, hk, e⟩

theorem State.mem_blockAddrs {s : State} (hb : s.BlockSide) {a : Nat} (h : a ∈ s.cellAddrs (blockCells s.side)) :
    s.InRect s.w.toNat s.h.toNat a := by
  rw [← hb.1]
  exact (s.mem_cellAddrs (isScan_blockCells _)).1 h

/-- `exec` answers only what `Effect` lists. -/
theorem exec_effect {i : Instr} {s t : State} (h : exec i s = .next t) : Effect i s t := by
  have rowWork : ∀ {step : List Sample → LineResult} {k : Nat} {a : LiftState}, k < s.h.toNat →
      liftLine step (s.rowLine s.w.toNat k) ⟨s.cm, s.ovf⟩ = some a →
      LiftState.Within (s.InRect s.w.toNat s.h.toNat) ⟨s.cm, s.ovf⟩ a := fun hk ha =>
    (liftLine_within ha).mono (fun x hx => State.InRect.of_row hk (Nat.le_refl _) hx)
  have colWork : ∀ {step : List Sample → LineResult} {k : Nat} {a : LiftState}, k < s.w.toNat →
      liftLine step (s.colLine s.h.toNat k) ⟨s.cm, s.ovf⟩ = some a →
      LiftState.Within (s.InRect s.w.toNat s.h.toNat) ⟨s.cm, s.ovf⟩ a := fun hk ha =>
    (liftLine_within ha).mono (fun x hx => State.InRect.of_col hk (Nat.le_refl _) hx)
  have rowIn : ∀ {k : BitVec 16}, s.rowOk k = true → k.toNat < s.h.toNat := fun hd => by
    simp [State.rowOk] at hd; exact hd.2
  have colIn : ∀ {k : BitVec 16}, s.colOk k = true → k.toNat < s.w.toNat := fun hd => by
    simp [State.colOk] at hd; exact hd.2
  cases i with
  | nop => cases h; exact .nop rfl
  | halt => cases h; exact .halt rfl
  | setr reg v =>
    cases reg with
    | org => cases h; exact .org v rfl
    | stride => cases h; exact .stride v rfl
    | w => cases h; exact .width v rfl
    | h => cases h; exact .height v rfl
    | scale => cases h; exact .scale v rfl
  | ldval v => cases h; exact .ldval v rfl
  | ldvalh v => cases h; exact .ldvalh v rfl
  | clrf => cases h; exact .clrf rfl
  | fliftr k => exact lift_effect h ⟨rfl, rfl⟩ (by simp [mayRaise]) (fun a hd ha => rowWork (rowIn hd) ha)
  | fliftc k => exact lift_effect h ⟨rfl, rfl⟩ (by simp [mayRaise]) (fun a hd ha => colWork (colIn hd) ha)
  | iliftr k => exact lift_effect h ⟨rfl, rfl⟩ (by simp [mayRaise]) (fun a hd ha => rowWork (rowIn hd) ha)
  | iliftc k => exact lift_effect h ⟨rfl, rfl⟩ (by simp [mayRaise]) (fun a hd ha => colWork (colIn hd) ha)
  | fdwt2 => exact lift_effect h ⟨rfl, rfl⟩ (by simp [mayRaise]) (fun a _ ha => fwd2D_within ha)
  | idwt2 => exact lift_effect h ⟨rfl, rfl⟩ (by simp [mayRaise]) (fun a _ ha => inv2D_within ha)
  | fdwt2l =>
    simp only [exec, execFdwt2l] at h
    refine lift_effect h ⟨rfl, rfl⟩ (by simp [mayRaise]) (fun a _ ha => ?_)
    obtain ⟨b, h1, h2⟩ := Option.bind_eq_some_iff.1 ha
    exact (fwd2D_within h1).trans ((fwd2D_within h2).mono (fun x hx => hx.mono (Nat.div_le_self _ _) (Nat.div_le_self _ _)))
  | idwt2l =>
    simp only [exec, execIdwt2l] at h
    refine lift_effect h ⟨rfl, rfl⟩ (by simp [mayRaise]) (fun a _ ha => ?_)
    obtain ⟨b, h1, h2⟩ := Option.bind_eq_some_iff.1 ha
    exact ((inv2D_within h1).mono (fun x hx => hx.mono (Nat.div_le_self _ _) (Nat.div_le_self _ _))).trans
      (inv2D_within h2)
  | quant =>
    rcases quantCommand_cases h with ⟨f, hf, rfl⟩ | ⟨vs, hq, hfit, hv, rfl⟩
    · exact .checked f (by rcases hf with rfl | rfl <;> decide) hf
    · refine .plane ⟨_, _⟩ rfl hfit (fun _ => ?_) (fun ho => by simp [ho]) (fun _ => ?_)
      · exact (writeWords_within (fun ho => by simp [ho])).mono
          (fun x hx => State.mem_blockAddrs (s.quantOk_iff.1 hq).1 hx)
      · rw [quantized_overflows]; exact Bool.or_false s.ovf
  | dequant =>
    rcases quantCommand_cases h with ⟨f, hf, rfl⟩ | ⟨vs, hq, hfit, hv, rfl⟩
    · exact .checked f (by rcases hf with rfl | rfl <;> decide) hf
    · refine .plane ⟨_, _⟩ rfl hfit (fun _ => ?_) (fun ho => by simp [ho]) (fun hh => by cases hh)
      exact (writeWords_within (fun ho => by simp [ho])).mono
        (fun x hx => State.mem_blockAddrs (s.quantOk_iff.1 hq).1 hx)
  | zigzag =>
    rcases execZigzag_cases h with ⟨f, hf, rfl⟩ | ⟨vs, hb, hfit, hv, rfl⟩
    · exact .checked f (by rcases hf with rfl | rfl <;> decide) hf
    · exact .sequence vs rfl hb
  | unzigzag =>
    rcases execUnzigzag_cases h with ⟨f, hf, rfl⟩ | ⟨vs, hb, hfit, hv, rfl⟩
    · exact .checked f (by rcases hf with rfl | rfl <;> decide) hf
    · refine .plane ⟨_, s.ovf⟩ rfl hfit (fun hz => ?_) id (fun _ => rfl)
      refine (writeWords_within id).mono (fun x hx => ?_)
      have := (s.mem_cellAddrs (hz rfl)).1 hx
      rwa [State.side, ← hb.1] at *
  | putbits n =>
    exact writer_effect h rfl (by simp [mayRaise]) (fun w hw => Writer.putList_grows (by rwa [Writer.putBits_eq_putList] at hw))
  | flush => exact writer_effect h rfl (by simp [mayRaise]) (fun w hw => Writer.flush_grows hw)
  | putu8 => exact writer_effect h rfl (by simp [mayRaise]) (fun w hw => byteField_grows hw)
  | putu16 => exact writer_effect h rfl (by simp [mayRaise]) (fun w hw => byteField_grows hw)
  | putu32 => exact writer_effect h rfl (by simp [mayRaise]) (fun w hw => byteField_grows hw)
  | putscale => exact writer_effect h rfl (by simp [mayRaise]) (fun w hw => byteField_grows hw)
  | riceenc k =>
    exact writer_effect h rfl (by simp [mayRaise]) (fun w hw => Writer.putList_grows (by rwa [riceEnc_eq_putList] at hw))
  | rleenc =>
    simp only [exec, execRleenc] at h
    split at h
    · cases h; exact .checked _ (by decide) (.inl rfl)
    · split at h
      · cases h
      · rename_i written hw
        exact writer_effect h rfl (by simp [mayRaise]) (fun w e => rleEnc_grows (hw.trans (congrArg some e)))
  | getbits n => exact val_effect h ⟨rfl, rfl⟩ (Reader.getBits_moves _ _) (by simp [mayRaise])
  | ralign => cases h; exact .aligned rfl
  | getu8 =>
    simp only [exec, execGetu8] at h
    exact val_effect h ⟨rfl, rfl⟩ (Reader.field_moves 1) (by simp [mayRaise])
  | getu16 =>
    simp only [exec, execGetu16] at h
    exact val_effect h ⟨rfl, rfl⟩ (Reader.field_moves 2) (by simp [mayRaise])
  | getu32 =>
    simp only [exec, execGetu32] at h
    exact val_effect h ⟨rfl, rfl⟩ (Reader.field_moves 4) (by simp [mayRaise])
  | getscale =>
    simp only [exec, execGetscale] at h
    rcases readerCommand_cases h with ⟨f, hf, rfl⟩ | ⟨x, r, hx, rfl⟩
    · have := Reader.scale_moves.raises _ _ hf
      rw [List.mem_singleton] at this
      subst this
      exact .lostScale rfl
    · exact .gotScale x r rfl (Reader.scale_moves.keeps _ _ _ hx).1 (Reader.scale_moves.keeps _ _ _ hx).2
  | ricedec k => exact val_effect h ⟨rfl, rfl⟩ (riceDec_moves _) (by simp [mayRaise])
  | rledec =>
    simp only [exec, execRledec] at h
    split at h
    · cases h; exact .checked _ (by decide) (.inl rfl)
    · rename_i hb
      have hb : s.BlockSide := s.blockOk_iff.1 (by simpa using hb)
      rcases readerCommand_cases h with ⟨f, hf, rfl⟩ | ⟨x, r, hx, rfl⟩
      · exact .lostSq f rfl hb (by simpa using (rleLoop_moves _ _).raises _ _ hf)
      · exact .gotSq x r rfl hb ((rleLoop_moves _ _).keeps _ _ _ hx).1 ((rleLoop_moves _ _).keeps _ _ _ hx).2

/-! ## What no command changes -/

theorem Effect.cfg {i : Instr} {s t : State} (h : Effect i s t) : t.cfg = s.cfg := by cases h <;> simp

theorem Effect.pm {i : Instr} {s t : State} (h : Effect i s t) : t.pm = s.pm := by cases h <;> simp

theorem Effect.ib {i : Instr} {s t : State} (h : Effect i s t) : t.rd.ib = s.rd.ib := by
  cases h <;> simp [*, Reader.align_ib]

/-- A step takes a fault of the fetch or of the decoder, or executes the decoded command (`45_system.md` R207). -/
theorem step_cases {s t : State} (h : step s = .next t) :
    s.run = .running ∧ ((s.fetch = none ∧ t = s.takeFault .fetchRange) ∨
      (∃ cw e, s.fetch = some cw ∧ decode cw = .error e ∧ t = s.takeFault .illegalCommand) ∨
      ∃ cw i, s.fetch = some cw ∧ decode cw = .ok i ∧ exec i s = .next t) := by
  unfold step at h
  split at h
  · refine ⟨‹_›, ?_⟩
    split at h
    · cases h; exact .inl ⟨‹_›, rfl⟩
    · split at h
      · cases h; exact .inr (.inl ⟨_, _, ‹_›, ‹_›, rfl⟩)
      · exact .inr (.inr ⟨_, _, ‹_›, ‹_›, h⟩)
  · cases h

end Sys2Proof.Machine
end

