-- ==== Sys2Proof/Laws/Encoding.lean ====
section
/-! SUPPORT. The command word and its fields carry the same bits (`30_encoding.md` R71, R75). -/

namespace Sys2Proof

theorem fieldsOf_wordOf (f : Fields) : fieldsOf (wordOf f) = f := by
  obtain ⟨op, a, imm⟩ := f
  have h : ∀ i, (wordOf ⟨op, a, imm⟩).getLsbD i =
      if i < 16 then imm.getLsbD i else if i < 24 then a.getLsbD (i - 16) else op.getLsbD (i - 24) := by
    intro i
    show ((op ++ a) ++ imm).getLsbD i = _
    rw [BitVec.getLsbD_append, BitVec.getLsbD_append]
    split
    · rfl
    · rw [show i - 16 - 8 = i - 24 by omega]
      by_cases h : i < 24
      · rw [if_pos h, if_pos (by omega)]
      · rw [if_neg h, if_neg (by omega)]
  simp only [fieldsOf, Fields.mk.injEq]
  refine ⟨?_, ?_, ?_⟩ <;> refine BitVec.eq_of_getLsbD_eq fun i hi => ?_ <;>
    rw [BitVec.getLsbD_extractLsb', h]
  · rw [if_neg (by omega), if_neg (by omega)]
    simp [hi]
  · rw [if_neg (by omega), if_pos (by omega)]
    simp [hi]
  · rw [if_pos (by omega)]
    simp [hi]

theorem wordOf_fieldsOf (cw : CmdWord) : wordOf (fieldsOf cw) = cw := by
  refine BitVec.eq_of_getLsbD_eq fun i hi => ?_
  show ((cw.extractLsb' 24 8 ++ cw.extractLsb' 16 8) ++ cw.extractLsb' 0 16).getLsbD i = _
  rw [BitVec.getLsbD_append, BitVec.getLsbD_append]
  simp only [BitVec.getLsbD_extractLsb']
  split
  · simp [*]
  · split
    · rw [show 16 + (i - 16) = i by omega]; simp [*]
    · rw [show 24 + (i - 16 - 8) = i by omega]
      simp; omega

/-- The encoder's word read back as fields (`30_encoding.md` R75). -/
theorem fieldsOf_encode (i : Instr) : fieldsOf (encode i) = encodeFields i :=
  fieldsOf_wordOf _

/-- The decoder on an encoder's word is the opcode map on that command's fields. -/
theorem decode_encode_fields (i : Instr) : decode (encode i) = decodeFields (encodeFields i) := by
  rw [decode, fieldsOf_encode]

end Sys2Proof
end

