-- ==== Sys2Proof/Laws/PerInstr.lean ====
section
/-! SUPPORT. The per-command family `EncodedFields`: the fields of a command's word, one lemma per constructor. -/

namespace Sys2Proof.Laws.EncodedFields

/-- `30_encoding.md` R71, R75: the word of the command has the fields of its row, and a well-formed command's fields are
read back as the command. -/
def Statement (i : Sys2Proof.Instr) : Prop :=
  Sys2Proof.fieldsOf (Sys2Proof.encode i) = Sys2Proof.encodeFields i ∧
    (i.WellFormed = true → Sys2Proof.decodeFields (Sys2Proof.encodeFields i) = .ok i)

theorem nop : Statement (.nop) :=
  ⟨Sys2Proof.fieldsOf_encode _, fun _ => rfl⟩

theorem halt : Statement (.halt) :=
  ⟨Sys2Proof.fieldsOf_encode _, fun _ => rfl⟩

theorem setr (reg : Sys2Proof.CtrlReg) (v : BitVec 16) : Statement (.setr reg v) := by
  refine ⟨Sys2Proof.fieldsOf_encode _, fun hw => ?_⟩
  cases reg with
  | scale => exact if_pos (of_decide_eq_true hw)
  | _ => rfl

theorem ldval (v : BitVec 16) : Statement (.ldval v) :=
  ⟨Sys2Proof.fieldsOf_encode _, fun _ => rfl⟩

theorem ldvalh (v : BitVec 16) : Statement (.ldvalh v) :=
  ⟨Sys2Proof.fieldsOf_encode _, fun _ => rfl⟩

theorem clrf : Statement (.clrf) :=
  ⟨Sys2Proof.fieldsOf_encode _, fun _ => rfl⟩

theorem fliftr (row : BitVec 16) : Statement (.fliftr row) :=
  ⟨Sys2Proof.fieldsOf_encode _, fun _ => rfl⟩

theorem fliftc (col : BitVec 16) : Statement (.fliftc col) :=
  ⟨Sys2Proof.fieldsOf_encode _, fun _ => rfl⟩

theorem iliftr (row : BitVec 16) : Statement (.iliftr row) :=
  ⟨Sys2Proof.fieldsOf_encode _, fun _ => rfl⟩

theorem iliftc (col : BitVec 16) : Statement (.iliftc col) :=
  ⟨Sys2Proof.fieldsOf_encode _, fun _ => rfl⟩

theorem fdwt2 : Statement (.fdwt2) :=
  ⟨Sys2Proof.fieldsOf_encode _, fun _ => rfl⟩

theorem idwt2 : Statement (.idwt2) :=
  ⟨Sys2Proof.fieldsOf_encode _, fun _ => rfl⟩

theorem fdwt2l : Statement (.fdwt2l) :=
  ⟨Sys2Proof.fieldsOf_encode _, fun _ => rfl⟩

theorem idwt2l : Statement (.idwt2l) :=
  ⟨Sys2Proof.fieldsOf_encode _, fun _ => rfl⟩

theorem quant : Statement (.quant) :=
  ⟨Sys2Proof.fieldsOf_encode _, fun _ => rfl⟩

theorem dequant : Statement (.dequant) :=
  ⟨Sys2Proof.fieldsOf_encode _, fun _ => rfl⟩

theorem zigzag : Statement (.zigzag) :=
  ⟨Sys2Proof.fieldsOf_encode _, fun _ => rfl⟩

theorem unzigzag : Statement (.unzigzag) :=
  ⟨Sys2Proof.fieldsOf_encode _, fun _ => rfl⟩

theorem putbits (n : BitVec 8) : Statement (.putbits n) := by
  refine ⟨Sys2Proof.fieldsOf_encode _, fun hw => ?_⟩
  exact if_pos (of_decide_eq_true hw)

theorem flush : Statement (.flush) :=
  ⟨Sys2Proof.fieldsOf_encode _, fun _ => rfl⟩

theorem putu8 : Statement (.putu8) :=
  ⟨Sys2Proof.fieldsOf_encode _, fun _ => rfl⟩

theorem putu16 : Statement (.putu16) :=
  ⟨Sys2Proof.fieldsOf_encode _, fun _ => rfl⟩

theorem putu32 : Statement (.putu32) :=
  ⟨Sys2Proof.fieldsOf_encode _, fun _ => rfl⟩

theorem putscale : Statement (.putscale) :=
  ⟨Sys2Proof.fieldsOf_encode _, fun _ => rfl⟩

theorem getbits (n : BitVec 8) : Statement (.getbits n) := by
  refine ⟨Sys2Proof.fieldsOf_encode _, fun hw => ?_⟩
  exact if_pos (of_decide_eq_true hw)

theorem ralign : Statement (.ralign) :=
  ⟨Sys2Proof.fieldsOf_encode _, fun _ => rfl⟩

theorem getu8 : Statement (.getu8) :=
  ⟨Sys2Proof.fieldsOf_encode _, fun _ => rfl⟩

theorem getu16 : Statement (.getu16) :=
  ⟨Sys2Proof.fieldsOf_encode _, fun _ => rfl⟩

theorem getu32 : Statement (.getu32) :=
  ⟨Sys2Proof.fieldsOf_encode _, fun _ => rfl⟩

theorem getscale : Statement (.getscale) :=
  ⟨Sys2Proof.fieldsOf_encode _, fun _ => rfl⟩

theorem riceenc (kk : BitVec 8) : Statement (.riceenc kk) := by
  refine ⟨Sys2Proof.fieldsOf_encode _, fun hw => ?_⟩
  exact if_pos (of_decide_eq_true hw)

theorem ricedec (kk : BitVec 8) : Statement (.ricedec kk) := by
  refine ⟨Sys2Proof.fieldsOf_encode _, fun hw => ?_⟩
  exact if_pos (of_decide_eq_true hw)

theorem rleenc : Statement (.rleenc) :=
  ⟨Sys2Proof.fieldsOf_encode _, fun _ => rfl⟩

theorem rledec : Statement (.rledec) :=
  ⟨Sys2Proof.fieldsOf_encode _, fun _ => rfl⟩

end Sys2Proof.Laws.EncodedFields
end

