-- ==== Sys2Proof/Tests/Slice0.lean ====
section
/-! SUPPORT. Tests: the checks of `WellFormed`, words written out bit by bit from `30_encoding.md` R74, single steps with
the results of `95_test_vectors.md`, and a witness for the hypotheses of every statement that has some. -/

namespace Sys2Proof.Tests

open Sys2Proof Sys2Proof.Machine

/-! ## Well-formed commands (`30_encoding.md` R74, "legal operand values") -/

theorem test_wellFormed_limits :
    Instr.WellFormed (.setr .scale 255) = true ∧ Instr.WellFormed (.setr .w 65535) = true ∧
    Instr.WellFormed (.putbits 32) = true ∧ Instr.WellFormed (.getbits 32) = true ∧
    Instr.WellFormed (.riceenc 15) = true ∧ Instr.WellFormed (.ricedec 15) = true := by decide

theorem test_setr_scale_256_illFormed : Instr.WellFormed (.setr .scale 256) = false := by decide
theorem test_putbits_33_illFormed : Instr.WellFormed (.putbits 33) = false := by decide
theorem test_getbits_33_illFormed : Instr.WellFormed (.getbits 33) = false := by decide
theorem test_riceenc_16_illFormed : Instr.WellFormed (.riceenc 16) = false := by decide
theorem test_ricedec_16_illFormed : Instr.WellFormed (.ricedec 16) = false := by decide

/-! ## Words, written out from R71 (op 31:24, a 23:16, imm 15:0) and R74 -/

theorem test_decode_system :
    decode 0b00000001000000000000000000000000 = .ok .nop ∧
    decode 0b00000010000000000000000000000000 = .ok .halt ∧
    decode 0b00000011000000010000000000001010 = .ok (.setr .stride 10) ∧
    decode 0b00000011000001000000000011111111 = .ok (.setr .scale 255) ∧
    decode 0b00000100000000001000000000000001 = .ok (.ldval 0x8001) ∧
    decode 0b00000101000000000001001000110100 = .ok (.ldvalh 0x1234) ∧
    decode 0b00000110000000000000000000000000 = .ok .clrf := by decide

theorem test_decode_lifting :
    decode 0b00010000000000000000000000000011 = .ok (.fliftr 3) ∧
    decode 0b00010001000000001000000000000000 = .ok (.fliftc 32768) ∧
    decode 0b00010010000000000000000000000001 = .ok (.iliftr 1) ∧
    decode 0b00010011000000001111111111111111 = .ok (.iliftc 65535) ∧
    decode 0b00010100000000000000000000000000 = .ok .fdwt2 ∧
    decode 0b00010101000000000000000000000000 = .ok .idwt2 ∧
    decode 0b00010110000000000000000000000000 = .ok .fdwt2l ∧
    decode 0b00010111000000000000000000000000 = .ok .idwt2l := by decide

theorem test_decode_quantizer_and_scanner :
    decode 0b00100000000000000000000000000000 = .ok .quant ∧
    decode 0b00100001000000000000000000000000 = .ok .dequant ∧
    decode 0b00101000000000000000000000000000 = .ok .zigzag ∧
    decode 0b00101001000000000000000000000000 = .ok .unzigzag := by decide

theorem test_decode_bitstream :
    decode 0b00110000001000000000000000000000 = .ok (.putbits 32) ∧
    decode 0b00110001000000000000000000000000 = .ok .flush ∧
    decode 0b00110010000000000000000000000000 = .ok .putu8 ∧
    decode 0b00110011000000000000000000000000 = .ok .putu16 ∧
    decode 0b00110100000000000000000000000000 = .ok .putu32 ∧
    decode 0b00110101000000000000000000000000 = .ok .putscale ∧
    decode 0b00111000000000010000000000000000 = .ok (.getbits 1) ∧
    decode 0b00111001000000000000000000000000 = .ok .ralign ∧
    decode 0b00111010000000000000000000000000 = .ok .getu8 ∧
    decode 0b00111011000000000000000000000000 = .ok .getu16 ∧
    decode 0b00111100000000000000000000000000 = .ok .getu32 ∧
    decode 0b00111101000000000000000000000000 = .ok .getscale := by decide

theorem test_decode_entropy :
    decode 0b01000000000011110000000000000000 = .ok (.riceenc 15) ∧
    decode 0b01000001000000000000000000000000 = .ok (.ricedec 0) ∧
    decode 0b01000010000000000000000000000000 = .ok .rleenc ∧
    decode 0b01000011000000000000000000000000 = .ok .rledec := by decide

/-- Words that R77 lists as illegal: the all-zero and the all-one word, a field that must be zero, a register number, a
bit count, a Rice parameter, the Haar kernel. -/
theorem test_decode_illegal :
    decode 0x00000000 = .error .unassignedOpcode ∧ decode 0xFFFFFFFF = .error .unassignedOpcode ∧
    decode 0x01000001 = .error .fieldNotZero ∧ decode 0x03050000 = .error .operandOutOfRange ∧
    decode 0x30210000 = .error .operandOutOfRange ∧ decode 0x40100000 = .error .operandOutOfRange ∧
    decode 0x14010000 = .error .kernelNotZero ∧ decode 0x10010000 = .error .kernelNotZero := by decide

theorem test_decodeTableWord : decodeTableWord 32 0x30200000 = some (.putbits 32) ∧ decodeTableWord 32 0x36000000 = none := by
  decide

/-! ## States -/

/-- Running, as after `H_START`. -/
def running : State := { State.reset with run := .running }

/-- Words at consecutive addresses from `a`. -/
def wordsAt (a : Nat) (vs : List Int) : Memory 16 :=
  vs.mapIdx (fun i v => (a + i, BitVec.ofInt 16 v))

/-- A running block whose region is `w × h` at `ORG = 0` with `STRIDE = w`. -/
def plane (w h : BitVec 16) (vs : List Int) : State :=
  { running with w := w, h := h, stride := w, cm := wordsAt 0 vs }

def withOutput (cap : Nat) (val : BitVec 32) (wr : Writer) : State :=
  { running with cfg := { Config.default with obBytes := cap }, val := val, wr := wr }

def withInput (ib : List Byte) (rpos : BitVec 32) (rbit : BitVec 3) : State :=
  { running with rd := { ib := ib, rpos := rpos, rbit := rbit } }

/-- Input for the decoder of an 8 × 8 block. -/
def blockInput (ib : List Byte) : State :=
  { withInput ib 0 0 with w := 8, h := 8 }

/-- The next state, where there is one. -/
def next? (o : Host.Outcome State Fault Refusal) : Option State :=
  match o with
  | .next t => some t
  | _ => none

/-- Words of `CM` as integers. -/
def ints (m : Memory 16) (as : List Nat) : Option (List Int) :=
  (readWords m as).map (fun vs => vs.map BitVec.toInt)

/-! ## One step each -/

theorem test_setr : (next? (exec (.setr .org 0x1234) running)).map (fun t => (t.org, t.stride, t.pc)) =
    some (0x1234, 16, 1) := by decide

theorem test_ldval_then_ldvalh :
    (next? (exec (.ldvalh 0xABCD) { running with val := 0x11112222 })).map (·.val) = some 0xABCD2222 ∧
    (next? (exec (.ldval 0xFFFF) { running with val := 0x11112222 })).map (·.val) = some 0x0000FFFF := by decide

theorem test_halt : (next? (exec .halt { running with pc := 3 })).map (fun t => (t.run, t.pc)) = some (.halted, 3) := by
  decide

/-- VL-7 of `95_test_vectors.md`. -/
theorem test_fliftr : (next? (exec (.fliftr 0) (plane 8 1 [3, 1, 4, 1, 5, 9, 2, 6]))).bind
    (fun t => ints t.cm [0, 1, 2, 3, 4, 5, 6, 7]) = some [2, 3, 6, 5, -2, -3, 6, 4] := by decide

theorem test_iliftr : (next? (exec (.iliftr 0) (plane 8 1 [2, 3, 6, 5, -2, -3, 6, 4]))).bind
    (fun t => ints t.cm [0, 1, 2, 3, 4, 5, 6, 7]) = some [3, 1, 4, 1, 5, 9, 2, 6] := by decide

/-- VO-3, `wide`: the line and `OVF`. -/
theorem test_fliftr_ovf : (next? (exec (.fliftr 0) (plane 4 1 [32767, 32767, 32767, 32767]))).map
    (fun t => (ints t.cm [0, 1, 2, 3], t.ovf)) = some (some [32767, 32767, 0, 0], true) := by decide

/-- VL-3 in column 1; the other column is untouched. -/
theorem test_fliftc : (next? (exec (.fliftc 1) (plane 2 2 [9, -7, 8, 12]))).bind
    (fun t => ints t.cm [0, 1, 2, 3]) = some [9, 3, 8, 19] := by decide

theorem test_iliftc : (next? (exec (.iliftc 1) (plane 2 2 [9, 3, 8, 19]))).bind
    (fun t => ints t.cm [0, 1, 2, 3]) = some [9, -7, 8, 12] := by decide

/-- The region of V2D-3. -/
def inner (vs : List Int) : State :=
  { running with org := 100, stride := 10, w := 4, h := 2, cm := wordsAt 100 vs }

/-- V2D-3: a region inside a larger plane, not square. -/
theorem test_fdwt2 : (next? (exec .fdwt2 (inner [9, 7, 3, 5, 77, 77, 77, 77, 77, 77, 1, 8, 2, 6]))).bind
    (fun t => ints t.cm [100, 101, 102, 103, 104, 109, 110, 111, 112, 113]) =
    some [8, 5, 4, 3, 77, 77, -5, 1, 6, 2] := by decide

theorem test_idwt2 : (next? (exec .idwt2 (inner [8, 5, 4, 3, 77, 77, 77, 77, 77, 77, -5, 1, 6, 2]))).bind
    (fun t => ints t.cm [100, 101, 102, 103, 104, 109, 110, 111, 112, 113]) =
    some [9, 7, 3, 5, 77, 77, 1, 8, 2, 6] := by decide

/-- By hand from R111 and R119 on the 4 × 4 ramp `4r + c`: rows become `[4r, 4r + 2, 0, 1]`, the first two columns
`[0, 9, 0, 4]` and `[2, 11, 0, 4]`; the second level works on `[[0, 2], [9, 11]]` alone: rows `[1, 2]` and `[10, 2]`, then
columns `[6, 9]` and `[2, 0]`. -/
theorem test_fdwt2l : (next? (exec .fdwt2l (plane 4 4 [0, 1, 2, 3, 4, 5, 6, 7, 8, 9, 10, 11, 12, 13, 14, 15]))).bind
    (fun t => ints t.cm [0, 1, 4, 5, 2, 3, 8, 12]) = some [6, 2, 9, 0, 0, 1, 0, 4] := by decide

theorem test_idwt2l : (next? (exec .fdwt2l (plane 4 4 [0, 1, 2, 3, 4, 5, 6, 7, 8, 9, 10, 11, 12, 13, 14, 15]))).bind
    (fun t => (next? (exec .idwt2l t)).bind (fun u => ints u.cm [0, 1, 4, 5, 10, 15])) = some [0, 1, 4, 5, 10, 15] := by
  decide +kernel

/-- A block with one value in each zone: `blk(0, 0)`, `blk(0, 2)` and `blk(7, 7)`. -/
def zones (a b c : Int) : State :=
  { plane 8 8 (a :: 0 :: b :: List.replicate 60 0 ++ [c]) with scale := 0 }

/-- Shifts 0, 2 and 5 (R131, R132); `Q(-6, 2) = -2` and `Q(-48, 5) = -2` of VQ-A. -/
theorem test_quant : (next? (exec .quant (zones 17 (-6) (-48)))).bind (fun t => ints t.cm [0, 2, 63]) =
    some [17, -2, -2] := by decide +kernel

/-- `DQ(1024, 5) = -32768` with `OVF` of VQ-A. -/
theorem test_dequant : (next? (exec .dequant (zones 17 (-2) 1024))).map
    (fun t => (ints t.cm [0, 2, 63], t.ovf)) = some (some [17, -8, -32768], true) := by decide +kernel

/-- The block `10r + c` of VZ-2. -/
def ramp : State :=
  plane 8 8 ((List.range 64).map (fun i => ((10 * (i / 8) + i % 8 : Nat) : Int)))

/-- VZ-2 [ZZ]. -/
theorem test_zigzag : (next? (exec .zigzag ramp)).bind
    (fun t => ints t.sq [0, 1, 2, 3, 4, 5, 6, 7, 8, 9, 10, 11, 12, 13, 14, 15, 35, 36, 62, 63]) =
    some [0, 1, 10, 20, 11, 2, 3, 12, 21, 30, 40, 31, 22, 13, 4, 5, 70, 71, 76, 77] := by decide +kernel

/-- A sequence `SQ[i] = i`: by VZ-2 it goes to positions (0,0), (0,1), (1,0), (2,0), … -/
def sequence64 : State :=
  { plane 8 8 [] with sq := wordsAt 0 ((List.range 64).map (fun i => (i : Int))) }

theorem test_unzigzag : (next? (exec .unzigzag sequence64)).bind
    (fun t => ints t.cm [0, 1, 8, 16, 9, 2, 63]) = some [0, 1, 2, 3, 4, 5, 63] := by decide +kernel

/-- VB-1 steps 1, 2. -/
theorem test_putbits : (next? (exec (.putbits 6) (withOutput 10 0x3F ⟨[], 0xA0, 3⟩))).map (·.wr) =
    some ⟨[0xBF], 0x80, 1⟩ := by decide

theorem test_flush : (next? (exec .flush (withOutput 10 0 ⟨[0xBF], 0x80, 1⟩))).map (·.wr) =
    some ⟨[0xBF, 0x80], 0, 0⟩ := by decide

/-- VB-1 step 8, VB-3. -/
theorem test_byte_fields :
    (next? (exec .putu8 (withOutput 10 0x12345678 ⟨[], 0, 0⟩))).map (·.wr.ob) = some [0x78] ∧
    (next? (exec .putu16 (withOutput 10 0x12345678 ⟨[], 0x10, 4⟩))).map (·.wr) = some ⟨[0x10, 0x56, 0x78], 0, 0⟩ ∧
    (next? (exec .putu32 (withOutput 10 0x12345678 ⟨[], 0, 0⟩))).map (·.wr.ob) = some [0x12, 0x34, 0x56, 0x78] ∧
    (next? (exec .putscale { withOutput 10 0 ⟨[], 0, 0⟩ with scale := 200 })).map (·.wr.ob) = some [0xC8] := by
  decide

/-- VB-4: the second byte does not fit; `OB[0..OLEN)` of before and the fault registers are all that is known. -/
theorem test_outFull : (next? (exec .putu16 (withOutput 1 0xABCD ⟨[], 0, 0⟩))).map (fun t => (t.run, t.fcode, t.fpc)) =
    some (.faulted, some .outFull, 0) := by rfl

/-- VB-2. -/
theorem test_getbits : (next? (exec (.getbits 6) (withInput [0xBF, 0x80] 0 3))).map (fun t => (t.val, t.rd.rpos, t.rd.rbit)) =
    some (0x3F, 1, 1) := by decide

theorem test_getbits_eof : (next? (exec (.getbits 17) (withInput [0xBF, 0x80] 0 0))).map (fun t => (t.fcode, t.pc)) =
    some (some .eof, 0) := by rfl

theorem test_ralign : (next? (exec .ralign (withInput [0xBF, 0x80] 1 1))).map (fun t => (t.rd.rpos, t.rd.rbit)) =
    some (2, 0) := by decide

theorem test_byte_reads :
    (next? (exec .getu8 (withInput [0xBF, 0x80] 0 3))).map (fun t => (t.val, t.rd.rpos)) = some (0x80, 2) ∧
    (next? (exec .getu16 (withInput [0x00, 0x40] 0 0))).map (·.val) = some 64 ∧
    (next? (exec .getu32 (withInput [0x12, 0x34, 0x56, 0x78] 0 0))).map (·.val) = some 0x12345678 ∧
    (next? (exec .getscale (withInput [0xC8] 0 0))).map (·.scale) = some 200 := by decide

/-- VR-1: 10 with `k` = 3 is `10 010`, the byte 90 after five bits. -/
theorem test_riceenc : (next? (exec (.riceenc 3) (withOutput 10 10 ⟨[], 0, 0⟩))).map (·.wr) = some ⟨[], 0x90, 5⟩ := by
  decide

/-- VR-2. -/
theorem test_ricedec : (next? (exec (.ricedec 15) (withInput [0xBF, 0xFF, 0x80] 0 0))).map
    (fun t => (t.val, t.rd.rpos, t.rd.rbit)) = some (65535, 2, 1) := by decide

theorem test_ricedec_badCode : (next? (exec (.ricedec 15) (withInput [0xC0] 0 0))).map (fun t => (t.fcode, t.pc)) =
    some (some .badCode, 0) := by rfl

/-- VE-1 without its scale byte: 7, 7, 7, -2, then 60 zeros; the decoder reads the bytes back. -/
theorem test_rleenc : (next? (exec .rleenc
      { withOutput 20 0 ⟨[], 0, 0⟩ with w := 8, h := 8, sq := wordsAt 0 ([7, 7, 7, -2] ++ List.replicate 60 0) })).map
     (fun t => (t.wr.ob, t.wr.wcnt)) =
    some ([0xA0, 0x00, 0xED, 0xFF, 0xFB, 0xFF, 0xFF, 0xFF, 0xF0, 0x00], 6) := by decide +kernel

/-- Two words written, 7 and 8, and no third: the pair (1, 7) is met before the third word. -/
def twoWords (cap : Nat) : State :=
  { withOutput cap 0 ⟨[], 0, 0⟩ with w := 8, h := 8, sq := wordsAt 0 [7, 8] }

/-- By hand from R188 and R243 item 6: (1, 7) is 18 bits, so with one byte of room `OutFull` comes before the third word is
reached, and with two it is reached (R273). -/
theorem test_rleenc_order :
    (next? (exec .rleenc (twoWords 1))).map (fun t => (t.run, t.fcode, t.pc)) = some (.faulted, some .outFull, 0) ∧
    exec .rleenc (twoWords 2) = .refused (.unwritten .sq) := ⟨rfl, rfl⟩

theorem test_rledec : (next? (exec .rledec (blockInput
      [0xA0, 0x00, 0xED, 0xFF, 0xFB, 0xFF, 0xFF, 0xFF, 0xF0, 0x00, 0x00]))).map
    (fun t => (ints t.sq [0, 1, 2, 3, 4, 63], t.rd.rpos, t.rd.rbit)) =
    some (some [7, 7, 7, -2, 0, 0], 10, 6) := by decide

/-- The first step after reset runs the word placed for it. -/
theorem test_withFetchWord : (next? (step (State.reset.withFetchWord 32 0x04001234))).map (fun t => (t.val, t.pc, t.run)) =
    some (0x1234, 1, .running) := by decide

/-- R51, R35: the host sees the `Int16`. -/
theorem test_host_reads_int16 : hostRead (.cm 0) { State.reset with cm := wordsAt 0 [-1] } = .ok (-1) ∧
    hostRead (.sq 1023) { State.reset with sq := wordsAt 1023 [-32768] } = .ok (-32768) := ⟨rfl, rfl⟩

/-- R28 by hand: three pending bits `101` are `WCNT` = 3 and `WACC` = 0xA0, so `WSTATE` = 0x3A0; `OVF` and `HALTED` are
`STATUS` = 6. -/
theorem test_host_reads_registers :
    hostRead (.reg 9) { State.reset with wr := ⟨[], 0xA0, 3⟩ } = .ok 0x3A0 ∧
    hostRead (.reg 5) { State.reset with ovf := true, run := .halted } = .ok 6 := ⟨rfl, rfl⟩

/-! ## Witnesses: states and operands that meet the hypotheses of the statements -/

/-- A program of one word, at its first index. -/
def loaded (cw : CmdWord) : State :=
  { running with pm := [cw] }

theorem witness_illegalWord : (loaded 0).run = .running ∧ (loaded 0).pm[(loaded 0).pc.toNat]? = some 0 ∧
    decode 0 = .error .unassignedOpcode := by decide

theorem witness_stepRuns : (loaded 0x01000000).run = .running ∧
    (loaded 0x01000000).pm[(loaded 0x01000000).pc.toNat]? = some 0x01000000 ∧ decode 0x01000000 = .ok .nop := by decide

/-- Both clauses; the first at its boundary, `pc = PLEN`. -/
theorem witness_stepWithoutACommand :
    (running.run = .running ∧ running.pm.length ≤ running.pc.toNat ∧ running.pm.length = running.pc.toNat) ∧
    State.reset.run ≠ .running := by decide

theorem witness_halt : running.run = .running ∧ ∃ t, exec .halt running = .next t ∧ t.run = .halted :=
  ⟨rfl, _, rfl, rfl⟩

theorem witness_setr : (fieldsOf 0x030400FF).op = 0x03 ∧ (255#16).toNat ≤ 255 := by decide

theorem witness_ldvalh : ∃ t, exec (.ldvalh 7) running = .next t ∧ ∃ t', exec (.ldval 5) t = .next t' :=
  ⟨_, rfl, _, rfl⟩

/-- A line of the smallest length, for the statements about one lifting step. -/
theorem witness_line : ([1, 2] : List Sample).length % 2 = 0 ∧ 2 ≤ ([1, 2] : List Sample).length := by decide

theorem witness_noOverflow : (fLift .wide [1, 2]).ovf = false ∧ (iLift .wrap16 [1, 2]).ovf = false := by decide

/-- The last row and the last column of a 2 × 2 region that ends where it can. -/
theorem witness_lineCommands :
    (DimensionsOk (.fliftr 1) (plane 2 2 [1, 2, 3, 4]) ∧ DimensionsOk (.fliftc 1) (plane 2 2 [1, 2, 3, 4])) ∧
    (plane 2 2 [1, 2, 3, 4]).RegionFits ∧
    (∀ c < (plane 2 2 [1, 2, 3, 4]).w.toNat,
      Memory.read (plane 2 2 [1, 2, 3, 4]).cm ((plane 2 2 [1, 2, 3, 4]).blkAddr 1 c) = ([3, 4] : List Sample)[c]?) ∧
    (∀ r < (plane 2 2 [1, 2, 3, 4]).h.toNat,
      Memory.read (plane 2 2 [1, 2, 3, 4]).cm ((plane 2 2 [1, 2, 3, 4]).blkAddr r 1) = ([2, 4] : List Sample)[r]?) ∧
    ([3, 4] : List Sample).length = (plane 2 2 [1, 2, 3, 4]).w.toNat ∧
    ([2, 4] : List Sample).length = (plane 2 2 [1, 2, 3, 4]).h.toNat :=
  ⟨⟨⟨by decide, by decide⟩, ⟨by decide, by decide⟩⟩, by decide, by decide, by decide, by decide, by decide⟩

theorem witness_plane : DimensionsOk .fdwt2 (plane 2 2 [1, 2, 3, 4]) ∧ (plane 2 2 [1, 2, 3, 4]).RegionFits ∧
    (plane 2 2 [1, 2, 3, 4]).RegionWritten :=
  ⟨⟨by decide, by decide⟩, by decide, by decide⟩

/-- Sixteen words, for a 4 × 4 region. -/
def quad : State :=
  plane 4 4 [0, 1, 2, 3, 4, 5, 6, 7, 8, 9, 10, 11, 12, 13, 14, 15]

theorem witness_twoLevels : DimensionsOk .fdwt2l quad ∧ quad.RegionFits ∧ quad.RegionWritten :=
  ⟨⟨by decide, by decide⟩, by decide, by decide⟩

/-- The three clauses of the checks: an odd width; `STRIDE` one below `W`; a last row that ends one word beyond `CM`. -/
theorem witness_regionChecks :
    (usesRegion .fdwt2 = true ∧ ¬ DimensionsOk .fdwt2 (plane 3 2 [])) ∧
    (DimensionsOk .fdwt2 { plane 4 2 [] with stride := 3 } ∧ ({ plane 4 2 [] with stride := 3 } : State).stride.toNat < 4) ∧
    (DimensionsOk .fdwt2 { plane 4 2 [] with org := 4089 } ∧
      ({ plane 4 2 [] with org := 4089 } : State).cfg.cmWords = 4089 + (2 - 1) * 4 + 4 - 1) ∧
    ({ plane 4 2 [] with org := 4088 } : State).RegionFits :=
  ⟨⟨rfl, fun h => absurd h.1.1 (by decide)⟩, ⟨⟨by decide, by decide⟩, by decide⟩,
    ⟨⟨by decide, by decide⟩, by decide⟩, by decide⟩

theorem legal_default : LegalConfig Config.default :=
  ⟨by decide, by decide, by decide, by decide, isScan_diagonalScan (by decide), isScan_diagonalScan (by decide),
    isScan_diagonalScan (by decide)⟩

/-- The word just after the region, while a row of it is transformed. -/
theorem witness_outsideRegion : LegalConfig (plane 2 2 [1, 2, 3, 4, 5]).cfg ∧
    (∃ t, exec (.fliftr 0) (plane 2 2 [1, 2, 3, 4, 5]) = .next t) ∧ (plane 2 2 [1, 2, 3, 4, 5]).OutsideRegion 4 :=
  ⟨legal_default, ⟨_, rfl⟩, by decide⟩

/-- An 8 × 8 region of which only the last word is missing, and an unwritten sequence. -/
def gap : State :=
  plane 8 8 (List.replicate 63 0)

theorem witness_unwritten :
    gap.RegionFits ∧ ¬ gap.RegionWritten ∧
    (DimensionsOk .fdwt2 gap ∧ DimensionsOk .idwt2 gap ∧ DimensionsOk .fdwt2l gap ∧ DimensionsOk .idwt2l gap ∧
      DimensionsOk .quant gap ∧ DimensionsOk .dequant gap ∧ DimensionsOk .zigzag gap ∧ DimensionsOk .unzigzag gap) ∧
    IsScan gap.w.toNat (scanOrder gap.cfg.zz gap.w.toNat) ∧
    (DimensionsOk (.fliftr 7) gap ∧ DimensionsOk (.iliftr 7) gap ∧
      ∃ c < gap.w.toNat, Memory.read gap.cm (gap.blkAddr (7#16).toNat c) = none) ∧
    (DimensionsOk (.fliftc 7) gap ∧ DimensionsOk (.iliftc 7) gap ∧
      ∃ r < gap.h.toNat, Memory.read gap.cm (gap.blkAddr r (7#16).toNat) = none) ∧
    ∃ j < gap.w.toNat * gap.w.toNat, Memory.read gap.sq j = none :=
  ⟨by decide, by decide,
    ⟨⟨by decide, by decide⟩, ⟨by decide, by decide⟩, ⟨by decide, by decide⟩, ⟨by decide, by decide⟩,
      ⟨by decide, by decide⟩, ⟨by decide, by decide⟩, ⟨by decide, by decide⟩, ⟨by decide, by decide⟩⟩,
    isScan_diagonalScan (n := 8) (by decide),
    ⟨⟨by decide, by decide⟩, ⟨by decide, by decide⟩, 7, by decide, by decide⟩,
    ⟨⟨by decide, by decide⟩, ⟨by decide, by decide⟩, 7, by decide, by decide⟩,
    63, by decide, rfl⟩

/-- Room for exactly the two whole bytes of the one pair that ends before the unwritten word. -/
theorem witness_rleencUnwritten : (twoWords 2).BlockSide ∧ (twoWords 2).wr.Legal ∧
    (twoWords 2).wr.ob.length ≤ (twoWords 2).cfg.obBytes ∧
    ([7, 8] : List Sample).length < (twoWords 2).w.toNat * (twoWords 2).w.toNat ∧
    (∀ j ≤ ([7, 8] : List Sample).length, Memory.read (twoWords 2).sq j = ([7, 8] : List Sample)[j]?) ∧
    (twoWords 2).wr.HasRoom (twoWords 2).cfg.obBytes (pairsCode (runs [7, 8]).dropLast).length := by decide

/-- The clauses of the value functions at the ends of their ranges. -/
theorem witness_quantizer :
    (1 ≤ 1 ∧ (15 : Int).natAbs < 2 ^ (5 - 1)) ∧ quantized (BitVec.toInt (-32768#16)) 16 ≠ 0 ∧
    (-32768 ≤ dequantized (quantized 1 1) 1 ∧ dequantized (quantized 1 1) 1 ≤ 32767) := by decide

theorem witness_block : DimensionsOk .quant (zones 17 (-6) (-48)) ∧ DimensionsOk .dequant (zones 17 (-6) (-48)) ∧
    (zones 17 (-6) (-48)).RegionFits ∧ (zones 17 (-6) (-48)).RegionWritten ∧
    Memory.read (zones 17 (-6) (-48)).cm ((zones 17 (-6) (-48)).blkAddr 7 7) = some (-48) :=
  ⟨⟨by decide, by decide⟩, ⟨by decide, by decide⟩, by decide, by decide, by decide⟩

theorem witness_defaultScan : 1 ≤ 1 := by decide

theorem witness_zigzag : DimensionsOk .zigzag ramp ∧ ramp.BlockSide ∧ ramp.RegionFits ∧ ramp.RegionWritten ∧
    IsScan ramp.w.toNat (scanOrder ramp.cfg.zz ramp.w.toNat) ∧
    (scanOrder ramp.cfg.zz ramp.w.toNat)[63]? = some (7, 7) :=
  ⟨⟨by decide, by decide⟩, by decide, by decide, by decide, isScan_diagonalScan (n := 8) (by decide),
    by decide⟩

theorem witness_unzigzag : DimensionsOk .unzigzag sequence64 ∧ sequence64.BlockSide ∧ sequence64.RegionFits ∧
    (∀ i < sequence64.w.toNat * sequence64.w.toNat, (Memory.read sequence64.sq i).isSome) ∧
    IsScan sequence64.w.toNat (scanOrder sequence64.cfg.zz sequence64.w.toNat) ∧
    (scanOrder sequence64.cfg.zz sequence64.w.toNat)[0]? = some (0, 0) :=
  ⟨⟨by decide, by decide⟩, by decide, by decide, by decide, isScan_diagonalScan (n := 8) (by decide),
    by decide⟩

/-- Eight bits where just one byte fits. -/
theorem witness_putbits : (8#8).toNat ≤ 32 ∧ (withOutput 1 0xAB ⟨[], 0, 0⟩).wr.Legal ∧
    (withOutput 1 0xAB ⟨[], 0, 0⟩).wr.HasRoom (withOutput 1 0xAB ⟨[], 0, 0⟩).cfg.obBytes (8#8).toNat := by decide

theorem witness_flush :
    (withOutput 1 0 ⟨[], 0, 0⟩).wr.wcnt = 0 ∧
    ((withOutput 1 0 ⟨[], 0x80, 1⟩).wr.Legal ∧ (withOutput 1 0 ⟨[], 0x80, 1⟩).wr.wcnt ≠ 0 ∧
      (withOutput 1 0 ⟨[], 0x80, 1⟩).wr.ob.length < (withOutput 1 0 ⟨[], 0x80, 1⟩).cfg.obBytes ∧
      ∃ t, exec .flush (withOutput 1 0 ⟨[], 0x80, 1⟩) = .next t) :=
  ⟨by decide, by decide, by decide, by decide, _, rfl⟩

/-- Each byte field with room for exactly its bytes and the pending one. -/
theorem witness_byteFields :
    (withOutput 2 0 ⟨[], 0x80, 1⟩).wr.padded.length + 1 ≤ (withOutput 2 0 ⟨[], 0x80, 1⟩).cfg.obBytes ∧
    (withOutput 3 0 ⟨[], 0x80, 1⟩).wr.padded.length + 2 ≤ (withOutput 3 0 ⟨[], 0x80, 1⟩).cfg.obBytes ∧
    (withOutput 5 0 ⟨[], 0x80, 1⟩).wr.padded.length + 4 ≤ (withOutput 5 0 ⟨[], 0x80, 1⟩).cfg.obBytes ∧
    (withOutput 2 0 ⟨[], 0x80, 1⟩).wr.wcnt ≠ 0 ∧ (withOutput 2 0 ⟨[], 0, 0⟩).wr.Legal := by decide

/-- A full `OB` with a pending bit: seven more bits, a flush, every byte field and every code of that length fault. -/
theorem witness_outFull :
    (withOutput 0 0 ⟨[], 0x80, 1⟩).wr.ob.length ≤ (withOutput 0 0 ⟨[], 0x80, 1⟩).cfg.obBytes ∧
    (withOutput 0 0 ⟨[], 0x80, 1⟩).wr.Legal ∧
    ¬ (withOutput 0 0 ⟨[], 0x80, 1⟩).wr.HasRoom (withOutput 0 0 ⟨[], 0x80, 1⟩).cfg.obBytes (7#8).toNat ∧
    ((withOutput 0 0 ⟨[], 0x80, 1⟩).wr.wcnt ≠ 0 ∧
      (withOutput 0 0 ⟨[], 0x80, 1⟩).wr.ob.length = (withOutput 0 0 ⟨[], 0x80, 1⟩).cfg.obBytes) ∧
    (withOutput 0 0 ⟨[], 0x80, 1⟩).cfg.obBytes < (withOutput 0 0 ⟨[], 0x80, 1⟩).wr.padded.length + 1 ∧
    (withOutput 1 0 ⟨[], 0, 0⟩).cfg.obBytes < (withOutput 1 0 ⟨[], 0, 0⟩).wr.padded.length + 2 ∧
    (withOutput 3 0 ⟨[], 0, 0⟩).cfg.obBytes < (withOutput 3 0 ⟨[], 0, 0⟩).wr.padded.length + 4 ∧
    ¬ (withOutput 0 0 ⟨[], 0x80, 1⟩).wr.HasRoom (withOutput 0 0 ⟨[], 0x80, 1⟩).cfg.obBytes
      (riceCode (6#8).toNat ((withOutput 0 0 ⟨[], 0x80, 1⟩).val.toNat % 65536)).length := by decide

theorem witness_stateAfterOutFull : ∃ t, exec .flush (withOutput 0 0 ⟨[], 0x80, 1⟩) = .next t ∧
    (withOutput 0 0 ⟨[], 0x80, 1⟩).run = .running ∧
    (withOutput 0 0 ⟨[], 0x80, 1⟩).wr.ob.length ≤ (withOutput 0 0 ⟨[], 0x80, 1⟩).cfg.obBytes ∧
    t.fcode = some .outFull ∧ t.run = .faulted :=
  ⟨_, rfl, rfl, by decide, rfl, rfl⟩

/-- As many bits as there are, and one more. -/
theorem witness_getbits : (withInput [0xBF, 0x80] 0 0).rd.Legal ∧ (16#8).toNat ≤ 32 ∧ (17#8).toNat ≤ 32 ∧
    (16#8).toNat ≤ (withInput [0xBF, 0x80] 0 0).rd.avail ∧ (withInput [0xBF, 0x80] 0 0).rd.avail < (17#8).toNat := by decide

/-- As many bytes as there are, and one more, after a partly read byte. -/
theorem witness_byteReads : (withInput [0xBF, 0x80] 0 3).rd.Legal ∧
    (withInput [0xBF, 0x80] 0 3).rd.nextByte + 1 ≤ (withInput [0xBF, 0x80] 0 3).rd.ib.length ∧
    (withInput [0xBF, 0x80] 0 3).rd.ib.length < (withInput [0xBF, 0x80] 0 3).rd.nextByte + 2 ∧
    (withInput [1, 2, 3, 4] 0 0).rd.Legal ∧
    (withInput [1, 2, 3, 4] 0 0).rd.nextByte + 4 ≤ (withInput [1, 2, 3, 4] 0 0).rd.ib.length ∧
    (withInput [1, 2] 0 0).rd.nextByte + 2 ≤ (withInput [1, 2] 0 0).rd.ib.length ∧
    (withInput [1, 2] 2 0).rd.Legal ∧ (withInput [1, 2] 2 0).rd.ib.length < (withInput [1, 2] 2 0).rd.nextByte + 1 := by
  decide

/-- A fault of a command of each kind of destination. -/
theorem witness_stateAfterAReaderFault :
    ((withInput [] 0 0).run = .running ∧ (withInput [] 0 0).rd.Legal) ∧
    (∃ t, exec (.getbits 1) (withInput [] 0 0) = .next t ∧ t.run = .faulted ∧ t.fcode = some .eof) ∧
    (∃ t, exec .getscale (withInput [] 0 0) = .next t ∧ t.run = .faulted ∧ t.fcode = some .eof) ∧
    (∃ t, exec .rledec (blockInput []) = .next t ∧ t.run = .faulted ∧ t.fcode = some .eof) :=
  ⟨by decide, ⟨_, rfl, rfl, rfl⟩, ⟨_, rfl, rfl, rfl⟩, ⟨_, rfl, rfl, rfl⟩⟩

/-- The largest value with the largest parameter, where its 17 bits just fit. -/
theorem witness_riceenc : (15#8).toNat ≤ 15 ∧ (withOutput 2 65535 ⟨[], 0, 0⟩).wr.Legal ∧
    (withOutput 2 65535 ⟨[], 0, 0⟩).wr.HasRoom (withOutput 2 65535 ⟨[], 0, 0⟩).cfg.obBytes
      (riceCode (15#8).toNat 65535).length := by decide

theorem witness_ricedec : (15#8).toNat ≤ 15 ∧ 65535 < 65536 ∧ (withInput [0xBF, 0xFF, 0x80] 0 0).rd.Legal ∧
    (withInput [0xBF, 0xFF, 0x80] 0 0).rd.rest = riceCode (15#8).toNat 65535 ++ List.replicate 7 false := by
  decide

/-- The three ways not to be a code: too many ones; only ones; a remainder that is cut short. -/
theorem witness_ricedecRejects :
    ((withInput [0xC0] 0 0).rd.Legal ∧
      (withInput [0xC0] 0 0).rd.rest = List.replicate (2 ^ (16 - (15#8).toNat)) true ++ List.replicate 6 false) ∧
    (0 < 2 ^ (16 - (15#8).toNat) ∧ (withInput [] 0 0).rd.rest = List.replicate 0 true) ∧
    ((withInput [0x80] 0 0).rd.Legal ∧ (List.replicate 6 false).length < (15#8).toNat ∧
      1 < 2 ^ (16 - (15#8).toNat) ∧
      (withInput [0x80] 0 0).rd.rest = List.replicate 1 true ++ false :: List.replicate 6 false) := by decide

/-- Sixty-four times the value 5. -/
def fives : State :=
  { withOutput 7 0 ⟨[], 0, 0⟩ with w := 8, h := 8, sq := wordsAt 0 (List.replicate 64 5) }

/-- `RLEENC` without room: a whole sequence, its 50 bits one byte too long; a beginning, its first pair too long. -/
theorem witness_rleencOutFull :
    (({ fives with cfg := { fives.cfg with obBytes := 5 } } : State).BlockSide ∧ fives.wr.Legal ∧
      (∀ j < (List.replicate 64 (5 : Sample)).length, Memory.read fives.sq j = (List.replicate 64 (5 : Sample))[j]?) ∧
      (List.replicate 64 (5 : Sample)).length = fives.w.toNat * fives.w.toNat ∧
      ¬ fives.wr.HasRoom 5 (pairsCode (runs (List.replicate 64 (5 : Sample)))).length) ∧
    ((twoWords 1).BlockSide ∧ (twoWords 1).wr.Legal ∧
      (∀ j < ([7, 8] : List Sample).length, Memory.read (twoWords 1).sq j = ([7, 8] : List Sample)[j]?) ∧
      ([7, 8] : List Sample).length ≤ (twoWords 1).w.toNat * (twoWords 1).w.toNat ∧
      ¬ (twoWords 1).wr.HasRoom (twoWords 1).cfg.obBytes (pairsCode (runs [7, 8]).dropLast).length) := by decide

theorem witness_rleenc : fives.BlockSide ∧ fives.wr.Legal ∧
    (List.replicate 64 (5 : Sample)).length = fives.w.toNat * fives.w.toNat ∧
    (∀ i < fives.w.toNat * fives.w.toNat, Memory.read fives.sq i = (List.replicate 64 (5 : Sample))[i]?) ∧
    fives.wr.HasRoom fives.cfg.obBytes (pairsCode (runs (List.replicate 64 (5 : Sample)))).length ∧
    ¬ (plane 8 16 []).BlockSide := by decide

/-- The code of those: 32 ones, a zero and a zero bit for the length 64, then 16 bits for the value. -/
def fivesInput : State :=
  blockInput [0xFF, 0xFF, 0xFF, 0xFF, 0x00, 0x01, 0x40]

theorem witness_rledec : fivesInput.BlockSide ∧ fivesInput.rd.Legal ∧ (1 ≤ 64 ∧ 64 < 65536) ∧
    (expand ([] ++ [(64, (5 : Sample))])).length = fivesInput.w.toNat * fivesInput.w.toNat ∧
    fivesInput.rd.rest = pairsCode ([] ++ [(64, (5 : Sample))]) ++ List.replicate 6 false ∧
    fivesInput.rd.rest = pairsCode (runs (List.replicate 64 (5 : Sample))) ++ List.replicate 6 false := by
  decide

/-- One coefficient too many: a run of 65. -/
def overrun : State :=
  blockInput [0xFF, 0xFF, 0xFF, 0xFF, 0x40, 0x01, 0x40]

theorem byteBits_ones (n : Nat) : byteBits (List.replicate n 0xFF) = List.replicate (8 * n) true := by
  induction n with
  | zero => rfl
  | succ n ih =>
    rw [List.replicate_succ, byteBits_cons, ih, Nat.mul_succ, Nat.add_comm, List.replicate_add]
    rfl

/-- A reader at the start of `n` bytes of ones has only ones left. -/
theorem ones_rest (n : Nat) (h : n < 2 ^ 32) :
    (blockInput (List.replicate n 0xFF)).rd.Legal ∧
      (blockInput (List.replicate n 0xFF)).rd.rest = List.replicate (8 * n) true := by
  refine ⟨⟨?_, Nat.zero_le _, fun _ => rfl⟩, ?_⟩
  · simpa only [blockInput, withInput, List.length_replicate] using h
  · rw [← byteBits_ones]
    rfl

/-- A run of 65; no bit at all; a length of 1 and half a value; a length of 1 and a value that begins with two ones. -/
theorem witness_rledecRejects :
    (overrun.BlockSide ∧ overrun.rd.Legal ∧ 65 < 65536 ∧
      (expand ([] : List (Nat × Sample))).length < overrun.w.toNat * overrun.w.toNat ∧
      overrun.w.toNat * overrun.w.toNat < (expand ([] : List (Nat × Sample))).length + 65 ∧
      overrun.rd.rest = pairsCode [] ++ (pairsCode [(65, (5 : Sample))] ++ List.replicate 6 false)) ∧
    ((blockInput []).rd.Legal ∧ (blockInput []).rd.rest = pairsCode [] ++ [] ∧ EndsInsideCode 1 []) ∧
    ((blockInput [0x40]).rd.Legal ∧
      (blockInput [0x40]).rd.rest = pairsCode [] ++ (riceCode 1 1 ++ List.replicate 6 false) ∧
      EndsInsideCode 15 (List.replicate 6 false)) ∧
    ((blockInput [0x70]).rd.Legal ∧
      (blockInput [0x70]).rd.rest = pairsCode [] ++ (riceCode 1 1 ++ (List.replicate 2 true ++ List.replicate 4 false))) :=
  ⟨by decide, ⟨by decide, rfl, 0, by decide, .inl rfl⟩,
    ⟨by decide, by decide, 0, by decide, .inr ⟨List.replicate 5 false, by decide, rfl⟩⟩, by decide⟩

theorem witness_rledecTooManyOnes : (blockInput (List.replicate 4096 0xFF)).rd.Legal ∧
    (blockInput (List.replicate 4096 0xFF)).rd.rest = pairsCode [] ++ (List.replicate (2 ^ 15) true ++ []) := by
  rw [pairsCode_nil, List.nil_append, List.append_nil, show 2 ^ 15 = 8 * 4096 by norm_num]
  exact ones_rest 4096 (by norm_num)

theorem witness_raisesAFault : running.run = .running ∧
    ∃ t, exec .fdwt2 { running with w := 3 } = .next t ∧ t.run = .faulted :=
  ⟨rfl, _, rfl, rfl⟩

theorem witness_execNext : running.run = .running ∧ ∃ t, exec .clrf { running with ovf := true } = .next t :=
  ⟨rfl, _, rfl⟩

theorem witness_stepNext : ∃ t, step (loaded 0x01000000) = .next t := ⟨_, rfl⟩

/-- The last word of a program, with the sequencer still running after it. -/
theorem witness_runs : (loaded 0x01000000).pc.toNat ≤ (loaded 0x01000000).pm.length ∧
    (loaded 0x01000000).pm.length ≤ 65535 ∧ (loaded 0x01000000).run = .running ∧
    ∃ t, Host.Core.run Sys2Proof.core 1 (loaded 0x01000000) = .next t ∧ t.run = .running :=
  ⟨by decide, by decide, rfl, _, rfl, rfl⟩

/-- The run states, and the last legal and the first illegal address, index and register of the host actions. -/
theorem witness_hostActions :
    (State.reset.run = .idle ∧ State.reset.run ≠ .running) ∧ { State.reset with run := .halted }.run = .halted ∧
    { State.reset with run := .faulted }.run = .faulted ∧ running.run = .running ∧
    HostAction.clearOB ≠ HostAction.reset ∧ HostRead.reg 6 ≠ HostRead.reg 5 ∧
    4095 < State.reset.cfg.cmWords ∧ State.reset.cfg.cmWords ≤ 4096 ∧ 1023 < 1024 ∧ 1024 ≤ 1024 ∧
    5 ∉ [0, 1, 2, 3, 4, 7] ∧ 14 < 15 ∧
    ({ State.reset with wr := ⟨[7], 0, 0⟩ } : State).wr.ob[0]? = some 7 ∧ State.reset.wr.ob.length ≤ 0 ∧
    Memory.read ({ State.reset with cm := wordsAt 4095 [-1] } : State).cm 4095 = some (-1) ∧
    Memory.read ({ State.reset with sq := wordsAt 1023 [-1] } : State).sq 1023 = some (-1) ∧
    Memory.read State.reset.cm 0 = none ∧ Memory.read State.reset.sq 0 = none ∧
    State.reset.wr.ob.length < 2 ^ 32 ∧ State.reset.rd.ib.length < 2 ^ 32 ∧ State.reset.pm.length < 2 ^ 16 := by
  decide

/-- The invariant holds at reset and after `H_START`; a step and a host action lead on from there. -/
theorem witness_invariant : State.reset.Inv ∧ running.Inv ∧ (∃ t, step running = .next t) ∧
    ∃ t, hostAct .start State.reset = .ok t := by
  have h : State.reset.Inv :=
    { config := legal_default
      program := by decide
      cmForm := List.Pairwise.nil
      cmSpace := fun e he => (by cases he)
      sqForm := List.Pairwise.nil
      sqSpace := fun e he => (by cases he)
      output := by decide
      writer := by decide
      input := by decide
      reader := by decide
      faulted := by decide
      counter := by decide }
  exact ⟨h, { h with faulted := by decide, counter := by decide }, ⟨_, rfl⟩, ⟨_, rfl⟩⟩

end Sys2Proof.Tests
end

section
/-! SUPPORT. What a command leaves in each part of the state, one lemma per part, read off `Effect`: the sequencer, the
registers, the memories, the writer and the reader. -/

namespace Sys2Proof.Machine

variable {i : Instr} {s t : State}

/-! ## The sequencer (`10_state.md` R25, `60_exceptions.md` R244) -/

/-- The three ways in which a command ends, with what each leaves in the registers of the run and of the fault. -/
inductive CommandEnd (i : Instr) (s t : State) : Prop
  | completed (hi : i ≠ .halt) (run : t.run = s.run) (pc : t.pc = s.pc + 1) (fpc : t.fpc = s.fpc)
      (fcode : t.fcode = s.fcode) (draws : t.draws = s.draws)
  | halted (hi : i = .halt) (run : t.run = .halted) (pc : t.pc = s.pc) (fpc : t.fpc = s.fpc)
      (fcode : t.fcode = s.fcode) (draws : t.draws = s.draws)
  | faulted (run : t.run = .faulted) (pc : t.pc = s.pc) (fpc : t.fpc = s.pc) (fcode : t.fcode.isSome)

theorem Effect.commandEnd (h : Effect i s t) : CommandEnd i s t := by
  cases h with
  | halt e => exact .halted e rfl rfl rfl rfl rfl
  | checked | full | lostVal | lostScale | lostSq => exact .faulted rfl rfl rfl rfl
  | plane _ hi | wrote _ hi => exact .completed (by rintro rfl; cases hi) rfl rfl rfl rfl rfl
  | gotVal _ _ hi => exact .completed (by rintro rfl; cases hi.1) rfl rfl rfl rfl rfl
  | nop e | clrf e | aligned e | org _ e | stride _ e | width _ e | height _ e | scale _ e | ldval _ e | ldvalh _ e
  | sequence _ e | gotScale _ _ e | gotSq _ _ e =>
    exact .completed (by rw [e]; exact Instr.noConfusion) rfl rfl rfl rfl rfl

/-! ## The registers (`10_state.md` R27, R28) -/

theorem Effect.ovf_of_set (h : Effect i s t) (hi : i ≠ .clrf) (ho : s.ovf = true) : t.ovf = true := by
  cases h with
  | clrf e => exact absurd e hi
  | plane a _ _ _ hs _ => exact hs ho
  | _ => exact ho

theorem Effect.ovf_eq (h : Effect i s t) (hi : i ≠ .clrf) (hn : setsOvf i = false) : t.ovf = s.ovf := by
  cases h with
  | clrf e => exact absurd e hi
  | plane a _ _ _ _ ho => exact ho hn
  | _ => rfl

theorem exec_clrf_ovf (h : exec .clrf s = .next t) : t.ovf = false := by
  cases h
  rfl

theorem Effect.org_eq (h : Effect i s t) (hi : ∀ v, i ≠ .setr .org v) : t.org = s.org := by
  cases h with
  | org v e => exact absurd e (hi v)
  | _ => rfl

theorem Effect.stride_eq (h : Effect i s t) (hi : ∀ v, i ≠ .setr .stride v) : t.stride = s.stride := by
  cases h with
  | stride v e => exact absurd e (hi v)
  | _ => rfl

theorem Effect.w_eq (h : Effect i s t) (hi : ∀ v, i ≠ .setr .w v) : t.w = s.w := by
  cases h with
  | width v e => exact absurd e (hi v)
  | _ => rfl

theorem Effect.h_eq (h : Effect i s t) (hi : ∀ v, i ≠ .setr .h v) : t.h = s.h := by
  cases h with
  | height v e => exact absurd e (hi v)
  | _ => rfl

theorem Effect.scale_eq (h : Effect i s t) (hi : writesScale i = false) : t.scale = s.scale := by
  cases h with
  | scale _ e | gotScale _ _ e | lostScale e => subst e; cases hi
  | _ => rfl

theorem Effect.val_eq (h : Effect i s t) (hi : writesVal i = false) : t.val = s.val := by
  cases h with
  | ldval _ e | ldvalh _ e => subst e; cases hi
  | gotVal _ _ hw | lostVal _ hw => exact absurd hw.1 (by simp [hi])
  | _ => rfl

/-! ## The memories (`20_memory.md` R50, R52, R54) -/

/-- A memory in canonical form whose addresses lie below `n`. -/
structure Memory.Fits {w : Nat} (n : Nat) (m : Memory w) : Prop where
  form : Memory.wf m
  space : ∀ e ∈ m, e.1 < n

theorem Memory.Fits.write {w n : Nat} {m : Memory w} (h : m.Fits n) {a : Nat} (ha : a < n) (v : BitVec w) :
    (Memory.write m a v).Fits n where
  form := Memory.write_wf h.form a v
  space e he := by
    rcases Memory.mem_write he with rfl | he
    · exact ha
    · exact h.space e he

theorem Memory.Fits.writeWords {w n : Nat} {m : Memory w} (h : m.Fits n) {as : List Nat} (ha : ∀ a ∈ as, a < n)
    (vs : List (BitVec w)) : (Machine.writeWords m as vs).Fits n where
  form := writeWords_wf h.form as vs
  space e he := (mem_writeWords he).elim (ha e.1) (h.space e)

theorem LiftState.Within.fits {P : Nat → Prop} {a b : LiftState} {n : Nat} (h : LiftState.Within P a b)
    (hp : ∀ x, P x → x < n) (ha : a.cm.Fits n) : b.cm.Fits n where
  form := h.form ha.form
  space e he := (h.keys e he).elim (hp e.1) (ha.space e)

/-- `N² ≤ 1024`: the indices of a block lie in `SQ`. -/
theorem State.BlockSide.sq_lt (hb : s.BlockSide) {n : Nat} (hn : n < s.side * s.side) : n < 1024 := by
  have h : s.side = 8 ∨ s.side = 16 ∨ s.side = 32 := hb.2
  rcases h with h | h | h <;> rw [h] at hn <;> omega

theorem State.BlockSide.isScan (hb : s.BlockSide) (hc : LegalConfig s.cfg) :
    IsScan s.side (scanOrder s.cfg.zz s.side) := by
  have h : s.side = 8 ∨ s.side = 16 ∨ s.side = 32 := hb.2
  rcases h with h | h | h <;> rw [h]
  exacts [hc.scan8, hc.scan16, hc.scan32]

/-- An `UNZIGZAG` that completes has a block side for which legal parameters hold a scan order (`42_zigzag.md` R146,
R149). -/
theorem exec_unzigzag_isScan (hc : LegalConfig s.cfg) (h : exec .unzigzag s = .next t) (hr : t.run ≠ .faulted) :
    IsScan s.side (scanOrder s.cfg.zz s.side) := by
  rcases execUnzigzag_cases h with ⟨f, -, rfl⟩ | ⟨vs, hb, -, -, -⟩
  · exact absurd rfl hr
  · exact State.BlockSide.isScan hb hc

theorem Effect.cm_eq (h : Effect i s t) (hi : writesCM i = false) : t.cm = s.cm := by
  cases h with
  | plane _ hw => exact absurd hw (by simp [hi])
  | _ => rfl

theorem Effect.cm_fits (h : Effect i s t)
    (hz : i = .unzigzag → t.run ≠ .faulted → IsScan s.side (scanOrder s.cfg.zz s.side))
    (hr : s.run ≠ .faulted) (hs : s.cm.Fits s.cfg.cmWords) : t.cm.Fits s.cfg.cmWords := by
  cases h with
  | plane a _ hfit hw => exact (hw fun e => hz e hr).fits (fun _ hx => State.InRect.lt hfit hx) hs
  | _ => exact hs

theorem Effect.sq_eq (h : Effect i s t) (hi : writesSQ i = false) : t.sq = s.sq := by
  cases h with
  | sequence _ e | gotSq _ _ e | lostSq _ e => subst e; cases hi
  | _ => rfl

theorem Effect.sq_fits (h : Effect i s t) (hs : s.sq.Fits 1024) : t.sq.Fits 1024 := by
  cases h with
  | sequence _ _ hb | gotSq _ _ _ hb | lostSq _ _ hb =>
    exact hs.writeWords (fun _ hn => State.BlockSide.sq_lt hb (List.mem_range.1 hn)) _
  | _ => exact hs

/-! ## The writer and the reader (`10_state.md` R38, R39) -/

theorem Effect.wr_eq (h : Effect i s t) (hi : writesOB i = false) : t.wr = s.wr := by
  cases h with
  | wrote _ hw | full hw => exact absurd hw (by simp [hi])
  | _ => rfl

theorem Effect.writer_grows (h : Effect i s t) : Writer.Grows s.cfg.obBytes s.wr t.wr := by
  cases h with
  | wrote _ _ hg => exact hg
  | full => exact ⟨s.forgetWriter_prefix, s.forgetWriter_capacity, fun _ => s.forgetWriter_legal⟩
  | _ => exact Writer.Grows.refl _ _

theorem Effect.rd_eq (h : Effect i s t) (hi : readsIB i = false) : t.rd = s.rd := by
  cases h with
  | aligned e | gotScale _ _ e | gotSq _ _ e | lostScale e | lostSq _ e => subst e; cases hi
  | gotVal _ _ hw | lostVal _ hw => exact absurd hw.2 (by simp [hi])
  | _ => rfl

theorem Effect.reader_legal (h : Effect i s t) (hs : s.rd.Legal) : t.rd.Legal := by
  cases h with
  | aligned => exact (Reader.align_spec _ hs).1
  | gotVal _ _ _ _ hl | gotScale _ _ _ _ hl | gotSq _ _ _ _ _ hl => exact hl hs
  | lostVal | lostScale | lostSq => exact s.forgetReader_legal hs
  | _ => exact hs

end Sys2Proof.Machine
end

section
/-! SUPPORT. The invariant under a step, and the statements about what a command may do. -/

namespace Sys2Proof.Machine

theorem State.Inv.cmFits {s : State} (h : s.Inv) : s.cm.Fits s.cfg.cmWords := ⟨h.cmForm, h.cmSpace⟩

theorem State.Inv.sqFits {s : State} (h : s.Inv) : s.sq.Fits 1024 := ⟨h.sqForm, h.sqSpace⟩

/-- Fault entry keeps the invariant (`60_exceptions.md` R244). -/
theorem State.Inv.takeFault {s : State} (h : s.Inv) (f : FaultCode) : (s.takeFault f).Inv :=
  { h with
    faulted := by simp
    counter := by simp }

theorem State.Inv.fcode_of_running {s : State} (h : s.Inv) (hr : s.run = .running) : s.fcode.isSome = false := by
  simpa [hr] using h.faulted

/-- A command executed below the end of the program keeps the invariant. -/
theorem exec_keeps_inv {i : Instr} {s t : State} (h : s.Inv) (hr : s.run = .running) (hpc : s.pc.toNat < s.pm.length)
    (e : exec i s = .next t) : t.Inv := by
  have he := exec_effect e
  have hcfg := he.cfg
  have hcm := he.cm_fits (by rintro rfl; exact exec_unzigzag_isScan h.config e) (by simp [hr]) h.cmFits
  have hsq := he.sq_fits h.sqFits
  have hwr := he.writer_grows
  refine
    { config := hcfg ▸ h.config
      program := by rw [he.pm, hcfg]; exact h.program
      cmForm := hcm.form
      cmSpace := by rw [hcfg]; exact hcm.space
      sqForm := hsq.form
      sqSpace := hsq.space
      output := by rw [hcfg]; exact hwr.capacity h.output
      writer := hwr.legal h.writer
      input := by rw [he.ib, hcfg]; exact h.input
      reader := he.reader_legal h.reader
      faulted := ?_
      counter := ?_ }
  · have hf := h.fcode_of_running hr
    rcases he.commandEnd with ⟨-, run, -, -, fcode, -⟩ | ⟨-, run, -, -, fcode, -⟩ | ⟨run, -, -, fcode⟩
    · simp [run, fcode, hr, hf]
    · simp [run, fcode, hf]
    · simp [run, fcode]
  · intro hrun
    rcases he.commandEnd with ⟨-, -, pc, -⟩ | ⟨-, run, -⟩ | ⟨run, -⟩
    · rw [pc, he.pm, BitVec.toNat_add]
      exact (Nat.mod_le _ _).trans hpc
    · simp [run] at hrun
    · simp [run] at hrun

/-- Settles O59: the fetch and decode faults keep the invariant by fault entry, a decoded command stands below the end
of the program. -/
theorem stepKeepsTheInvariant : Obligations.StepKeepsTheInvariant := by
  intro s t h e
  obtain ⟨hr, ⟨-, rfl⟩ | ⟨cw, _, -, -, rfl⟩ | ⟨cw, i, hf, -, hx⟩⟩ := step_cases e
  · exact h.takeFault _
  · exact h.takeFault _
  · exact exec_keeps_inv h hr (List.getElem?_eq_some_iff.1 hf).1 hx

/-- Settles O51: the ends of a command, from a running sequencer. -/
theorem pcAdvancesByOne : Obligations.PcAdvancesByOne := by
  intro i s t hr e
  rcases (exec_effect e).commandEnd with ⟨hi, run, pc, -⟩ | ⟨hi, run, pc, -⟩ | ⟨run, pc, fpc, -⟩
  · exact .inl ⟨hi, run.trans hr, pc⟩
  · exact .inr (.inl ⟨hi, run, pc⟩)
  · exact .inr (.inr ⟨run, pc, fpc⟩)

/-- Settles O52: `CLRF` apart, a set flag stays, and a clear one stays where the command sets none. -/
theorem ovfIsSticky : Obligations.OvfIsSticky := by
  intro i s t e
  have hclrf : i = .clrf → t.ovf = false := by rintro rfl; exact exec_clrf_ovf e
  refine ⟨fun ho hi => (exec_effect e).ovf_of_set hi ho, fun ho hn => ?_, hclrf⟩
  by_cases hi : i = .clrf
  · exact hclrf hi
  · rw [(exec_effect e).ovf_eq hi hn, ho]

/-- Settles O53: one lemma per register and memory; the fault registers by the ends of a command. -/
theorem onlyTheNamedCommandsWrite : Obligations.OnlyTheNamedCommandsWrite := by
  intro i s t e
  have h := exec_effect e
  refine ⟨h.cfg, h.pm, h.ib, h.org_eq, h.stride_eq, h.w_eq, h.h_eq, h.scale_eq, h.val_eq, h.cm_eq, h.sq_eq, h.wr_eq,
    h.rd_eq, fun _ hrun => ?_⟩
  rcases h.commandEnd with ⟨-, -, -, fpc, fcode, draws⟩ | ⟨-, -, -, fpc, fcode, draws⟩ | ⟨run, -⟩
  · exact ⟨fpc, fcode, draws⟩
  · exact ⟨fpc, fcode, draws⟩
  · exact absurd run hrun

end Sys2Proof.Machine
end

section
/-! SUPPORT. Steps without a command, and the host's side: what an action or a read does to a stopped sequencer, the
register views as numbers, the invariant under host actions. -/

namespace Sys2Proof.Machine

/-! ## Steps without a command (`10_state.md` R24, R36) -/

theorem step_of_pastEnd {s : State} (hr : s.run = .running) (h : s.pm.length ≤ s.pc.toNat) :
    step s = .next (s.takeFault .fetchRange) := by
  have hf : s.fetch = none := List.getElem?_eq_none h
  simp only [step, hr, hf]

theorem step_of_notRunning {s : State} (h : s.run ≠ .running) : step s = .fault (.notRunning s.run) := by
  unfold step
  split
  · exact absurd ‹_› h
  · rfl

/-- Settles O5: the fetch beyond the program's end, and the run states other than RUNNING. -/
theorem stepWithoutACommand : Obligations.StepWithoutACommand :=
  ⟨fun _ hr h => step_of_pastEnd hr h, fun _ h => step_of_notRunning h⟩

/-! ## Host actions and reads by run state (`10_state.md` R37) -/

variable {s t : State}

theorem hostAct_of_running {a : HostAction} (hr : s.run = .running) (ha : a ≠ .reset) :
    hostAct a s = .error .running :=
  if_pos ⟨hr, ha⟩

theorem hostRead_of_running {r : HostRead} (hr : s.run = .running) (h : r ≠ .reg 5) : hostRead r s = .error .running :=
  if_pos ⟨hr, h⟩

theorem hostAct_of_stopped (h : s.run ≠ .running) (a : HostAction) : hostAct a s = s.hostEffect a :=
  if_neg fun hh => h hh.1

theorem hostRead_of_stopped (h : s.run ≠ .running) (r : HostRead) : hostRead r s = s.hostValue r :=
  if_neg fun hh => h hh.1

theorem hostAct_reset (s : State) : hostAct .reset s = .ok s.hardReset :=
  if_neg fun hh => hh.2 rfl

/-- A host action that is possible is a reset or has its effect on a stopped sequencer. -/
theorem hostAct_cases {a : HostAction} (h : hostAct a s = .ok t) :
    t = s.hardReset ∨ s.run ≠ .running ∧ s.hostEffect a = .ok t := by
  by_cases hr : s.run = .running
  · by_cases ha : a = .reset
    · subst ha
      rw [hostAct_reset] at h
      exact .inl (Except.ok.inj h).symm
    · rw [hostAct_of_running hr ha] at h
      cases h
  · exact .inr ⟨hr, hostAct_of_stopped hr a ▸ h⟩

/-! ## The invariant (`10_state.md` R37, R42) -/

/-- The position at the first bit is legal (`10_state.md` R39). -/
theorem Reader.legal_start {ib : List Byte} (h : ib.length < 2 ^ 32) : (⟨ib, 0, 0⟩ : Reader).Legal :=
  ⟨h, Nat.zero_le _, fun _ => rfl⟩

/-- The reset state meets the invariant under all legal parameters. -/
theorem inv_of_reset {c : Config} (hc : LegalConfig c) (n : Nat) :
    ({ State.reset with cfg := c, draws := n } : State).Inv where
  config := hc
  program := Nat.zero_le _
  cmForm := List.Pairwise.nil
  cmSpace _ he := nomatch he
  sqForm := List.Pairwise.nil
  sqSpace _ he := nomatch he
  output := Nat.zero_le _
  writer := rfl
  input := Nat.zero_le _
  reader := Reader.legal_start (Nat.two_pow_pos 32)
  faulted := by simp [State.reset]
  counter := by simp [State.reset]

/-- The defaults of `00_scope.md` R9 are legal. -/
theorem legalConfig_default : LegalConfig Config.default :=
  have scan {n : Nat} (hn : 1 ≤ n) : IsScan n (scanOrder Config.default.zz n) := isScan_diagonalScan hn
  { cmWords := by decide
    pmWords := by decide
    obBytes := by decide
    ibBytes := by decide
    scan8 := scan (by omega)
    scan16 := scan (by omega)
    scan32 := scan (by omega) }

/-- Settles O58: the reset state with the default parameters. -/
theorem invariantAtReset : Obligations.InvariantAtReset :=
  inv_of_reset legalConfig_default 0

/-- The effect of a host action on a stopped sequencer keeps the invariant. -/
theorem hostEffect_keeps_inv {a : HostAction} (h : s.Inv) (hr : s.run ≠ .running) (e : s.hostEffect a = .ok t) :
    t.Inv := by
  cases a with
  | reset => cases e; exact inv_of_reset h.config _
  | loadProg words =>
    simp only [State.hostEffect] at e
    split at e <;> cases e
    exact { h with program := ‹_›, counter := fun hh => absurd hh hr }
  | writeCM a v =>
    simp only [State.hostEffect] at e
    split at e <;> cases e
    have hw := h.cmFits.write ‹_› v
    exact { h with cmForm := hw.form, cmSpace := hw.space }
  | writeSQ i v =>
    simp only [State.hostEffect] at e
    split at e <;> cases e
    have hw := h.sqFits.write ‹_› v
    exact { h with sqForm := hw.form, sqSpace := hw.space }
  | loadIB bytes =>
    simp only [State.hostEffect] at e
    split at e <;> cases e
    have hb : bytes.length ≤ s.cfg.ibBytes := ‹_›
    have hc := h.config.ibBytes
    exact { h with input := hb, reader := Reader.legal_start (by omega) }
  | clearOB => cases e; exact { h with output := Nat.zero_le _, writer := rfl }
  | writeReg n v =>
    simp only [State.hostEffect, State.writeReg] at e
    split at e <;> cases e <;> exact { h with }
  | start =>
    simp only [State.hostEffect] at e
    split at e <;> cases e
    have hf : s.run ≠ .faulted := by rcases ‹_ ∨ _› with hh | hh <;> simp [hh]
    exact { h with faulted := by simpa [hf] using h.faulted, counter := fun _ => Nat.zero_le _ }
  | clearFault =>
    simp only [State.hostEffect] at e
    split at e <;> cases e
    exact { h with faulted := by simp, counter := by simp }

/-- Settles O60: a reset leads to the reset state, every other possible action has its effect on a stopped sequencer. -/
theorem hostActionsKeepTheInvariant : Obligations.HostActionsKeepTheInvariant := by
  intro a s t h e
  obtain rfl | ⟨hr, e⟩ := hostAct_cases e
  · exact inv_of_reset h.config _
  · exact hostEffect_keeps_inv h hr e

/-! ## The registers as the host reads them (`10_state.md` R28, R30) -/

theorem hostRead_reg {n : Nat} {v : BitVec 32} (h : s.run ≠ .running) (hv : s.readReg n = .ok v) :
    hostRead (.reg n) s = .ok (v.toNat : Int) := by
  rw [hostRead_of_stopped h, State.hostValue_reg, hv]
  rfl

/-- A register no wider than `VAL` is read as its own number. -/
theorem hostRead_reg_setWidth {n k : Nat} {x : BitVec k} (h : s.run ≠ .running) (hv : s.readReg n = .ok (x.setWidth 32))
    (hk : k ≤ 32) : hostRead (.reg n) s = .ok (x.toNat : Int) := by
  rw [hostRead_reg h hv, BitVec.toNat_setWidth_of_le hk]

theorem State.readReg_of_gt {n : Nat} (h : 14 < n) (s : State) : s.readReg n = .error .noSuchRegister := by
  obtain ⟨m, rfl⟩ : ∃ m, n = m + 15 := ⟨n - 15, by omega⟩
  rfl

theorem State.writeReg_of_not_mem {n : Nat} (h : n ∉ [0, 1, 2, 3, 4, 7]) (v : BitVec 32) (s : State) :
    s.writeReg n v = .error .noSuchRegister := by
  unfold State.writeReg
  split <;> simp at h ⊢

theorem hostRead_reg_of_gt {n : Nat} (h : s.run ≠ .running) (hn : 14 < n) :
    hostRead (.reg n) s = .error .noSuchRegister := by
  rw [hostRead_of_stopped h, State.hostValue_reg, State.readReg_of_gt hn]
  rfl

/-- `OLEN` is read as the number of bytes of `OB` while the register can hold it. -/
theorem hostRead_olen (h : s.run ≠ .running) (hl : s.wr.ob.length < 2 ^ 32) :
    hostRead (.reg 8) s = .ok (s.wr.ob.length : Int) := by
  rw [hostRead_reg h (n := 8) rfl, State.olen, BitVec.toNat_ofNat, Nat.mod_eq_of_lt hl]

theorem hostRead_wstate (h : s.run ≠ .running) :
    hostRead (.reg 9) s = .ok (256 * (s.wr.wcnt.toNat : Int) + s.wr.wacc.toNat) := by
  rw [hostRead_reg_setWidth h (n := 9) (x := s.wstate) rfl (by decide), State.wstate_toNat]
  push_cast
  rfl

/-- `ILEN` is read as the number of bytes of `IB` while the register can hold it. -/
theorem hostRead_ilen (h : s.run ≠ .running) (hl : s.rd.ib.length < 2 ^ 32) :
    hostRead (.reg 10) s = .ok (s.rd.ib.length : Int) := by
  rw [hostRead_reg h (n := 10) rfl, State.ilen, BitVec.toNat_ofNat, Nat.mod_eq_of_lt hl]

/-- `PLEN` is read as the number of words of the program while the register can hold it. -/
theorem hostRead_plen (h : s.run ≠ .running) (hl : s.pm.length < 2 ^ 16) :
    hostRead (.reg 14) s = .ok (s.pm.length : Int) := by
  rw [hostRead_reg_setWidth h (n := 14) (x := s.plen) rfl (by decide), State.plen, BitVec.toNat_ofNat,
    Nat.mod_eq_of_lt hl]

/-- `STATUS` is read in every run state. -/
theorem hostRead_status (s : State) : hostRead (.reg 5) s = .ok (s.status.toNat : Int) := by
  have h : hostRead (.reg 5) s = s.hostValue (.reg 5) := if_neg fun hh => hh.2 rfl
  rw [h, State.hostValue_reg]
  show Except.ok ((s.status.setWidth 32).toNat : Int) = _
  rw [BitVec.toNat_setWidth_of_le (by decide)]

theorem toNat_append_eq_add {m n : Nat} (x : BitVec m) (y : BitVec n) :
    (x ++ y).toNat = x.toNat * 2 ^ n + y.toNat := by
  rw [BitVec.toNat_append, ← Nat.shiftLeft_add_eq_or_of_lt y.isLt, Nat.shiftLeft_eq]

theorem State.status_toNat (s : State) :
    s.status.toNat = s.run.code.toNat + 4 * s.ovf.toNat + 16 * s.faultField.toNat := by
  simp only [State.status, toNat_append_eq_add, BitVec.toNat_ofNat, BitVec.toNat_ofBool]
  omega

/-! ## The words as the host reads and writes them (`10_state.md` R34, R35, `70_reset_and_hazards.md` R273) -/

theorem hostAct_writeCM {a : Nat} (h : s.run ≠ .running) (ha : a < s.cfg.cmWords) (v : Sample) :
    hostAct (.writeCM a v) s = .ok { s with cm := Memory.write s.cm a v } :=
  (hostAct_of_stopped h _).trans (if_pos ha)

theorem hostAct_writeCM_outOfRange {a : Nat} (h : s.run ≠ .running) (ha : s.cfg.cmWords ≤ a) (v : Sample) :
    hostAct (.writeCM a v) s = .error .outOfRange :=
  (hostAct_of_stopped h _).trans (if_neg ha.not_gt)

theorem hostAct_writeSQ {i : Nat} (h : s.run ≠ .running) (hi : i < 1024) (v : Sample) :
    hostAct (.writeSQ i v) s = .ok { s with sq := Memory.write s.sq i v } :=
  (hostAct_of_stopped h _).trans (if_pos hi)

theorem hostAct_writeSQ_outOfRange {i : Nat} (h : s.run ≠ .running) (hi : 1024 ≤ i) (v : Sample) :
    hostAct (.writeSQ i v) s = .error .outOfRange :=
  (hostAct_of_stopped h _).trans (if_neg hi.not_gt)

theorem hostRead_cm_written {a : Nat} {v : Sample} (h : s.run ≠ .running) (ha : a < s.cfg.cmWords)
    (hv : Memory.read s.cm a = some v) : hostRead (.cm a) s = .ok v.toInt := by
  simp only [hostRead_of_stopped h, State.hostValue, if_pos ha, hv]

theorem hostRead_cm_unwritten {a : Nat} (h : s.run ≠ .running) (ha : a < s.cfg.cmWords)
    (hv : Memory.read s.cm a = none) : hostRead (.cm a) s = .error .unwritten := by
  simp only [hostRead_of_stopped h, State.hostValue, if_pos ha, hv]

theorem hostRead_cm_outOfRange {a : Nat} (h : s.run ≠ .running) (ha : s.cfg.cmWords ≤ a) :
    hostRead (.cm a) s = .error .outOfRange :=
  (hostRead_of_stopped h _).trans (if_neg ha.not_gt)

theorem hostRead_sq_written {i : Nat} {v : Sample} (h : s.run ≠ .running) (hi : i < 1024)
    (hv : Memory.read s.sq i = some v) : hostRead (.sq i) s = .ok v.toInt := by
  simp only [hostRead_of_stopped h, State.hostValue, if_pos hi, hv]

theorem hostRead_sq_unwritten {i : Nat} (h : s.run ≠ .running) (hi : i < 1024) (hv : Memory.read s.sq i = none) :
    hostRead (.sq i) s = .error .unwritten := by
  simp only [hostRead_of_stopped h, State.hostValue, if_pos hi, hv]

theorem hostRead_sq_outOfRange {i : Nat} (h : s.run ≠ .running) (hi : 1024 ≤ i) :
    hostRead (.sq i) s = .error .outOfRange :=
  (hostRead_of_stopped h _).trans (if_neg hi.not_gt)

/-- A word of `CM` is read alike in states that agree on it. -/
theorem hostRead_cm_congr {a : Nat} (hr : t.run = s.run) (hc : t.cfg = s.cfg)
    (hv : Memory.read t.cm a = Memory.read s.cm a) : hostRead (.cm a) t = hostRead (.cm a) s := by
  simp only [hostRead, State.hostValue, hr, hc, hv]

/-- A word of `SQ` is read alike in states that agree on it. -/
theorem hostRead_sq_congr {i : Nat} (hr : t.run = s.run) (hv : Memory.read t.sq i = Memory.read s.sq i) :
    hostRead (.sq i) t = hostRead (.sq i) s := by
  simp only [hostRead, State.hostValue, hr, hv]

theorem hostRead_ob {i : Nat} {x : Byte} (h : s.run ≠ .running) (hx : s.wr.ob[i]? = some x) :
    hostRead (.ob i) s = .ok (x.toNat : Int) := by
  simp only [hostRead_of_stopped h, State.hostValue, hx]

theorem hostRead_ob_outOfRange {i : Nat} (h : s.run ≠ .running) (hi : s.wr.ob.length ≤ i) :
    hostRead (.ob i) s = .error .outOfRange := by
  simp only [hostRead_of_stopped h, State.hostValue, List.getElem?_eq_none hi]

/-! ## The statements about the host's side -/

theorem State.readReg_hardReset (n : Nat) (s : State) : s.hardReset.readReg n = State.reset.readReg n := rfl

/-- Settles O56: the reset state read register by register. -/
theorem resetValues : Obligations.ResetValues := by
  intro s
  have hr : s.hardReset.run ≠ .running := by simp [State.hardReset, State.reset]
  refine ⟨s.hardReset, hostAct_reset s, rfl, ?_, ?_, rfl, rfl, rfl, fun _ => rfl, fun _ => rfl, rfl⟩ <;>
    simp only [hostRead_of_stopped hr, State.hostValue_reg, State.readReg_hardReset]
  · decide
  · decide

/-- Settles O57: running, `STATUS`, the two run-state actions, and each action and read of a stopped sequencer by its
own lemma, in the order of the statement. -/
theorem hostActionsOfTheRunState : Obligations.HostActionsOfTheRunState := by
  intro s
  refine ⟨fun hr => ⟨fun _ ha => hostAct_of_running hr ha, fun _ h => hostRead_of_running hr h⟩, ?status, ?started,
    ?cleared, fun h => ?stopped⟩
  case status =>
    rw [hostRead_status, State.status_toNat, State.faultField]
    push_cast
    congr 3
    · cases s.run <;> rfl
    · rcases s.fcode with _ | f
      · rfl
      · cases f <;> rfl
  case started =>
    intro hr
    have h : s.run ≠ .running ∧ s.run ≠ .faulted := by rcases hr with hr | hr <;> simp [hr]
    exact ⟨(hostAct_of_stopped h.1 _).trans (if_pos hr), (hostAct_of_stopped h.1 _).trans (if_neg h.2)⟩
  case cleared =>
    intro hr
    have h : s.run ≠ .running := by simp [hr]
    exact ⟨(hostAct_of_stopped h _).trans (if_pos hr), (hostAct_of_stopped h _).trans (if_neg (by simp [hr]))⟩
  case stopped =>
    have eff := hostAct_of_stopped h
    exact
      ⟨fun _ => eff _, fun _ => eff _, eff _,
      fun _ _ => hostRead_ob h, fun _ => hostRead_ob_outOfRange h,
      -- `CM`
      fun _ v ha => ⟨_, hostAct_writeCM h ha v, rfl, hostRead_cm_written h ha (Memory.read_write_same _ _ _),
        fun _ hb => hostRead_cm_congr rfl rfl (Memory.read_write_other _ _ hb)⟩,
      fun _ _ => hostRead_cm_written h, fun _ => hostRead_cm_unwritten h,
      fun _ v ha => ⟨hostAct_writeCM_outOfRange h ha v, hostRead_cm_outOfRange h ha⟩,
      -- `SQ`
      fun _ v hi => ⟨_, hostAct_writeSQ h hi v, rfl, hostRead_sq_written h hi (Memory.read_write_same _ _ _),
        fun _ hj => hostRead_sq_congr rfl (Memory.read_write_other _ _ hj)⟩,
      fun _ _ => hostRead_sq_written h, fun _ => hostRead_sq_unwritten h,
      fun _ v hi => ⟨hostAct_writeSQ_outOfRange h hi v, hostRead_sq_outOfRange h hi⟩,
      -- the registers written
      fun _ => ⟨eff _, eff _, eff _, eff _, eff _, eff _⟩,
      fun _ v hn => (eff _).trans (State.writeReg_of_not_mem hn v s),
      -- the registers read, 0 to 14
      hostRead_reg_setWidth h rfl (by decide), hostRead_reg_setWidth h rfl (by decide),
      hostRead_reg_setWidth h rfl (by decide), hostRead_reg_setWidth h rfl (by decide),
      hostRead_reg_setWidth h rfl (by decide), hostRead_reg_setWidth h rfl (by decide), hostRead_reg h rfl,
      hostRead_olen h, hostRead_wstate h, hostRead_ilen h, hostRead_reg h rfl,
      hostRead_reg_setWidth h rfl (by decide), hostRead_reg_setWidth h rfl (by decide), hostRead_plen h,
      fun _ => hostRead_reg_of_gt h⟩

end Sys2Proof.Machine
end

section
/-! SUPPORT. The frame of `CM` under a command (`20_memory.md` R53) and the growth of `OB` under a step (R61). -/

namespace Sys2Proof.Machine

variable {i : Instr} {s t : State} {a : Nat}

/-! ## The words of `CM` outside the region -/

/-- Under legal parameters the scan addresses of a block lie in its region (`42_zigzag.md` R146). -/
theorem State.mem_scanAddrs (hc : LegalConfig s.cfg) (hb : s.BlockSide) (h : a ∈ s.scanAddrs) :
    s.InRect s.w.toNat s.h.toNat a := by
  rw [← hb.1]
  exact (s.mem_cellAddrs (State.BlockSide.isScan hb hc)).1 h

/-- `UNZIGZAG` writes at scan addresses or takes a fault of a check. -/
theorem exec_unzigzag_read_outside (hc : LegalConfig s.cfg) (h : exec .unzigzag s = .next t)
    (ha : ¬ s.InRect s.w.toNat s.h.toNat a) : Memory.read t.cm a = Memory.read s.cm a := by
  rcases execUnzigzag_cases h with ⟨f, -, rfl⟩ | ⟨vs, hb, -, -, rfl⟩
  · rfl
  · exact read_writeWords_other fun hm => ha (State.mem_scanAddrs hc hb hm)

/-- A command other than `UNZIGZAG` keeps to its region whatever the parameters are. -/
theorem Effect.read_outside (h : Effect i s t) (hi : i ≠ .unzigzag) (ha : ¬ s.InRect s.w.toNat s.h.toNat a) :
    Memory.read t.cm a = Memory.read s.cm a := by
  cases h with
  | plane _ _ _ hw => exact (hw fun e => absurd e hi).other a ha
  | _ => rfl

/-- Settles O22: only `UNZIGZAG` needs the legal parameters, for its scan order. -/
theorem wordsOutsideTheRegionUnchanged : Obligations.WordsOutsideTheRegionUnchanged := by
  intro i s t hc e a ha
  rw [s.outsideRegion_iff] at ha
  by_cases hi : i = .unzigzag
  · subst hi
    exact exec_unzigzag_read_outside hc e ha
  · exact (exec_effect e).read_outside hi ha

/-! ## The bytes of `OB` -/

/-- Settles O54: the fetch and decode faults leave the writer, an executed command makes it grow. -/
theorem outputIsAppendOnly : Obligations.OutputIsAppendOnly := by
  intro s t e
  obtain ⟨-, ⟨-, rfl⟩ | ⟨_, _, -, -, rfl⟩ | ⟨_, i, -, -, hx⟩⟩ := step_cases e
  · exact List.prefix_refl _
  · exact List.prefix_refl _
  · exact (exec_effect hx).writer_grows.prefixed

end Sys2Proof.Machine
end

section
/-! SUPPORT. The opcode map read once as rows of formats (`30_encoding.md` R72, R74); the decoder's commands (R76), the
illegal words (R77) and the encoding formula (R75) follow. -/

namespace Sys2Proof

variable {f : Fields} {i j : Instr} {r : Except Illegal Instr}

/-! ## What each format accepts (R72) -/

theorem decodeZ_ok : decodeZ f i = .ok j ↔ (f.a = 0 ∧ f.imm = 0) ∧ i = j := by
  unfold decodeZ
  split <;> simp_all

theorem decodeA_ok {n : Nat} {mk : BitVec 8 → Instr} :
    decodeA f n mk = .ok j ↔ (f.a.toNat ≤ n ∧ f.imm = 0) ∧ mk f.a = j := by
  unfold decodeA
  split
  · simp_all
  · split <;> simp_all

theorem decodeI_ok {mk : BitVec 16 → Instr} : decodeI f mk = .ok j ↔ f.a = 0 ∧ mk f.imm = j := by
  unfold decodeI
  split <;> simp_all

theorem decodeLine_ok {mk : BitVec 16 → Instr} : decodeLine f mk = .ok j ↔ f.a = 0 ∧ mk f.imm = j := by
  unfold decodeLine
  split <;> simp_all

theorem decodeKernel_ok : decodeKernel f i = .ok j ↔ (f.a = 0 ∧ f.imm = 0) ∧ i = j := by
  unfold decodeKernel
  split
  · simp_all
  · split <;> simp_all

theorem decodeSetr_ok :
    decodeSetr f = .ok j ↔ ∃ c : CtrlReg, (c.number = f.a ∧ (Instr.setr c f.imm).WellFormed = true) ∧
      .setr c f.imm = j := by
  obtain ⟨op, a, imm⟩ := f
  constructor
  · intro h
    simp only [decodeSetr] at h
    split at h
    · exact ⟨.org, ⟨rfl, rfl⟩, Except.ok.inj h⟩
    · exact ⟨.stride, ⟨rfl, rfl⟩, Except.ok.inj h⟩
    · exact ⟨.w, ⟨rfl, rfl⟩, Except.ok.inj h⟩
    · exact ⟨.h, ⟨rfl, rfl⟩, Except.ok.inj h⟩
    · split at h
      · exact ⟨.scale, ⟨rfl, decide_eq_true ‹_›⟩, Except.ok.inj h⟩
      · cases h
    · cases h
  · rintro ⟨c, ⟨rfl, hw⟩, rfl⟩
    cases c with
    | scale => exact if_pos (of_decide_eq_true hw)
    | _ => rfl

/-- The operands of `SETR` that no register takes (`45_system.md` R202). -/
theorem setr_illegal_iff {a : BitVec 8} {imm : BitVec 16} :
    (∀ c : CtrlReg, ¬(c.number = a ∧ (Instr.setr c imm).WellFormed = true)) ↔
      4 < a.toNat ∨ (a.toNat = 4 ∧ 255 < imm.toNat) := by
  constructor
  · intro h
    by_contra hn
    have ha : a = 0 ∨ a = 1 ∨ a = 2 ∨ a = 3 ∨ (a = 4 ∧ imm.toNat ≤ 255) := by bv_omega
    rcases ha with rfl | rfl | rfl | rfl | ⟨rfl, hi⟩
    exacts [h .org ⟨rfl, rfl⟩, h .stride ⟨rfl, rfl⟩, h .w ⟨rfl, rfl⟩, h .h ⟨rfl, rfl⟩,
      h .scale ⟨rfl, decide_eq_true hi⟩]
  · rintro h c ⟨rfl, hw⟩
    cases c with
    | scale => exact absurd (of_decide_eq_true hw) (by simpa [CtrlReg.number] using h)
    | _ => exact absurd h (by simp [CtrlReg.number])

/-! ## The rows of the opcode map (R74) -/

/-- The command is legal and `f` are its fields. -/
def Instr.HasFields (i : Instr) (f : Fields) : Prop :=
  i.WellFormed = true ∧ encodeFields i = f

/-- The opcodes of format `Z`. -/
def opcodesZ : List Nat :=
  [0x01, 0x02, 0x06, 0x20, 0x21, 0x28, 0x29, 0x31, 0x32, 0x33, 0x34, 0x35, 0x39, 0x3A, 0x3B, 0x3C, 0x3D, 0x42, 0x43]

/-- The opcodes of no row (R77). -/
def UnassignedOpcode (op : Nat) : Prop :=
  op = 0 ∨ (0x07 ≤ op ∧ op ≤ 0x0F) ∨ (0x18 ≤ op ∧ op ≤ 0x1F) ∨ (0x22 ≤ op ∧ op ≤ 0x27) ∨
    (0x2A ≤ op ∧ op ≤ 0x2F) ∨ op = 0x36 ∨ op = 0x37 ∨ op = 0x3E ∨ op = 0x3F ∨ 0x44 ≤ op

/-- The kinds of rows: the opcodes of each, the commands with their fields, and what the decoder answers there. -/
inductive OpcodeRow (f : Fields) : Except Illegal Instr → Prop
  | plain (i : Instr) (hop : f.op.toNat ∈ opcodesZ) (hi : i.HasFields ⟨f.op, 0, 0⟩) : OpcodeRow f (decodeZ f i)
  | setr (hop : f.op = 0x03) : OpcodeRow f (decodeSetr f)
  | value (mk : BitVec 16 → Instr) (hop : f.op.toNat ∈ [0x04, 0x05]) (hi : ∀ v, (mk v).HasFields ⟨f.op, 0, v⟩) :
      OpcodeRow f (decodeI f mk)
  | line (mk : BitVec 16 → Instr) (hop : f.op.toNat ∈ [0x10, 0x11, 0x12, 0x13])
      (hi : ∀ v, (mk v).HasFields ⟨f.op, 0, v⟩) : OpcodeRow f (decodeLine f mk)
  | plane (i : Instr) (hop : f.op.toNat ∈ [0x14, 0x15, 0x16, 0x17]) (hi : i.HasFields ⟨f.op, 0, 0⟩) :
      OpcodeRow f (decodeKernel f i)
  | bitCount (mk : BitVec 8 → Instr) (hop : f.op.toNat ∈ [0x30, 0x38])
      (hi : ∀ n, n.toNat ≤ 32 → (mk n).HasFields ⟨f.op, n, 0⟩) : OpcodeRow f (decodeA f 32 mk)
  | riceParameter (mk : BitVec 8 → Instr) (hop : f.op.toNat ∈ [0x40, 0x41])
      (hi : ∀ n, n.toNat ≤ 15 → (mk n).HasFields ⟨f.op, n, 0⟩) : OpcodeRow f (decodeA f 15 mk)
  | unassigned (hop : UnassignedOpcode f.op.toNat) : OpcodeRow f (.error .unassignedOpcode)

theorem opcodeRow (f : Fields) : OpcodeRow f (decodeFields f) := by
  obtain ⟨op, a, imm⟩ := f
  simp only [decodeFields]
  split -- the cases are the arms in the order of R74
  case h_3 => exact .setr rfl
  case h_4 | h_5 => exact .value _ (by simp) fun _ => ⟨rfl, rfl⟩
  case h_7 | h_8 | h_9 | h_10 => exact .line _ (by simp) fun _ => ⟨rfl, rfl⟩
  case h_11 | h_12 | h_13 | h_14 => exact .plane _ (by simp) ⟨rfl, rfl⟩
  case h_19 | h_25 => exact .bitCount _ (by simp) fun _ h => ⟨decide_eq_true h, rfl⟩
  case h_31 | h_32 => exact .riceParameter _ (by simp) fun _ h => ⟨decide_eq_true h, rfl⟩
  case h_35 => exact .unassigned (by simp only [UnassignedOpcode, imp_false] at *; bv_omega)
  -- every other arm is a row of format `Z`
  all_goals exact .plain _ (by simp [opcodesZ]) ⟨rfl, rfl⟩

/-! ## The round trip (R76) -/

/-- What a row accepts is legal and has the fields that were read. -/
theorem OpcodeRow.hasFields (h : OpcodeRow f r) (hr : r = .ok j) : j.HasFields f := by
  obtain ⟨op, a, imm⟩ := f
  cases h with
  | plain i hop hi =>
    obtain ⟨⟨rfl, rfl⟩, rfl⟩ := decodeZ_ok.1 hr
    exact hi
  | setr hop =>
    obtain ⟨c, ⟨rfl, hw⟩, rfl⟩ := decodeSetr_ok.1 hr
    cases hop
    exact ⟨hw, rfl⟩
  | value mk hop hi =>
    obtain ⟨rfl, rfl⟩ := decodeI_ok.1 hr
    exact hi imm
  | line mk hop hi =>
    obtain ⟨rfl, rfl⟩ := decodeLine_ok.1 hr
    exact hi imm
  | plane i hop hi =>
    obtain ⟨⟨rfl, rfl⟩, rfl⟩ := decodeKernel_ok.1 hr
    exact hi
  | bitCount mk hop hi | riceParameter mk hop hi =>
    obtain ⟨⟨hn, rfl⟩, rfl⟩ := decodeA_ok.1 hr
    exact hi a hn
  | unassigned => cases hr

/-- A legal command is read back from its fields: the family `EncodedFields`, one lemma per command. -/
theorem decodeFields_encodeFields (hw : i.WellFormed = true) : decodeFields (encodeFields i) = .ok i := by
  cases i with
  | setr c v => exact (Laws.EncodedFields.setr c v).2 hw
  | putbits n => exact (Laws.EncodedFields.putbits n).2 hw
  | getbits n => exact (Laws.EncodedFields.getbits n).2 hw
  | riceenc k => exact (Laws.EncodedFields.riceenc k).2 hw
  | ricedec k => exact (Laws.EncodedFields.ricedec k).2 hw
  | _ => rfl

/-- Settles O1: rows accept only what has the fields read, a word is its fields, and legal commands are read back. -/
theorem decodeAcceptsExactlyTheEncodings : Obligations.DecodeAcceptsExactlyTheEncodings := by
  intro cw i
  constructor
  · intro h
    obtain ⟨hw, hf⟩ := (opcodeRow (fieldsOf cw)).hasFields h
    exact ⟨hw, by rw [encode, hf, wordOf_fieldsOf]⟩
  · rintro ⟨hw, rfl⟩
    rw [decode_encode_fields, decodeFields_encodeFields hw]

/-! ## The illegal words (R77) -/

/-- R77's list as a condition on the three fields as numbers. -/
def ListedIllegal (op a imm : Nat) : Prop :=
  UnassignedOpcode op ∨
  (op ∈ opcodesZ ∧ (a ≠ 0 ∨ imm ≠ 0)) ∨
  (op ∈ [0x30, 0x38, 0x40, 0x41, 0x14, 0x15, 0x16, 0x17] ∧ imm ≠ 0) ∨
  (op ∈ [0x04, 0x05] ∧ a ≠ 0) ∨
  (op = 0x03 ∧ (4 < a ∨ (a = 4 ∧ 255 < imm))) ∨
  (op ∈ [0x30, 0x38] ∧ 32 < a) ∨
  (op ∈ [0x40, 0x41] ∧ 15 < a) ∨
  (op ∈ [0x10, 0x11, 0x12, 0x13, 0x14, 0x15, 0x16, 0x17] ∧ a ≠ 0)

section
variable {op : Nat} (a imm : Nat)

theorem listedIllegal_plain (h : op ∈ opcodesZ) : ListedIllegal op a imm ↔ a ≠ 0 ∨ imm ≠ 0 := by
  revert op
  simp [ListedIllegal, UnassignedOpcode, opcodesZ]

theorem listedIllegal_setr : ListedIllegal 0x03 a imm ↔ 4 < a ∨ (a = 4 ∧ 255 < imm) := by
  simp [ListedIllegal, UnassignedOpcode, opcodesZ]

theorem listedIllegal_value (h : op ∈ [0x04, 0x05]) : ListedIllegal op a imm ↔ a ≠ 0 := by
  revert op
  simp [ListedIllegal, UnassignedOpcode, opcodesZ]

theorem listedIllegal_line (h : op ∈ [0x10, 0x11, 0x12, 0x13]) : ListedIllegal op a imm ↔ a ≠ 0 := by
  revert op
  simp [ListedIllegal, UnassignedOpcode, opcodesZ]

theorem listedIllegal_plane (h : op ∈ [0x14, 0x15, 0x16, 0x17]) : ListedIllegal op a imm ↔ imm ≠ 0 ∨ a ≠ 0 := by
  revert op
  simp [ListedIllegal, UnassignedOpcode, opcodesZ]

theorem listedIllegal_bitCount (h : op ∈ [0x30, 0x38]) : ListedIllegal op a imm ↔ imm ≠ 0 ∨ 32 < a := by
  revert op
  simp [ListedIllegal, UnassignedOpcode, opcodesZ]

theorem listedIllegal_riceParameter (h : op ∈ [0x40, 0x41]) : ListedIllegal op a imm ↔ imm ≠ 0 ∨ 15 < a := by
  revert op
  simp [ListedIllegal, UnassignedOpcode, opcodesZ]

end

theorem exists_error_iff : (∃ e, r = .error e) ↔ ¬∃ j, r = .ok j := by
  cases r <;> simp

/-- A row rejects exactly what R77 lists. -/
theorem OpcodeRow.error_iff (h : OpcodeRow f r) :
    (∃ e, r = .error e) ↔ ListedIllegal f.op.toNat f.a.toNat f.imm.toNat := by
  rw [exists_error_iff]
  cases h with
  | plain i hop => simp [decodeZ_ok, listedIllegal_plain _ _ hop, BitVec.toNat_eq, imp_iff_not_or]
  | setr hop => simp [decodeSetr_ok, hop, listedIllegal_setr, ← setr_illegal_iff]
  | value mk hop => simp [decodeI_ok, listedIllegal_value _ _ hop, BitVec.toNat_eq]
  | line mk hop => simp [decodeLine_ok, listedIllegal_line _ _ hop, BitVec.toNat_eq]
  | plane i hop => simp [decodeKernel_ok, listedIllegal_plane _ _ hop, BitVec.toNat_eq, imp_iff_not_or, or_comm]
  | bitCount mk hop => simp [decodeA_ok, listedIllegal_bitCount _ _ hop, BitVec.toNat_eq, imp_iff_not_or, or_comm]
  | riceParameter mk hop =>
    simp [decodeA_ok, listedIllegal_riceParameter _ _ hop, BitVec.toNat_eq, imp_iff_not_or, or_comm]
  | unassigned hop => simp [ListedIllegal, hop]

/-! ## The encoding formula (R75) -/

theorem wordOf_toNat (f : Fields) :
    (wordOf f).toNat = f.op.toNat * 2 ^ 24 + f.a.toNat * 2 ^ 16 + f.imm.toNat := by
  have ha := f.a.isLt
  have hi := f.imm.isLt
  show ((f.op ++ f.a) ++ f.imm).toNat = _
  rw [BitVec.toNat_append, BitVec.toNat_append, ← Nat.shiftLeft_add_eq_or_of_lt hi,
    ← Nat.shiftLeft_add_eq_or_of_lt ha, Nat.shiftLeft_eq, Nat.shiftLeft_eq]
  omega

/-- Settles O2: the formula of a word's fields; the words by evaluation. -/
theorem encodingFormulaAndWords : Obligations.EncodingFormulaAndWords :=
  ⟨fun i => wordOf_toNat (encodeFields i), by decide, by decide, by decide⟩

end Sys2Proof

namespace Sys2Proof.Machine

/-- Decode faults are fault entry and nothing else (`45_system.md` R207, `60_exceptions.md` R244). -/
theorem step_of_illegal {s : State} {cw : CmdWord} {e : Illegal} (hr : s.run = .running) (hf : s.fetch = some cw)
    (hd : decode cw = .error e) : step s = .next (s.takeFault .illegalCommand) := by
  simp [step, hr, hf, hd]

/-- Settles O3: the words by the rows of the opcode map, the step by fault entry. -/
theorem illegalWordsAreExactlyThoseListed : Obligations.IllegalWordsAreExactlyThoseListed :=
  ⟨fun cw => (opcodeRow (fieldsOf cw)).error_iff, fun _ _ _ hr hf hd => step_of_illegal hr hf hd,
    ⟨.unassignedOpcode, by decide⟩, ⟨.unassignedOpcode, by decide⟩⟩

end Sys2Proof.Machine
end

section
/-! SUPPORT. The lifting step place by place (`40_dwt.md` R102 to R106): the two halves of a line after a step, the sums
and results at each place, the round trip, the overflow events and their independence of the width of the sums. -/

namespace Sys2Proof.Machine

variable {width : LiftWidth} {x y : List Sample}

/-! ## The halves of a line after a step -/

theorem fLift_take (h : x.length % 2 = 0) : (fLift width x).out.take (x.length / 2) = updatedLow width x := by
  rw [fLift_out, ← updatedLow_length width h, List.take_left]

theorem fLift_drop (h : x.length % 2 = 0) : (fLift width x).out.drop (x.length / 2) = predictedHigh width x := by
  rw [fLift_out, ← updatedLow_length width h, List.drop_left]

theorem restored_lengths (h : y.length % 2 = 0) : (restoredLow width y).length = (restoredHigh width y).length := by
  rw [restoredLow_length width h, restoredHigh_length width h]

theorem evens_iLift (h : y.length % 2 = 0) : evens (iLift width y).out = restoredLow width y :=
  evens_interleave (restored_lengths h)

theorem odds_iLift (h : y.length % 2 = 0) : odds (iLift width y).out = restoredHigh width y :=
  odds_interleave (restored_lengths h)

/-! ## The round trip (R106) -/

theorem restoredLow_fLift (h : x.length % 2 = 0) : restoredLow width (fLift width x).out = evens x := by
  rw [restoredLow, fLift_length width h, fLift_take h, fLift_drop h]
  refine undo_add (quarter width) _ _ ?_
  rw [updateSums_length, predictedHigh_length width h, evens_length]
  omega

theorem restoredHigh_fLift (h : x.length % 2 = 0) : restoredHigh width (fLift width x).out = odds x := by
  rw [restoredHigh, restoredLow_fLift h, fLift_length width h, fLift_drop h]
  refine undo_sub (half width) _ _ ?_
  rw [predictSums_length, evens_length, odds_length]
  omega

theorem iLift_fLift (h : x.length % 2 = 0) : (iLift width (fLift width x).out).out = x := by
  rw [iLift_out, restoredLow_fLift h, restoredHigh_fLift h, interleave_evens_odds]

theorem predictedHigh_iLift (h : y.length % 2 = 0) :
    predictedHigh width (iLift width y).out = y.drop (y.length / 2) := by
  rw [predictedHigh, evens_iLift h, odds_iLift h]
  refine undo_add (half width) _ _ ?_
  rw [predictSums_length, restoredLow_length width h, List.length_drop]
  omega

theorem updatedLow_iLift (h : y.length % 2 = 0) : updatedLow width (iLift width y).out = y.take (y.length / 2) := by
  rw [updatedLow, predictedHigh_iLift h, evens_iLift h]
  refine undo_sub (quarter width) _ _ ?_
  rw [updateSums_length, List.length_take, List.length_drop]
  omega

theorem fLift_iLift (h : y.length % 2 = 0) : (fLift width (iLift width y).out).out = y := by
  rw [fLift_out, updatedLow_iLift h, predictedHigh_iLift h, List.take_append_drop]

/-- Settles O14: each stage takes away what the same stage added, in the reverse order. -/
theorem liftingRoundTrip : Obligations.LiftingRoundTrip :=
  fun _ _ h _ => ⟨iLift_fLift h, fLift_iLift h⟩

/-! ## The sums at each place (R102, R103)

A step relates a line `x` with its elements interleaved and a line `y` of two halves; both steps form the predict sums
from `x` and the update sums from `y`. -/

/-- The element at place `i` as an integer. -/
def valueAt (l : List Sample) (i : Nat) : Int :=
  (l.getD i 0).toInt

/-- `low[i] + low[min(i+1, hn−1)]` of an interleaved line. -/
def predictSum (hn : Nat) (x : List Sample) (i : Nat) : Int :=
  valueAt x (2 * i) + valueAt x (2 * min (i + 1) (hn - 1))

/-- `d[i−1] + d[i] + 2` of a line of two halves. -/
def updateSum (hn : Nat) (y : List Sample) (i : Nat) : Int :=
  valueAt y (hn + (i - 1)) + valueAt y (hn + i) + 2

theorem valueAt_evens (x : List Sample) (i : Nat) : valueAt (evens x) i = valueAt x (2 * i) := by
  simp only [valueAt, List.getD_eq_getElem?_getD, evens_getElem?]

theorem valueAt_odds (x : List Sample) (i : Nat) : valueAt (odds x) i = valueAt x (2 * i + 1) := by
  simp only [valueAt, List.getD_eq_getElem?_getD, odds_getElem?]

theorem valueAt_drop (y : List Sample) (n i : Nat) : valueAt (y.drop n) i = valueAt y (n + i) := by
  simp only [valueAt, List.getD_eq_getElem?_getD, List.getElem?_drop]

theorem valueAt_take (y : List Sample) {n i : Nat} (hi : i < n) : valueAt (y.take n) i = valueAt y i := by
  simp only [valueAt, List.getD_eq_getElem?_getD, List.getElem?_take_of_lt hi]

/-- A list is the list of its elements by place. -/
theorem eq_map_range {α : Type} {l : List α} {n : Nat} {f : Nat → α} (hl : l.length = n)
    (hf : ∀ i < n, l[i]? = some (f i)) : l = (List.range n).map f := by
  refine List.ext_getElem? fun i => ?_
  by_cases hi : i < n
  · simp [hf i hi, hi]
  · simp [hl, hi]

variable {hn : Nat}

theorem predictSums_evens (hl : (evens x).length = hn) :
    predictSums (evens x) = (List.range hn).map (predictSum hn x) := by
  refine eq_map_range ((predictSums_length _).trans hl) fun i hi => ?_
  rw [predictSums_getElem? _ (by omega), hl]
  exact congrArg some (congrArg₂ (· + ·) (valueAt_evens x i) (valueAt_evens x _))

theorem updateSums_drop (hl : (y.drop hn).length = hn) :
    updateSums (y.drop hn) = (List.range hn).map (updateSum hn y) := by
  refine eq_map_range ((updateSums_length _).trans hl) fun i hi => ?_
  rw [updateSums_getElem? _ (by omega)]
  exact congrArg some (congrArg₂ (· + · + 2) (valueAt_drop y hn _) (valueAt_drop y hn i))

/-- A stage combines each element of a half with a quantity of its place. -/
theorem zipWith_map_range (g : Int → Int → Int) {l : List Sample} {v q : Nat → Int} (hl : l.length = hn)
    (hv : ∀ i < hn, valueAt l i = v i) :
    List.zipWith (fun a z => g a.toInt z) l ((List.range hn).map q) = (List.range hn).map fun i => g (v i) (q i) := by
  refine eq_map_range (by simp [hl]) fun i hi => ?_
  rw [← hv i hi, List.getElem?_zipWith, getElem?_eq_getD (by omega)]
  simp [hi, valueAt]

/-! ## The results of the stages before narrowing -/

theorem fLift_predictSums (h : x.length % 2 = 0) :
    predictSums (evens x) = (List.range (x.length / 2)).map (predictSum (x.length / 2) x) :=
  predictSums_evens (by rw [evens_length]; omega)

theorem fLift_predicted (width : LiftWidth) (h : x.length % 2 = 0) :
    List.zipWith (fun v z => v.toInt - half width z) (odds x) (predictSums (evens x)) =
      (List.range (x.length / 2)).map fun i => valueAt x (2 * i + 1) - half width (predictSum (x.length / 2) x i) := by
  rw [fLift_predictSums h]
  exact zipWith_map_range (fun a z => a - half width z) (odds_length x) fun i _ => valueAt_odds x i

theorem fLift_updateSums (width : LiftWidth) (h : x.length % 2 = 0) :
    updateSums (predictedHigh width x) =
      (List.range (x.length / 2)).map (updateSum (x.length / 2) (fLift width x).out) := by
  rw [← fLift_drop h]
  exact updateSums_drop (by rw [fLift_drop h, predictedHigh_length width h])

theorem fLift_updated (width : LiftWidth) (h : x.length % 2 = 0) :
    List.zipWith (fun v z => v.toInt + quarter width z) (evens x) (updateSums (predictedHigh width x)) =
      (List.range (x.length / 2)).map fun i =>
        valueAt x (2 * i) + quarter width (updateSum (x.length / 2) (fLift width x).out i) := by
  rw [fLift_updateSums width h]
  exact zipWith_map_range (fun a z => a + quarter width z) (by rw [evens_length]; omega) fun i _ => valueAt_evens x i

theorem iLift_updateSums (h : y.length % 2 = 0) :
    updateSums (y.drop (y.length / 2)) = (List.range (y.length / 2)).map (updateSum (y.length / 2) y) :=
  updateSums_drop (by rw [List.length_drop]; omega)

theorem iLift_restoredLow (width : LiftWidth) (h : y.length % 2 = 0) :
    List.zipWith (fun v z => v.toInt - quarter width z) (y.take (y.length / 2))
        (updateSums (y.drop (y.length / 2))) =
      (List.range (y.length / 2)).map fun i => valueAt y i - quarter width (updateSum (y.length / 2) y i) := by
  rw [iLift_updateSums h]
  exact zipWith_map_range (fun a z => a - quarter width z) (by rw [List.length_take]; omega)
    fun i hi => valueAt_take y hi

theorem iLift_predictSums (width : LiftWidth) (h : y.length % 2 = 0) :
    predictSums (restoredLow width y) =
      (List.range (y.length / 2)).map (predictSum (y.length / 2) (iLift width y).out) := by
  rw [← evens_iLift h]
  exact predictSums_evens (by rw [evens_iLift h, restoredLow_length width h])

theorem iLift_restoredHigh (width : LiftWidth) (h : y.length % 2 = 0) :
    List.zipWith (fun v z => v.toInt + half width z) (y.drop (y.length / 2)) (predictSums (restoredLow width y)) =
      (List.range (y.length / 2)).map fun i =>
        valueAt y (y.length / 2 + i) + half width (predictSum (y.length / 2) (iLift width y).out i) := by
  rw [iLift_predictSums width h]
  exact zipWith_map_range (fun a z => a + half width z) (by rw [List.length_drop]; omega)
    fun i _ => valueAt_drop y _ i

/-! ## The elements of the line after a step (R102, R103) -/

variable {i : Nat}

theorem fLift_high_getElem? (width : LiftWidth) (h : x.length % 2 = 0) (hi : i < x.length / 2) :
    (fLift width x).out[x.length / 2 + i]? =
      some (wrap16 (valueAt x (2 * i + 1) - half width (predictSum (x.length / 2) x i))) := by
  rw [← List.getElem?_drop, fLift_drop h, predictedHigh, fLift_predicted width h]
  simp [hi]

theorem fLift_low_getElem? (width : LiftWidth) (h : x.length % 2 = 0) (hi : i < x.length / 2) :
    (fLift width x).out[i]? =
      some (wrap16 (valueAt x (2 * i) + quarter width (updateSum (x.length / 2) (fLift width x).out i))) := by
  rw [← List.getElem?_take_of_lt hi, fLift_take h, updatedLow, fLift_updated width h]
  simp [hi]

theorem iLift_even_getElem? (width : LiftWidth) (h : y.length % 2 = 0) (hi : i < y.length / 2) :
    (iLift width y).out[2 * i]? =
      some (wrap16 (valueAt y i - quarter width (updateSum (y.length / 2) y i))) := by
  rw [← evens_getElem?, evens_iLift h, restoredLow, iLift_restoredLow width h]
  simp [hi]

theorem iLift_odd_getElem? (width : LiftWidth) (h : y.length % 2 = 0) (hi : i < y.length / 2) :
    (iLift width y).out[2 * i + 1]? =
      some (wrap16 (valueAt y (y.length / 2 + i) +
        half width (predictSum (y.length / 2) (iLift width y).out i))) := by
  rw [← odds_getElem?, odds_iLift h, restoredHigh, iLift_restoredHigh width h]
  simp [hi]

/-- Settles O12: the high half by the predict stage, the low half by the update stage. -/
theorem forwardStepFormula : Obligations.ForwardStepFormula :=
  fun width _ h _ => ⟨fLift_length width h, fun _ hi => ⟨fLift_high_getElem? width h hi, fLift_low_getElem? width h hi⟩⟩

/-- Settles O13: the even elements by undoing the update, the odd ones by undoing the predict stage. -/
theorem inverseStepFormula : Obligations.InverseStepFormula :=
  fun width _ h _ => ⟨iLift_length width h, fun _ hi => ⟨iLift_even_getElem? width h hi, iLift_odd_getElem? width h hi⟩⟩

/-! ## The overflow events (R105) -/

theorem overflows_append (zs ws : List Int) : overflows (zs ++ ws) = (overflows zs || overflows ws) := by
  simp [overflows]

/-- What four stages over the same places hold, place by place. -/
theorem exists_mem_stages {n : Nat} {a b c d : Nat → Int} {P : Int → Prop} :
    (∃ z ∈ (List.range n).map a ++ (List.range n).map b ++ (List.range n).map c ++ (List.range n).map d, P z) ↔
      ∃ i < n, ∃ z ∈ [a i, b i, c i, d i], P z := by
  simp [or_and_right, and_or_left, exists_or]

theorem overflows_stages {n : Nat} {a b c d : Nat → Int} :
    overflows ((List.range n).map a ++ (List.range n).map b ++ (List.range n).map c ++ (List.range n).map d) = true ↔
      ∃ i < n, ∃ z ∈ [a i, b i, c i, d i], z < -32768 ∨ 32767 < z :=
  overflows_eq_true.trans exists_mem_stages

theorem fLift_ovf_iff (width : LiftWidth) (h : x.length % 2 = 0) :
    (fLift width x).ovf = true ↔ ∃ i < x.length / 2, ∃ z ∈
      [predictSum (x.length / 2) x i, valueAt x (2 * i + 1) - half width (predictSum (x.length / 2) x i),
        updateSum (x.length / 2) (fLift width x).out i,
        valueAt x (2 * i) + quarter width (updateSum (x.length / 2) (fLift width x).out i)],
      z < -32768 ∨ 32767 < z := by
  rw [← overflows_stages, ← fLift_updated width h, ← fLift_updateSums width h, ← fLift_predicted width h,
    ← fLift_predictSums h]
  rfl

theorem iLift_ovf_iff (width : LiftWidth) (h : y.length % 2 = 0) :
    (iLift width y).ovf = true ↔ ∃ i < y.length / 2, ∃ z ∈
      [predictSum (y.length / 2) (iLift width y).out i,
        valueAt y (y.length / 2 + i) + half width (predictSum (y.length / 2) (iLift width y).out i),
        updateSum (y.length / 2) y i, valueAt y i - quarter width (updateSum (y.length / 2) y i)],
      z < -32768 ∨ 32767 < z := by
  rw [← overflows_stages, ← iLift_restoredHigh width h, ← iLift_predictSums width h, ← iLift_restoredLow width h,
    ← iLift_updateSums h, List.append_assoc, overflows_append, Bool.or_comm, ← overflows_append, ← List.append_assoc]
  rfl

/-! ## The width of the sums (R104, R105) -/

theorem half_of_fits (width : LiftWidth) {z : Int} (hz : -32768 ≤ z ∧ z ≤ 32767) : half width z = z / 2 := by
  cases width with
  | wide => exact half_wide z
  | wrap16 => rw [half_wrap16, ← wrap16, wrap16_toInt_of_fits hz]

theorem quarter_of_fits (width : LiftWidth) {z : Int} (hz : -32768 ≤ z ∧ z ≤ 32767) : quarter width z = z / 4 := by
  cases width with
  | wide => exact quarter_wide z
  | wrap16 => rw [quarter_wrap16, ← wrap16, wrap16_toInt_of_fits hz]

/-- Both widths shift sums that fit alike. -/
theorem half_congr_width (w w' : LiftWidth) {q : List Int} (hq : ∀ z ∈ q, -32768 ≤ z ∧ z ≤ 32767) :
    ∀ z ∈ q, half w z = half w' z := fun z hz => by
  rw [half_of_fits w (hq z hz), half_of_fits w' (hq z hz)]

theorem quarter_congr_width (w w' : LiftWidth) {q : List Int} (hq : ∀ z ∈ q, -32768 ≤ z ∧ z ≤ 32767) :
    ∀ z ∈ q, quarter w z = quarter w' z := fun z hz => by
  rw [quarter_of_fits w (hq z hz), quarter_of_fits w' (hq z hz)]

/-- A stage depends on its shift only through the sums that occur. -/
theorem zipWith_congr_shift {f f' : Int → Int} (g : Int → Int → Int) {q : List Int} (hq : ∀ z ∈ q, f z = f' z)
    (l : List Sample) :
    List.zipWith (fun v z => g v.toInt (f z)) l q = List.zipWith (fun v z => g v.toInt (f' z)) l q := by
  have e (f : Int → Int) :
      List.zipWith (fun v z => g v.toInt (f z)) l q = List.zipWith (fun v z => g v.toInt z) l (q.map f) :=
    List.zipWith_map_right.symm
  rw [e, e, List.map_congr_left hq]

theorem fLift_eq (width : LiftWidth) (x : List Sample) : fLift width x =
    { out := updatedLow width x ++ predictedHigh width x
      ovf := overflows (predictSums (evens x) ++
        List.zipWith (fun v z => v.toInt - half width z) (odds x) (predictSums (evens x)) ++
        updateSums (predictedHigh width x) ++
        List.zipWith (fun v z => v.toInt + quarter width z) (evens x) (updateSums (predictedHigh width x))) } := rfl

theorem iLift_eq (width : LiftWidth) (y : List Sample) : iLift width y =
    { out := interleave (restoredLow width y) (restoredHigh width y)
      ovf := overflows (updateSums (y.drop (y.length / 2)) ++
        List.zipWith (fun v z => v.toInt - quarter width z) (y.take (y.length / 2))
          (updateSums (y.drop (y.length / 2))) ++
        predictSums (restoredLow width y) ++
        List.zipWith (fun v z => v.toInt + half width z) (y.drop (y.length / 2))
          (predictSums (restoredLow width y))) } := rfl

/-- Without an event the sums fit, so the other width forms the same values stage by stage. -/
theorem fLift_congr_width {w : LiftWidth} (w' : LiftWidth) (h : (fLift w x).ovf = false) : fLift w' x = fLift w x := by
  simp only [fLift_eq, overflows_eq_false, List.forall_mem_append] at h
  obtain ⟨⟨⟨hp, -⟩, hu⟩, -⟩ := h
  have hd := zipWith_congr_shift (· - ·) (half_congr_width w' w hp) (odds x)
  have hh : predictedHigh w' x = predictedHigh w x := congrArg (List.map wrap16) hd
  have hs := zipWith_congr_shift (· + ·) (quarter_congr_width w' w hu) (evens x)
  have hl : updatedLow w' x = updatedLow w x := by rw [updatedLow, hh, hs, updatedLow]
  rw [fLift_eq, fLift_eq, hl, hh, hs, hd]

theorem iLift_congr_width {w : LiftWidth} (w' : LiftWidth) (h : (iLift w y).ovf = false) : iLift w' y = iLift w y := by
  simp only [iLift_eq, overflows_eq_false, List.forall_mem_append] at h
  obtain ⟨⟨⟨hu, -⟩, hp⟩, -⟩ := h
  have hd := zipWith_congr_shift (· - ·) (quarter_congr_width w' w hu) (y.take (y.length / 2))
  have hl : restoredLow w' y = restoredLow w y := congrArg (List.map wrap16) hd
  have hs := zipWith_congr_shift (· + ·) (half_congr_width w' w hp) (y.drop (y.length / 2))
  have hh : restoredHigh w' y = restoredHigh w y := by rw [restoredHigh, hl, hs, restoredHigh]
  rw [iLift_eq, iLift_eq, hl, hh, hs, hd]

/-- Two widths that agree wherever one of them meets no event meet the same events. -/
theorem ovf_eq_of_congr_width {step : LiftWidth → LineResult}
    (h : ∀ w w', (step w).ovf = false → step w' = step w) (w w' : LiftWidth) : (step w).ovf = (step w').ovf := by
  cases hw : (step w).ovf with
  | false => rw [h w w' hw, hw]
  | true =>
    cases hw' : (step w').ovf with
    | false => rw [h w' w hw', hw'] at hw; cases hw
    | true => rfl

/-- Settles O15: the events stage by stage; a line without an event in one width has none in the other. -/
theorem liftingOverflowEvents : Obligations.LiftingOverflowEvents :=
  ⟨fun width _ h _ => fLift_ovf_iff width h, fun width _ h _ => iLift_ovf_iff width h, fun _ _ _ =>
    ⟨ovf_eq_of_congr_width (fun _ => fLift_congr_width) _ _, ovf_eq_of_congr_width (fun _ => iLift_congr_width) _ _⟩⟩

/-- Settles O16: both widths give the line of the width that met no event. -/
theorem widthsAgreeWithoutOverflow : Obligations.WidthsAgreeWithoutOverflow :=
  fun _ _ => ⟨fun h => by rw [fLift_congr_width .wide h, fLift_congr_width .wrap16 h],
    fun h => by rw [iLift_congr_width .wide h, iLift_congr_width .wrap16 h]⟩

end Sys2Proof.Machine
end

section
/-! SUPPORT. The commands that use the region: their checks (`60_exceptions.md` R243), the line commands (`40_dwt.md` R113
to R116), and the plane transforms as their lines and levels (R111, R117 to R120). -/

namespace Sys2Proof.Machine

variable {s : State}

/-! ## The checks (`40_dwt.md` R112, `41_quantizer.md` R138, `42_zigzag.md` R149) -/

theorem State.regionFault_dimensions {d : Bool} (hd : ¬ d = true) : s.regionFault d = some .illegalConfig :=
  if_pos (Bool.eq_false_of_not_eq_true hd)

theorem State.regionFault_stride {d : Bool} (hd : d = true) (hs : s.stride.toNat < s.w.toNat) :
    s.regionFault d = some .illegalConfig := by
  simp [State.regionFault, hd, hs]

theorem State.regionFault_range {d : Bool} (hd : d = true) (hs : s.w.toNat ≤ s.stride.toNat)
    (ha : s.cfg.cmWords < s.org.toNat + (s.h.toNat - 1) * s.stride.toNat + s.w.toNat) :
    s.regionFault d = some .addrRange := by
  simp [State.regionFault, hd, hs.not_gt, ha]

theorem liftCommand_fault {d : Bool} {work : LiftState → Option LiftState} {f : FaultCode}
    (h : s.regionFault d = some f) : liftCommand d work s = .next (s.takeFault f) := by
  simp only [liftCommand, h]

theorem quantCommand_fault {value : Int → Nat → Int} {f : FaultCode} (h : s.regionFault s.quantOk = some f) :
    quantCommand value s = .next (s.takeFault f) := by
  simp only [quantCommand, h]

theorem execZigzag_fault {f : FaultCode} (h : s.regionFault s.blockOk = some f) :
    execZigzag s = .next (s.takeFault f) := by
  simp only [execZigzag, h]

theorem execUnzigzag_fault {f : FaultCode} (h : s.regionFault s.blockOk = some f) :
    execUnzigzag s = .next (s.takeFault f) := by
  simp only [execUnzigzag, h]

/-- Every command that uses the region begins with the region check on its dimension check, and a fault found there is
all that it does. -/
theorem exec_regionFault {i : Instr} (s : State) (hi : usesRegion i = true) :
    ∃ d : Bool, (d = true ↔ DimensionsOk i s) ∧ ∀ f, s.regionFault d = some f → exec i s = .next (s.takeFault f) := by
  cases i with
  | fliftr k | iliftr k => exact ⟨s.rowOk k, s.rowOk_iff k, fun _ => liftCommand_fault⟩
  | fliftc k | iliftc k => exact ⟨s.colOk k, s.colOk_iff k, fun _ => liftCommand_fault⟩
  | fdwt2 | idwt2 => exact ⟨s.planeOk, s.planeOk_iff, fun _ => liftCommand_fault⟩
  | fdwt2l => exact ⟨s.plane2Ok, s.plane2Ok_iff, fun _ => show _ → execFdwt2l s = _ from liftCommand_fault⟩
  | idwt2l => exact ⟨s.plane2Ok, s.plane2Ok_iff, fun _ => show _ → execIdwt2l s = _ from liftCommand_fault⟩
  | quant | dequant => exact ⟨s.quantOk, s.quantOk_iff_dimensionsOk, fun _ => quantCommand_fault⟩
  | zigzag => exact ⟨s.blockOk, s.blockOk_iff_dimensionsOk, fun _ => execZigzag_fault⟩
  | unzigzag => exact ⟨s.blockOk, s.blockOk_iff_dimensionsOk, fun _ => execUnzigzag_fault⟩
  | _ => cases hi

/-- Settles O21: each clause is one outcome of the region check. -/
theorem regionChecksComeFirst : Obligations.RegionChecksComeFirst := by
  intro i s hi
  obtain ⟨d, hd, hx⟩ := exec_regionFault s hi
  rw [← hd]
  exact ⟨fun h => hx _ (State.regionFault_dimensions h), fun h hs => hx _ (State.regionFault_stride h hs),
    fun h hs ha => hx _ (State.regionFault_range h hs ha)⟩

/-! ## The lifting commands on a region that passes its checks -/

/-- The state `s` at another `pc` with what lifting commands have left in `CM` and `OVF`. -/
def State.lifted (s : State) (a : LiftState) (p : BitVec 16) : State :=
  { s with cm := a.cm, ovf := a.ovf, pc := p }

section
variable {k p : BitVec 16} {a b : LiftState} (hf : s.RegionFits)
include hf

theorem exec_fliftr (hd : DimensionsOk (.fliftr k) s)
    (h : liftLine (fLift s.cfg.liftWidth) (s.rowLine s.w.toNat k.toNat) a = some b) :
    exec (.fliftr k) (s.lifted a p) = .next (s.lifted b (p + 1)) :=
  liftCommand_ok (s := s.lifted a p) ((s.rowOk_iff k).2 hd) hf h

theorem exec_iliftr (hd : DimensionsOk (.iliftr k) s)
    (h : liftLine (iLift s.cfg.liftWidth) (s.rowLine s.w.toNat k.toNat) a = some b) :
    exec (.iliftr k) (s.lifted a p) = .next (s.lifted b (p + 1)) :=
  liftCommand_ok (s := s.lifted a p) ((s.rowOk_iff k).2 hd) hf h

theorem exec_fliftc (hd : DimensionsOk (.fliftc k) s)
    (h : liftLine (fLift s.cfg.liftWidth) (s.colLine s.h.toNat k.toNat) a = some b) :
    exec (.fliftc k) (s.lifted a p) = .next (s.lifted b (p + 1)) :=
  liftCommand_ok (s := s.lifted a p) ((s.colOk_iff k).2 hd) hf h

theorem exec_iliftc (hd : DimensionsOk (.iliftc k) s)
    (h : liftLine (iLift s.cfg.liftWidth) (s.colLine s.h.toNat k.toNat) a = some b) :
    exec (.iliftc k) (s.lifted a p) = .next (s.lifted b (p + 1)) :=
  liftCommand_ok (s := s.lifted a p) ((s.colOk_iff k).2 hd) hf h

theorem exec_fdwt2 (hd : DimensionsOk .fdwt2 s) (h : fwd2D s s.w.toNat s.h.toNat a = some b) :
    exec .fdwt2 (s.lifted a p) = .next (s.lifted b (p + 1)) :=
  liftCommand_ok (s := s.lifted a p) (s.planeOk_iff.2 hd) hf h

theorem exec_idwt2 (hd : DimensionsOk .idwt2 s) (h : inv2D s s.w.toNat s.h.toNat a = some b) :
    exec .idwt2 (s.lifted a p) = .next (s.lifted b (p + 1)) :=
  liftCommand_ok (s := s.lifted a p) (s.planeOk_iff.2 hd) hf h

variable {c : LiftState}

theorem exec_fdwt2l (hd : DimensionsOk .fdwt2l s) (h : fwd2D s s.w.toNat s.h.toNat a = some b)
    (h' : fwd2D s (s.w.toNat / 2) (s.h.toNat / 2) b = some c) :
    exec .fdwt2l (s.lifted a p) = .next (s.lifted c (p + 1)) :=
  show execFdwt2l _ = _ from
    liftCommand_ok (s := s.lifted a p) (s.plane2Ok_iff.2 hd) hf (Option.bind_eq_some_iff.2 ⟨b, h, h'⟩)

theorem exec_idwt2l (hd : DimensionsOk .idwt2l s) (h : inv2D s (s.w.toNat / 2) (s.h.toNat / 2) a = some b)
    (h' : inv2D s s.w.toNat s.h.toNat b = some c) :
    exec .idwt2l (s.lifted a p) = .next (s.lifted c (p + 1)) :=
  show execIdwt2l _ = _ from
    liftCommand_ok (s := s.lifted a p) (s.plane2Ok_iff.2 hd) hf (Option.bind_eq_some_iff.2 ⟨b, h, h'⟩)

end

/-! ## One line (R113 to R116) -/

theorem readWords_map_range {m : Memory 16} {addr : Nat → Nat} {n : Nat} {x : List Sample} (hl : x.length = n)
    (hx : ∀ j < n, Memory.read m (addr j) = x[j]?) : readWords m ((List.range n).map addr) = some x := by
  rw [readWords_eq_some, List.map_map]
  refine (eq_map_range (by simp [hl]) fun j hj => ?_).symm
  simp [hx j hj, hl, hj]

/-- A step on a written line of distinct words. -/
theorem liftLine_spec {step : List Sample → LineResult} {addr : Nat → Nat} {n : Nat} {x : List Sample} {a : LiftState}
    (hn : ((List.range n).map addr).Nodup) (hl : x.length = n) (hx : ∀ j < n, Memory.read a.cm (addr j) = x[j]?)
    (hs : (step x).out.length = n) :
    ∃ b, liftLine step ((List.range n).map addr) a = some b ∧ b.ovf = (a.ovf || (step x).ovf) ∧
      (∀ j < n, Memory.read b.cm (addr j) = (step x).out[j]?) ∧
      ∀ c, (∀ j < n, c ≠ addr j) → Memory.read b.cm c = Memory.read a.cm c := by
  refine ⟨⟨_, _⟩, by simp only [liftLine, readWords_map_range hl hx]; rfl, rfl, fun j hj => ?_, fun c hc => ?_⟩
  · have := read_writeWords_getElem (m := a.cm) hn (vs := (step x).out) (by simp [hs]) (i := j) (by simpa using hj)
    simpa using this
  · exact read_writeWords_other (by simpa [eq_comm] using hc)

/-- A command that makes a step on a written line does that and nothing else. -/
theorem exec_line {i : Instr} {step : List Sample → LineResult} {addr : Nat → Nat} {n : Nat} {x : List Sample}
    (hi : ∀ b, liftLine step ((List.range n).map addr) ⟨s.cm, s.ovf⟩ = some b →
      exec i s = .next (s.lifted b (s.pc + 1)))
    (hn : ((List.range n).map addr).Nodup) (hl : x.length = n) (hx : ∀ j < n, Memory.read s.cm (addr j) = x[j]?)
    (hs : (step x).out.length = n) :
    ∃ t, exec i s = .next t ∧ t = { s with cm := t.cm, ovf := s.ovf || (step x).ovf, pc := s.pc + 1 } ∧
      (∀ j < n, Memory.read t.cm (addr j) = (step x).out[j]?) ∧
      ∀ a, (∀ j < n, a ≠ addr j) → Memory.read t.cm a = Memory.read s.cm a := by
  obtain ⟨b, hb, ho, hline, hother⟩ := liftLine_spec (a := ⟨s.cm, s.ovf⟩) hn hl hx hs
  exact ⟨_, hi b hb, by simp only [State.lifted, ho], hline, hother⟩

/-- Settles O17: the row of a row command and the column of a column command have distinct words. -/
theorem lineCommandsTransformTheirLine : Obligations.LineCommandsTransformTheirLine := by
  intro s k x
  refine ⟨fun hd hf hl hx => ?row, fun hd hf hl hx => ?col⟩
  case row =>
    have he : x.length % 2 = 0 := hl ▸ hd.1.1
    exact ⟨exec_line (fun _ => exec_fliftr hf hd) s.rowLine_nodup hl hx ((fLift_length _ he).trans hl),
      exec_line (fun _ => exec_iliftr hf hd) s.rowLine_nodup hl hx ((iLift_length _ he).trans hl)⟩
  case col =>
    have he : x.length % 2 = 0 := hl ▸ hd.1.1
    have hn := s.colLine_nodup (n := s.h.toNat) hf.1 hd.2
    exact ⟨exec_line (fun _ => exec_fliftc hf hd) hn hl hx ((fLift_length _ he).trans hl),
      exec_line (fun _ => exec_iliftc hf hd) hn hl hx ((iLift_length _ he).trans hl)⟩

/-! ## A plane as its lines (R111, R117, R118) -/

theorem execAll_append {is js : List Instr} {t u : State} (h : execAll is s = .next t) (h' : execAll js t = .next u) :
    execAll (is ++ js) s = .next u := by
  induction is generalizing s with
  | nil => cases h; exact h'
  | cons i is ih =>
    simp only [List.cons_append, execAll] at h ⊢
    split at h
    · exact ih h
    · cases h
    · cases h

/-- Line commands executed one after another are the pass over their lines. -/
theorem execAll_pass {step : List Sample → LineResult} {line : Nat → List Nat} {mk : BitVec 16 → Instr} {n : BitVec 16}
    (hmk : ∀ k : BitVec 16, k.toNat < n.toNat → ∀ a b p, liftLine step (line k.toNat) a = some b →
      exec (mk k) (s.lifted a p) = .next (s.lifted b (p + 1)))
    {ks : List Nat} (hk : ∀ k ∈ ks, k < n.toNat) {a b : LiftState} (h : liftLines step (ks.map line) a = some b)
    (p : BitVec 16) :
    ∃ q, execAll ((ks.map (BitVec.ofNat 16)).map mk) (s.lifted a p) = .next (s.lifted b q) := by
  induction ks generalizing a p with
  | nil => cases h; exact ⟨p, rfl⟩
  | cons k ks ih =>
    obtain ⟨c, hc, hcb⟩ := Option.bind_eq_some_iff.1 h
    have hkn := hk k List.mem_cons_self
    have hkk : (BitVec.ofNat 16 k).toNat = k := by rw [BitVec.toNat_ofNat]; omega
    have hx := hmk (BitVec.ofNat 16 k) (by rwa [hkk]) a c p (by rwa [hkk])
    obtain ⟨q, hq⟩ := ih (fun l hl => hk l (List.mem_cons_of_mem _ hl)) hcb (p + 1)
    exact ⟨q, by simp only [List.map_cons, execAll, hx, hq]⟩

/-- Settles O18: each pass is its line commands, and the plane command is its two passes. -/
theorem planeTransformsAreTheirLines : Obligations.PlaneTransformsAreTheirLines := by
  intro s hd hf hr
  obtain ⟨hw, hh⟩ := hd
  have hrect := (s.regionWritten_iff s.ovf).1 hr
  have hrange {n : Nat} : ∀ k ∈ List.range n, k < n := fun _ => List.mem_range.1
  constructor
  · obtain ⟨b, hb⟩ := fwd2D_isSome s hf.1 hw.1 hh.1 hrect
    obtain ⟨m, h1, h2⟩ := Option.bind_eq_some_iff.1 hb
    obtain ⟨q, e1⟩ := execAll_pass (mk := .fliftr) (fun _ hk _ _ _ => exec_fliftr hf ⟨hw, hk⟩) hrange h1 s.pc
    obtain ⟨q', e2⟩ := execAll_pass (mk := .fliftc) (fun _ hk _ _ _ => exec_fliftc hf ⟨hh, hk⟩) hrange h2 q
    exact ⟨_, execAll_append e1 e2, exec_fdwt2 hf ⟨hw, hh⟩ hb⟩
  · obtain ⟨b, hb⟩ := inv2D_isSome s hf.1 hw.1 hh.1 hrect
    obtain ⟨m, h1, h2⟩ := Option.bind_eq_some_iff.1 hb
    obtain ⟨q, e1⟩ := execAll_pass (mk := .iliftc) (fun _ hk _ _ _ => exec_iliftc hf ⟨hh, hk⟩) hrange h1 s.pc
    obtain ⟨q', e2⟩ := execAll_pass (mk := .iliftr) (fun _ hk _ _ _ => exec_iliftr hf ⟨hw, hk⟩) hrange h2 q
    exact ⟨_, execAll_append e1 e2, exec_idwt2 hf ⟨hw, hh⟩ hb⟩

/-! ## The quarter of the second level (R119, R120) -/

/-- The state with `W` and `H` halved. -/
def State.halved (s : State) : State :=
  { s with w := BitVec.ofNat 16 (s.w.toNat / 2), h := BitVec.ofNat 16 (s.h.toNat / 2) }

theorem State.halved_w (s : State) : s.halved.w.toNat = s.w.toNat / 2 := by
  simp only [State.halved, BitVec.toNat_ofNat]
  omega

theorem State.halved_h (s : State) : s.halved.h.toNat = s.h.toNat / 2 := by
  simp only [State.halved, BitVec.toNat_ofNat]
  omega

theorem QuadSize.even {n : Nat} (h : QuadSize n) : EvenSize n := by
  obtain ⟨h4, hn⟩ := h
  exact ⟨by omega, by omega⟩

theorem QuadSize.half {n : Nat} (h : QuadSize n) : EvenSize (n / 2) := by
  obtain ⟨h4, hn⟩ := h
  exact ⟨by omega, by omega⟩

theorem State.halved_dimensions (hd : DimensionsOk .fdwt2l s) : DimensionsOk .fdwt2 s.halved :=
  ⟨s.halved_w ▸ QuadSize.half hd.1, s.halved_h ▸ QuadSize.half hd.2⟩

theorem State.halved_fits (hf : s.RegionFits) : s.halved.RegionFits := by
  obtain ⟨hs, ha⟩ := hf
  have hmul : (s.h.toNat / 2 - 1) * s.stride.toNat ≤ (s.h.toNat - 1) * s.stride.toNat :=
    Nat.mul_le_mul_right _ (by omega)
  rw [State.RegionFits, s.halved_w, s.halved_h]
  exact ⟨show _ ≤ s.stride.toNat by omega, show s.org.toNat + _ * s.stride.toNat + _ ≤ s.cfg.cmWords by omega⟩

theorem LiftState.RectWritten.halved {w h : Nat} {a : LiftState} (ha : LiftState.RectWritten s w h a) :
    LiftState.RectWritten s (w / 2) (h / 2) a :=
  fun b hb => ha b (hb.mono (Nat.div_le_self _ _) (Nat.div_le_self _ _))

/-- `FDWT2` on the halved region is `Fwd2D` on the quarter of the region. -/
theorem exec_fdwt2_halved {a b : LiftState} {p : BitVec 16} (hf : s.RegionFits) (hd : DimensionsOk .fdwt2l s)
    (h : fwd2D s (s.w.toNat / 2) (s.h.toNat / 2) a = some b) :
    exec .fdwt2 (s.halved.lifted a p) = .next (s.halved.lifted b (p + 1)) :=
  exec_fdwt2 (State.halved_fits hf) (State.halved_dimensions hd) (by rw [s.halved_w, s.halved_h]; exact h)

/-- `IDWT2` on the halved region is `Inv2D` on the quarter of the region. -/
theorem exec_idwt2_halved {a b : LiftState} {p : BitVec 16} (hf : s.RegionFits) (hd : DimensionsOk .fdwt2l s)
    (h : inv2D s (s.w.toNat / 2) (s.h.toNat / 2) a = some b) :
    exec .idwt2 (s.halved.lifted a p) = .next (s.halved.lifted b (p + 1)) :=
  exec_idwt2 (State.halved_fits hf) (State.halved_dimensions hd) (by rw [s.halved_w, s.halved_h]; exact h)

/-- Settles O19: the levels are the passes on the region and on its quarter. -/
theorem twoLevelTransformsAreTheirLevels : Obligations.TwoLevelTransformsAreTheirLevels := by
  intro s hd hf hr
  obtain ⟨hw, hh⟩ := hd
  have hrect := (s.regionWritten_iff s.ovf).1 hr
  have hst := hf.1
  constructor
  · obtain ⟨b, hb⟩ := fwd2D_isSome s hst hw.even.1 hh.even.1 hrect
    obtain ⟨c, hc⟩ := fwd2D_isSome s (by omega) hw.half.1 hh.half.1 (hrect.after (fwd2D_within hb)).halved
    exact ⟨_, _, exec_fdwt2 hf ⟨hw.even, hh.even⟩ hb, exec_fdwt2_halved hf ⟨hw, hh⟩ hc, exec_fdwt2l hf ⟨hw, hh⟩ hb hc⟩
  · obtain ⟨b, hb⟩ := inv2D_isSome s (by omega) hw.half.1 hh.half.1 hrect.halved
    obtain ⟨c, hc⟩ := inv2D_isSome s hst hw.even.1 hh.even.1 (hrect.after (inv2D_within hb))
    exact ⟨_, _, exec_idwt2_halved hf ⟨hw, hh⟩ hb, exec_idwt2 hf ⟨hw.even, hh.even⟩ hc, exec_idwt2l hf ⟨hw, hh⟩ hb hc⟩

/-! ## The inverse transforms restore `CM` (R106, R118, R120) -/

/-- Settles O20: `Inv2D` undoes `Fwd2D` on the region, and level by level, the quarter first, on the two levels. -/
theorem inverseTransformsRestoreTheRegion : Obligations.InverseTransformsRestoreTheRegion := by
  intro s hf hr
  have hrect := (s.regionWritten_iff s.ovf).1 hr
  have hst := hf.1
  have hu : ∀ x : List Sample, x.length % 2 = 0 → (iLift s.cfg.liftWidth (fLift s.cfg.liftWidth x).out).out = x :=
    fun _ => iLift_fLift
  constructor
  · intro hd
    obtain ⟨hw, hh⟩ := hd
    obtain ⟨b, hb⟩ := fwd2D_isSome s hst hw.1 hh.1 hrect
    obtain ⟨e, he, hread⟩ := inv2D_fwd2D s hst hw.1 hh.1 hu hrect hb b fun _ => rfl
    exact ⟨_, _, exec_fdwt2 hf ⟨hw, hh⟩ hb, exec_idwt2 hf ⟨hw, hh⟩ he, hread⟩
  · intro hd
    obtain ⟨hw, hh⟩ := hd
    obtain ⟨b, hb⟩ := fwd2D_isSome s hst hw.even.1 hh.even.1 hrect
    have hquarter := (hrect.after (fwd2D_within hb)).halved
    obtain ⟨c, hc⟩ := fwd2D_isSome s (by omega) hw.half.1 hh.half.1 hquarter
    obtain ⟨d, hd, hdread⟩ := inv2D_fwd2D s (by omega) hw.half.1 hh.half.1 hu hquarter hc c fun _ => rfl
    obtain ⟨e, he, hread⟩ := inv2D_fwd2D s hst hw.even.1 hh.even.1 hu hrect hb d hdread
    exact ⟨_, _, exec_fdwt2l hf ⟨hw, hh⟩ hb hc, exec_idwt2l hf ⟨hw, hh⟩ hd he, hread⟩

end Sys2Proof.Machine
end

section
/-! SUPPORT. The quantizer: its value function and its rounding error (`41_quantizer.md` R134, R137), and what `QUANT` and
`DEQUANT` do to a written block, cell by cell (R139, R140). -/

namespace Sys2Proof.Machine

/-! ## The value function (R134) -/

theorem quantized_zero (v : Int) : quantized v 0 = v := if_pos rfl

theorem quantized_succ (v : Int) (k : Nat) :
    quantized v (k + 1) = v.sign * (((v.natAbs + 2 ^ k) / 2 ^ (k + 1) : Nat) : Int) :=
  if_neg (Nat.succ_ne_zero k)

theorem quantized_natAbs_succ (v : Int) (k : Nat) :
    (quantized v (k + 1)).natAbs = (v.natAbs + 2 ^ k) / 2 ^ (k + 1) := by
  rw [quantized_succ, Int.natAbs_mul, Int.natAbs_natCast]
  by_cases hv : v = 0
  · have half_lt : 2 ^ k < 2 ^ (k + 1) := Nat.pow_lt_pow_right Nat.one_lt_two (Nat.lt_succ_self k)
    simp [hv, Nat.div_eq_of_lt half_lt]
  · rw [Int.natAbs_sign_of_ne_zero hv, Nat.one_mul]

/-- The bounds of R134 are cases of this: `Q` stays below `n` exactly if the value is below `n − 1/2` quantization steps. -/
theorem quantized_natAbs_lt_iff {v : Int} {k n : Nat} :
    (quantized v (k + 1)).natAbs < n ↔ v.natAbs + 2 ^ k < n * (2 * 2 ^ k) := by
  rw [quantized_natAbs_succ, Nat.div_lt_iff_lt_mul (Nat.two_pow_pos _), Nat.pow_succ']

theorem quantized_eq_zero {v : Int} {sh : Nat} (hsh : 1 ≤ sh) (h : v.natAbs < 2 ^ (sh - 1)) : quantized v sh = 0 := by
  obtain ⟨k, rfl⟩ := Nat.exists_eq_add_of_le' hsh
  rw [Nat.add_sub_cancel] at h
  have : (quantized v (k + 1)).natAbs < 1 := quantized_natAbs_lt_iff.2 (by omega)
  omega

theorem natAbs_toInt_le (v : Sample) : v.toInt.natAbs ≤ 32768 := by
  have lower := BitVec.le_toInt v
  have upper := BitVec.toInt_lt (x := v)
  norm_num at lower upper
  omega

theorem quantized_natAbs_le_16384 (v : Sample) {sh : Nat} (hsh : 1 ≤ sh) :
    (quantized v.toInt sh).natAbs ≤ 16384 := by
  obtain ⟨k, rfl⟩ := Nat.exists_eq_add_of_le' hsh
  have hv := natAbs_toInt_le v
  have hk := Nat.two_pow_pos k
  exact Nat.lt_succ_iff.1 (quantized_natAbs_lt_iff.2 (by omega))

/-- Every magnitude lies below half a step of `2^17`. -/
theorem quantized_eq_zero_of_17_le (v : Sample) {sh : Nat} (hsh : 17 ≤ sh) : quantized v.toInt sh = 0 := by
  have hv := natAbs_toInt_le v
  have half_step : 2 ^ 16 ≤ 2 ^ (sh - 1) := Nat.pow_le_pow_right Nat.two_pos (by omega)
  exact quantized_eq_zero (by omega) (by omega)

/-- Only the largest magnitude reaches half a step of `2^16`, and only −32768 has it. -/
theorem eq_of_quantized_16_ne_zero {v : Sample} (h : quantized v.toInt 16 ≠ 0) : v.toInt = -32768 := by
  have hv := natAbs_toInt_le v
  have upper := BitVec.toInt_lt (x := v)
  have half_step : ¬ v.toInt.natAbs < 2 ^ 15 := fun hlt => h (quantized_eq_zero (by omega) hlt)
  norm_num at upper half_step
  omega

/-- Settles O24: the formula by the branches of the definition, the bounds and zero ranges by the magnitude, the narrowing
by `quantized_fits`. -/
theorem quantizeValueFunction : Obligations.QuantizeValueFunction := by
  intro v sh
  refine ⟨?zero, ?formula, fun _ => quantized_natAbs_le _ _, quantized_natAbs_le_16384 v, quantized_eq_zero,
    quantized_eq_zero_of_17_le v, ?sixteen, wrap16_toInt_of_fits (quantized_fits v sh),
    overflows_eq_false.2 (by simpa using quantized_fits v sh), by decide⟩
  case zero =>
    rintro rfl
    exact quantized_zero _
  case formula =>
    intro hsh
    obtain ⟨k, rfl⟩ := Nat.exists_eq_add_of_le' hsh
    rw [quantized_succ]
    push_cast
    rfl
  case sixteen =>
    rintro rfl hne
    have hv := eq_of_quantized_16_ne_zero hne
    exact ⟨hv, by rw [hv]; decide⟩

/-! ## Quantizing and dequantizing (R137) -/

/-- Rounding to the nearest multiple of `2 × p` moves a number by at most `p`. -/
theorem natAbs_round_sub_le (a : Nat) {p : Nat} (hp : 0 < p) :
    ((((a + p) / (2 * p) : Nat) : Int) * (2 * p) - a).natAbs ≤ p := by
  have below := Nat.div_mul_le_self (a + p) (2 * p)
  have above := Nat.lt_div_mul_add (a := a + p) (b := 2 * p) (by omega)
  zify at below above ⊢
  rw [abs_le]
  omega

theorem quantized_error_le {v : Int} {sh : Nat} (hsh : 1 ≤ sh) :
    (dequantized (quantized v sh) sh - v).natAbs ≤ 2 ^ (sh - 1) := by
  obtain ⟨k, rfl⟩ := Nat.exists_eq_add_of_le' hsh
  have factored : dequantized (quantized v (k + 1)) (k + 1) - v =
      v.sign * ((((v.natAbs + 2 ^ k) / (2 * 2 ^ k) : Nat) : Int) * (2 * (2 ^ k : Nat)) - v.natAbs) := by
    rw [mul_sub, Int.sign_mul_natAbs, ← mul_assoc, dequantized, quantized_succ, Nat.pow_succ', pow_succ']
    push_cast
    rfl
  have sign_le : v.sign.natAbs ≤ 1 := by
    rw [Int.natAbs_sign]
    split <;> omega
  rw [factored, Int.natAbs_mul, Nat.add_sub_cancel]
  calc _ ≤ 1 * 2 ^ k := Nat.mul_le_mul sign_le (natAbs_round_sub_le _ (Nat.two_pow_pos k))
    _ = 2 ^ k := Nat.one_mul _

theorem dequantized_quantized_zero (v : Int) : dequantized (quantized v 0) 0 = v := by
  rw [quantized_zero, dequantized, pow_zero, mul_one]

theorem quantized_error_lt (v : Int) (sh : Nat) : (dequantized (quantized v sh) sh - v).natAbs < 2 ^ sh := by
  cases sh with
  | zero => simp [dequantized_quantized_zero]
  | succ k =>
    exact (quantized_error_le (Nat.succ_pos k)).trans_lt (Nat.pow_lt_pow_right Nat.one_lt_two (Nat.lt_succ_self k))

/-- Settles O25: the integer bounds carry over to the stored word when the product fits. -/
theorem quantizerErrorBound : Obligations.QuantizerErrorBound := by
  intro v sh
  refine ⟨?_, quantized_error_le, fun hz => ?_, by decide⟩
  · rintro rfl
    rw [dequantized_quantized_zero, wrap16_toInt]
  · rw [wrap16_toInt_of_fits hz]
    exact ⟨rfl, quantized_error_lt _ _⟩

/-! ## Word memories over a list of places -/

theorem readWords_map {α : Type} {w : Nat} {m : Memory w} {ps : List α} {addr : α → Nat} {word : α → BitVec w}
    (h : ∀ p ∈ ps, Memory.read m (addr p) = some (word p)) : readWords m (ps.map addr) = some (ps.map word) := by
  rw [readWords_eq_some, List.map_map, List.map_map]
  exact List.map_congr_left h

theorem read_writeWords_map {α : Type} {w : Nat} {m : Memory w} {ps : List α} {addr : α → Nat} {word : α → BitVec w}
    (hn : (ps.map addr).Nodup) {p : α} (hp : p ∈ ps) :
    Memory.read (writeWords m (ps.map addr) (ps.map word)) (addr p) = some (word p) := by
  obtain ⟨i, hi, rfl⟩ := List.getElem_of_mem hp
  have h := read_writeWords_getElem (m := m) hn (vs := ps.map word) (by simp) (i := i) (by simpa using hi)
  simpa [hi] using h

/-! ## A block as the quantizer sees it -/

theorem overflows_blockCells {n : Nat} {f : Nat × Nat → Int} :
    overflows ((blockCells n).map f) = true ↔ ∃ r < n, ∃ c < n, f (r, c) < -32768 ∨ 32767 < f (r, c) := by
  simp only [overflows_eq_true, List.mem_map, exists_exists_and_eq_and]
  simp only [Prod.exists, mem_blockCells, and_assoc, exists_and_left]

variable {s : State} {value : Int → Nat → Int}

/-- The word of `blk(p)`; on a written block the default is never taken (`State.read_cellWord`). -/
def State.cellWord (s : State) (p : Nat × Nat) : Sample :=
  (Memory.read s.cm (s.blkAddr p.1 p.2)).getD 0

/-- A quantizer command's value for `blk(p)` before narrowing. -/
def State.cellValue (s : State) (value : Int → Nat → Int) (p : Nat × Nat) : Int :=
  value (s.cellWord p).toInt (zoneShift s.side s.scale.toNat p)

theorem State.cellWord_of_read {r c : Nat} {v : Sample} (h : Memory.read s.cm (s.blkAddr r c) = some v) :
    s.cellWord (r, c) = v := by
  rw [State.cellWord, h, Option.getD_some]

theorem State.cellValue_of_read {r c : Nat} {v : Sample} (h : Memory.read s.cm (s.blkAddr r c) = some v) :
    s.cellValue value (r, c) = value v.toInt (zoneShift s.side s.scale.toNat (r, c)) := by
  rw [State.cellValue, State.cellWord_of_read h]

theorem State.read_cellWord (hb : s.BlockSide) (hw : s.RegionWritten) {p : Nat × Nat} (hp : p ∈ blockCells s.side) :
    Memory.read s.cm (s.blkAddr p.1 p.2) = some (s.cellWord p) := by
  obtain ⟨hr, hc⟩ := mem_blockCells.1 hp
  obtain ⟨v, hv⟩ := Option.isSome_iff_exists.1 (hw p.1 (hb.1 ▸ hr) p.2 hc)
  rw [hv, State.cellWord_of_read hv]

/-- A quantizer command on a written block that passes its checks: every cell gets its narrowed value, and `OVF` the event
of the values before narrowing. -/
theorem quantCommand_written (hq : s.quantOk = true) (hf : s.RegionFits) (hw : s.RegionWritten) :
    quantCommand value s = .next { s with
      cm := writeWords s.cm (s.cellAddrs (blockCells s.side)) ((blockCells s.side).map (wrap16 ∘ s.cellValue value))
      ovf := stickyOvf s.ovf (overflows ((blockCells s.side).map (s.cellValue value)))
      pc := s.pc + 1 } := by
  have words : readWords s.cm (s.cellAddrs (blockCells s.side)) = some ((blockCells s.side).map s.cellWord) :=
    readWords_map fun _ => State.read_cellWord (s.quantOk_iff.1 hq).1 hw
  have values : List.zipWith (fun (v : Sample) sh => value v.toInt sh) ((blockCells s.side).map s.cellWord)
      s.cellShifts = (blockCells s.side).map (s.cellValue value) := by
    rw [State.cellShifts, List.zipWith_map, List.zipWith_self]
    rfl
  simp only [quantCommand, (s.regionFault_none _).2 ⟨hq, hf⟩, words, values, List.map_map]
  rfl

/-- The same, as it is read: the words of the block, the flag, the words outside the region, and nothing else. -/
theorem quantCommand_spec (hq : s.quantOk = true) (hf : s.RegionFits) (hw : s.RegionWritten) :
    ∃ t, quantCommand value s = .next t ∧ t = { s with cm := t.cm, ovf := t.ovf, pc := s.pc + 1 } ∧
      (∀ r < s.w.toNat, ∀ c < s.w.toNat,
        Memory.read t.cm (s.blkAddr r c) = some (wrap16 (s.cellValue value (r, c)))) ∧
      (t.ovf = true ↔ s.ovf = true ∨ ∃ r < s.w.toNat, ∃ c < s.w.toNat,
        s.cellValue value (r, c) < -32768 ∨ 32767 < s.cellValue value (r, c)) ∧
      ∀ a, s.OutsideRegion a → Memory.read t.cm a = Memory.read s.cm a := by
  have hb := (s.quantOk_iff.1 hq).1
  refine ⟨_, quantCommand_written hq hf hw, rfl, fun r hr c hc => ?cell, ?flag, fun a ha => ?outside⟩
  case cell =>
    have cells_nodup : (s.cellAddrs (blockCells s.side)).Nodup := s.cellAddrs_nodup hf.1 (isScan_blockCells _)
    exact read_writeWords_map cells_nodup (p := (r, c)) (mem_blockCells.2 ⟨hr, hc⟩)
  case flag =>
    rw [stickyOvf, Bool.or_eq_true, overflows_blockCells]
    rfl
  case outside =>
    exact read_writeWords_other fun hm => (s.outsideRegion_iff a).1 ha (State.mem_blockAddrs hb hm)

/-- Settles O26: `QUANT`'s values need no narrowing, and it is no command that sets `OVF`. -/
theorem quantQuantizesTheBlock : Obligations.QuantQuantizesTheBlock := by
  intro s hd hf hw
  obtain ⟨t, ht, hframe, hcell, -, hout⟩ :=
    quantCommand_spec (value := quantized) (s.quantOk_iff_dimensionsOk.2 hd) hf hw
  have hovf : t.ovf = s.ovf := (exec_effect (i := .quant) ht).ovf_eq (by decide) rfl
  refine ⟨t, ht, by rw [hovf] at hframe; exact hframe, fun r hr c hc v hv => ⟨_, hcell r hr c hc, ?_⟩, hout⟩
  rw [State.cellValue_of_read hv, wrap16_toInt_of_fits (quantized_fits _ _)]
  rfl

/-- Settles O27: each cell holds its product narrowed, and `OVF` records the products that do not fit. -/
theorem dequantScalesTheBlock : Obligations.DequantScalesTheBlock := by
  intro s hd hf hw shift
  obtain ⟨t, ht, hframe, hcell, hovf, hout⟩ :=
    quantCommand_spec (value := dequantized) (s.quantOk_iff_dimensionsOk.2 hd) hf hw
  have product {r c : Nat} {v : Sample} (hv : Memory.read s.cm (s.blkAddr r c) = some v) :
      s.cellValue dequantized (r, c) = v.toInt * 2 ^ shift r c := State.cellValue_of_read hv
  refine ⟨t, ht, hframe, fun r hr c hc v hv => ?_, hovf.trans (or_congr_right ?_), hout⟩
  · rw [hcell r hr c hc, product hv]
    rfl
  · refine exists_congr fun r => and_congr_right fun hr => exists_congr fun c => and_congr_right fun hc => ?_
    obtain ⟨v, hv⟩ := Option.isSome_iff_exists.1 (hw r (hd.1.1 ▸ hr) c hc)
    simp [hv, product hv]

end Sys2Proof.Machine
end

section
/-! SUPPORT. The zigzag scanner (`42_zigzag.md`): the default order walks the anti-diagonals (R148), and `ZIGZAG` and
`UNZIGZAG` copy between the block in scan order and `SQ[0..N²−1]` (R150 to R152). -/

namespace Sys2Proof.Machine

/-! ## The default order (R148) -/

/-- Of two positions of the default order the first comes first: on a smaller anti-diagonal, or on the same one with the
smaller row if it is odd and the larger row if it is even. -/
def DiagonalBefore (p q : Nat × Nat) : Prop :=
  p.1 + p.2 < q.1 + q.2 ∨ (p.1 + p.2 = q.1 + q.2 ∧ if (p.1 + p.2) % 2 = 1 then p.1 < q.1 else q.1 < p.1)

/-- Odd anti-diagonals are walked with the row increasing, even ones with the row decreasing. -/
theorem diagonalRows_pairwise (n d : Nat) :
    (diagonalRows n d).Pairwise fun r r' => if d % 2 = 1 then r < r' else r' < r := by
  simp only [diagonalRows]
  split
  · exact List.pairwise_lt_range'
  · exact List.pairwise_reverse.2 List.pairwise_lt_range'

/-- The rows of anti-diagonal `d` are at most `d`, so that each position listed for it lies on it. -/
theorem le_of_mem_diagonalRows {n d r : Nat} (hn : 1 ≤ n) (h : r ∈ diagonalRows n d) : r ≤ d :=
  ((mem_diagonalRows hn).1 h).2.1

theorem diagonalScan_pairwise {n : Nat} (hn : 1 ≤ n) : (diagonalScan n).Pairwise DiagonalBefore := by
  refine List.pairwise_flatMap.2 ⟨fun d _ => ?same, List.pairwise_lt_range.imp fun {d d'} hlt => ?next⟩
  case same =>
    refine List.pairwise_map.2 ((diagonalRows_pairwise n d).imp_of_mem fun {r r'} hr hr' hwalk => .inr ?_)
    have hd : r + (d - r) = d := Nat.add_sub_cancel' (le_of_mem_diagonalRows hn hr)
    have hd' : r' + (d - r') = d := Nat.add_sub_cancel' (le_of_mem_diagonalRows hn hr')
    exact ⟨hd.trans hd'.symm, by rwa [hd]⟩
  case next =>
    intro p hp q hq
    obtain ⟨r, hr, rfl⟩ := List.mem_map.1 hp
    obtain ⟨r', hr', rfl⟩ := List.mem_map.1 hq
    have hd := le_of_mem_diagonalRows hn hr
    have hd' := le_of_mem_diagonalRows hn hr'
    exact .inl (show r + (d - r) < r' + (d' - r') by omega)

theorem diagonalRows_first {n : Nat} (hn : 1 ≤ n) : diagonalRows n 0 = [0] := by
  simp [diagonalRows, Nat.sub_eq_zero_of_le hn]

theorem diagonalRows_last (n : Nat) : diagonalRows (n + 1) (2 * n) = [n] := by
  have hlow : 2 * n + 1 - (n + 1) = n := by omega
  have hcount : min (2 * n) n + 1 - n = 1 := by omega
  simp [diagonalRows, hlow, hcount]

theorem diagonalScan_head? {n : Nat} (hn : 1 ≤ n) : (diagonalScan n).head? = some (0, 0) := by
  obtain ⟨m, hm⟩ : ∃ m, 2 * n - 1 = m + 1 := ⟨2 * n - 2, by omega⟩
  simp [diagonalScan, hm, List.range_succ_eq_map, diagonalRows_first hn]

theorem diagonalScan_getLast? {n : Nat} (hn : 1 ≤ n) : (diagonalScan n).getLast? = some (n - 1, n - 1) := by
  obtain ⟨m, rfl⟩ := Nat.exists_eq_add_of_le' hn
  have hm : 2 * (m + 1) - 1 = 2 * m + 1 := by omega
  have hcol : 2 * m - m = m := by omega
  simp [diagonalScan, hm, List.range_succ, diagonalRows_last, hcol]

/-- Settles O28: a bijection by `isScan_diagonalScan`, the walk by `diagonalScan_pairwise`, the ends by its first and last
anti-diagonals. -/
theorem defaultScanIsTheDiagonalBijection : Obligations.DefaultScanIsTheDiagonalBijection := fun _ hn =>
  ⟨isScan_diagonalScan hn, (isScan_diagonalScan hn).length, diagonalScan_head? hn, diagonalScan_getLast? hn,
    diagonalScan_pairwise hn⟩

/-! ## Copying words from one list of addresses to another -/

theorem read_eq_getElem?_of_readWords {w : Nat} {m : Memory w} {as : List Nat} {vs : List (BitVec w)} {i a : Nat}
    (hv : readWords m as = some vs) (ha : as[i]? = some a) : Memory.read m a = vs[i]? := by
  have hi := congrArg (·[i]?) (readWords_eq_some.1 hv)
  rw [List.getElem?_map, List.getElem?_map, ha] at hi
  obtain ⟨v, hvi, e⟩ := Option.map_eq_some_iff.1 hi.symm
  rw [hvi, e]

/-- The word at the `i`-th address read arrives at the `i`-th address written. -/
theorem read_writeWords_copy {w : Nat} {m m' : Memory w} {as bs : List Nat} {vs : List (BitVec w)} {i a b : Nat}
    (hn : bs.Nodup) (hl : as.length = bs.length) (hv : readWords m as = some vs) (ha : as[i]? = some a)
    (hb : bs[i]? = some b) : Memory.read (writeWords m' bs vs) b = Memory.read m a := by
  obtain ⟨hi, rfl⟩ := List.getElem?_eq_some_iff.1 hb
  rw [read_writeWords_getElem hn ((readWords_length hv).trans hl), read_eq_getElem?_of_readWords hv ha]

/-! ## The scanner commands on a region that passes its checks -/

/-- The state after `ZIGZAG` has read the words `vs` in scan order. -/
def State.zigzagged (s : State) (vs : List Sample) : State :=
  { s with sq := writeWords s.sq s.sqIndices vs, pc := s.pc + 1 }

/-- The state after `UNZIGZAG` has read the words `vs` from `SQ`. -/
def State.unzigzagged (s : State) (vs : List Sample) : State :=
  { s with cm := writeWords s.cm s.scanAddrs vs, pc := s.pc + 1 }

variable {s : State}

theorem State.sqIndices_nodup (s : State) : s.sqIndices.Nodup := List.nodup_range

theorem State.readWords_sqIndices (h : ∀ i < s.side * s.side, (Memory.read s.sq i).isSome) :
    ∃ vs, readWords s.sq s.sqIndices = some vs :=
  Option.isSome_iff_exists.1 (readWords_isSome.2 fun i hi => h i (List.mem_range.1 hi))

theorem State.scanAddrs_getElem? {i : Nat} {p : Nat × Nat} (hp : (scanOrder s.cfg.zz s.side)[i]? = some p) :
    s.scanAddrs[i]? = some (s.blkAddr p.1 p.2) := by
  rw [State.scanAddrs, State.cellAddrs, List.getElem?_map, hp]
  rfl

section
variable (hb : s.BlockSide) (hf : s.RegionFits) {vs : List Sample}
include hb hf

theorem exec_zigzag_written (hv : readWords s.cm s.scanAddrs = some vs) :
    exec .zigzag s = .next (s.zigzagged vs) := by
  simp only [exec, execZigzag, (s.regionFault_none _).2 ⟨s.blockOk_iff.2 hb, hf⟩, hv]
  rfl

theorem exec_unzigzag_written (hv : readWords s.sq s.sqIndices = some vs) :
    exec .unzigzag s = .next (s.unzigzagged vs) := by
  simp only [exec, execUnzigzag, (s.regionFault_none _).2 ⟨s.blockOk_iff.2 hb, hf⟩, hv]
  rfl

end

section
variable (hs : IsScan s.side (scanOrder s.cfg.zz s.side))
include hs

theorem State.scanAddrs_length : s.scanAddrs.length = s.sqIndices.length := by
  rw [State.scanAddrs, State.cellAddrs_length, hs.length, State.sqIndices, List.length_range]

theorem State.sqIndices_getElem? {i : Nat} {p : Nat × Nat} (hp : (scanOrder s.cfg.zz s.side)[i]? = some p) :
    s.sqIndices[i]? = some i := by
  have hi : i < s.side * s.side := hs.length ▸ (List.getElem?_eq_some_iff.1 hp).1
  exact List.getElem?_range hi

theorem State.scanAddrs_nodup (hf : s.RegionFits) : s.scanAddrs.Nodup := s.cellAddrs_nodup hf.1 hs

theorem State.inRect_of_mem_scanAddrs (hb : s.BlockSide) {a : Nat} (ha : a ∈ s.scanAddrs) :
    s.InRect s.w.toNat s.h.toNat a := by
  rw [← hb.1]
  exact (s.mem_cellAddrs hs).1 ha

theorem State.readWords_scanAddrs (hb : s.BlockSide) (hw : s.RegionWritten) :
    ∃ vs, readWords s.cm s.scanAddrs = some vs := by
  refine Option.isSome_iff_exists.1 (readWords_isSome.2 fun a ha => ?_)
  obtain ⟨r, hr, c, hc, rfl⟩ := State.inRect_of_mem_scanAddrs hs hb ha
  exact hw r hr c hc

variable {vs : List Sample} {i : Nat} {p : Nat × Nat} (hp : (scanOrder s.cfg.zz s.side)[i]? = some p)
include hp

theorem State.read_zigzagged_sq (hv : readWords s.cm s.scanAddrs = some vs) :
    Memory.read (s.zigzagged vs).sq i = Memory.read s.cm (s.blkAddr p.1 p.2) :=
  read_writeWords_copy s.sqIndices_nodup (State.scanAddrs_length hs) hv (State.scanAddrs_getElem? hp)
    (State.sqIndices_getElem? hs hp)

theorem State.read_unzigzagged_cm (hf : s.RegionFits) (hv : readWords s.sq s.sqIndices = some vs) :
    Memory.read (s.unzigzagged vs).cm (s.blkAddr p.1 p.2) = Memory.read s.sq i :=
  read_writeWords_copy (State.scanAddrs_nodup hs hf) (State.scanAddrs_length hs).symm hv
    (State.sqIndices_getElem? hs hp) (State.scanAddrs_getElem? hp)

end

/-- Settles O29: `ZIGZAG` copies from the scan addresses to the indices `0..N²−1` of `SQ`. -/
theorem zigzagCopiesTheBlockInScanOrder : Obligations.ZigzagCopiesTheBlockInScanOrder := by
  intro s hb hf hw hs
  obtain ⟨vs, hv⟩ := State.readWords_scanAddrs hs hb hw
  refine ⟨_, exec_zigzag_written hb hf hv, rfl, fun i p hp => State.read_zigzagged_sq hs hp hv, fun i hi => ?_⟩
  exact read_writeWords_other fun hm => (List.mem_range.1 hm).not_ge hi

/-- Settles O30: `UNZIGZAG` copies from the indices `0..N²−1` of `SQ` to the scan addresses, all of them in the region. -/
theorem unzigzagCopiesTheSequenceBack : Obligations.UnzigzagCopiesTheSequenceBack := by
  intro s hb hf hw hs
  obtain ⟨vs, hv⟩ := State.readWords_sqIndices hw
  refine ⟨_, exec_unzigzag_written hb hf hv, rfl, fun i p hp => State.read_unzigzagged_cm hs hp hf hv, fun a ha => ?_⟩
  exact read_writeWords_other fun hm => (s.outsideRegion_iff a).1 ha (State.inRect_of_mem_scanAddrs hs hb hm)

/-- Settles O31: the second command reads the very words that the first one copied, and writes them where they came
from. -/
theorem scannerCommandsAreMutualInverses : Obligations.ScannerCommandsAreMutualInverses := by
  intro s hb hf hs
  have hl := State.scanAddrs_length hs
  have scan_nodup := State.scanAddrs_nodup hs hf
  refine ⟨fun hw => ?block, fun hw => ?sequence⟩
  case block =>
    obtain ⟨vs, hv⟩ := State.readWords_scanAddrs hs hb hw
    have copied : readWords (s.zigzagged vs).sq (s.zigzagged vs).sqIndices = some vs :=
      readWords_writeWords s.sqIndices_nodup ((readWords_length hv).trans hl)
    exact ⟨_, _, exec_zigzag_written hb hf hv, exec_unzigzag_written (s := s.zigzagged vs) hb hf copied,
      read_writeWords_of_readWords scan_nodup hv fun _ _ => rfl, fun _ _ hp => State.read_zigzagged_sq hs hp hv⟩
  case sequence =>
    obtain ⟨vs, hv⟩ := State.readWords_sqIndices hw
    have copied : readWords (s.unzigzagged vs).cm (s.unzigzagged vs).scanAddrs = some vs :=
      readWords_writeWords scan_nodup ((readWords_length hv).trans hl.symm)
    exact ⟨_, _, exec_unzigzag_written hb hf hv, exec_zigzag_written (s := s.unzigzagged vs) hb hf copied,
      read_writeWords_of_readWords s.sqIndices_nodup hv fun _ _ => rfl⟩

end Sys2Proof.Machine
end

section
/-! SUPPORT. The bitstream commands (`43_bitstream.md`): what a writer command appends and when it raises `OutFull`
(R156 to R170, R177), what a reader command takes and when it raises `Eof` (R161 to R164, R171 to R176). -/

namespace Sys2Proof.Machine

variable {s t : State}

/-! ## A command that writes `OB` -/

/-- The outcome of a command that raises `f` in state `s`: fault entry, with `pc` unchanged (`60_exceptions.md` R244). -/
abbrev State.Raises (s : State) (f : FaultCode) (o : Host.Outcome State Fault Refusal) : Prop :=
  ∃ t, o = .next t ∧ t.run = .faulted ∧ t.fcode = some f ∧ t.fpc = s.pc ∧ t.pc = s.pc

theorem writerCommand_some {work : Writer → Option Writer} {w : Writer} (h : work s.wr = some w) :
    writerCommand work s = .next { s with wr := w, pc := s.pc + 1 } := by
  simp only [writerCommand, h]
  rfl

theorem writerCommand_none {work : Writer → Option Writer} (h : work s.wr = none) :
    s.Raises .outFull (writerCommand work s) :=
  ⟨s.forgetWriter.nextDraw.takeFault .outFull, by simp only [writerCommand, h], rfl, rfl, rfl, rfl⟩

/-- The bits already pending complete no byte, so any room at all means that `OB` is within its capacity. -/
theorem Writer.HasRoom.capacity {cap n : Nat} {w : Writer} (h : w.HasRoom cap n) : w.ob.length ≤ cap :=
  (Nat.le_add_right _ _).trans h

theorem Writer.HasRoom.mono {cap m n : Nat} {w : Writer} (h : w.HasRoom cap n) (hmn : m ≤ n) : w.HasRoom cap m :=
  (Nat.add_le_add_left (Nat.div_le_div_right (Nat.add_le_add_left hmn _)) _).trans h

/-! ## `PUTBITS` (R165) -/

/-- Settles O32: `PutBits` writes the list of those bits. -/
theorem putbitsAppendsTheLowBits : Obligations.PutbitsAppendsTheLowBits := by
  intro s n _ hl hroom
  obtain ⟨w, hw, hlegal, hbits⟩ :=
    (Writer.putList_spec s.cfg.obBytes (msbBits n.toNat s.val.toNat) s.wr hl hroom.capacity).1 (by simpa using hroom)
  rw [← Writer.putBits_eq_putList] at hw
  exact ⟨_, writerCommand_some hw, rfl, hlegal, hbits⟩

/-! ## `FLUSH` (R166) -/

theorem msbBits_drop (n c v : Nat) : (msbBits n v).drop c = msbBits (n - c) v := by
  induction n generalizing c with
  | zero => simp [msbBits]
  | succ n ih =>
    cases c with
    | zero => rfl
    | succ c => simpa [msbBits] using ih c

/-- The low bits of a multiple of `2^n` are 0. -/
theorem msbBits_of_mod_eq_zero {n v : Nat} (h : v % 2 ^ n = 0) : msbBits n v = List.replicate n false := by
  refine List.eq_replicate_iff.2 ⟨msbBits_length n v, fun b hb => ?_⟩
  obtain ⟨i, hi⟩ := List.mem_iff_getElem?.1 hb
  obtain ⟨hlt, rfl⟩ : i < n ∧ v.testBit (n - 1 - i) = b := by simpa [msbBits_getElem?] using hi
  have low := Nat.testBit_mod_two_pow v n (n - 1 - i)
  rw [h, Nat.zero_testBit, decide_eq_true (by omega), Bool.true_and] at low
  exact low.symm

/-- In a legal writer the pending byte is the pending bits, completed with zero bits. -/
theorem Writer.Legal.byteBits_wacc {w : Writer} (hl : w.Legal) :
    byteBits [w.wacc] = (msbBits 8 w.wacc.toNat).take w.wcnt.toNat ++ List.replicate (8 - w.wcnt.toNat) false := by
  rw [← msbBits_of_mod_eq_zero hl, ← msbBits_drop, List.take_append_drop]
  exact List.append_nil _

theorem exec_flush_pending (hc : s.wr.wcnt ≠ 0) (hroom : s.wr.ob.length < s.cfg.obBytes) :
    exec .flush s =
      .next { s with wr := { ob := s.wr.ob ++ [s.wr.wacc], wacc := 0, wcnt := 0 }, pc := s.pc + 1 } :=
  writerCommand_some (by simp only [Writer.flush, if_neg hc, Writer.appendByte, if_neg hroom.ne])

/-- Settles O33: `Flush` appends the pending byte, whose bits `Writer.Legal.byteBits_wacc` gives. -/
theorem flushPadsWithZeroBits : Obligations.FlushPadsWithZeroBits := by
  refine ⟨fun s hc => ?aligned, fun s => exec_flush_pending, fun s t hl hc hroom h => ?bits⟩
  case aligned => exact writerCommand_some (w := s.wr) (by simp only [Writer.flush, if_pos hc])
  case bits =>
    cases (exec_flush_pending hc hroom).symm.trans h
    simp only [Writer.bits, byteBits_append, hl.byteBits_wacc, List.append_assoc]
    simp

/-! ## The byte fields (R167 to R170) -/

theorem Writer.length_le_padded (w : Writer) : w.ob.length ≤ w.padded.length := by
  rw [Writer.padded]
  split
  · exact Nat.le_refl _
  · simp

theorem Writer.Legal.wacc_of_aligned {w : Writer} (hl : w.Legal) (hc : w.wcnt = 0) : w.wacc = 0 := by
  rw [Writer.Legal, hc] at hl
  exact BitVec.eq_of_toNat_eq ((Nat.mod_eq_of_lt w.wacc.isLt).symm.trans hl)

/-- A byte field with room: the pending byte, the field's bytes, and an aligned writer. -/
theorem writerCommand_byteField (x : Byte) (xs : List Byte)
    (hroom : s.wr.padded.length + (x :: xs).length ≤ s.cfg.obBytes) :
    ∃ t, writerCommand (byteField s.cfg.obBytes (x :: xs)) s = .next t ∧ t = { s with wr := t.wr, pc := s.pc + 1 } ∧
      t.wr.ob = s.wr.padded ++ x :: xs ∧ t.wr.wcnt = 0 ∧ (s.wr.wcnt ≠ 0 ∨ s.wr.Legal → t.wr.wacc = 0) := by
  have hcap : s.wr.ob.length ≤ s.cfg.obBytes := s.wr.length_le_padded.trans ((Nat.le_add_right _ _).trans hroom)
  refine ⟨_, writerCommand_some ((byteField_spec _ x xs _ hcap).1 hroom), rfl, rfl, rfl, fun h => ?_⟩
  show (if s.wr.wcnt = 0 then s.wr.wacc else 0) = 0
  split
  · exact (h.resolve_left (not_not_intro ‹_›)).wacc_of_aligned ‹_›
  · rfl

theorem State.bigEndian_valBytes1 (s : State) : bigEndian s.valBytes1 = s.val.toNat % 2 ^ 8 := by
  simp [bigEndian, State.valBytes1, BitVec.extractLsb'_toNat]

theorem State.bigEndian_valBytes2 (s : State) : bigEndian s.valBytes2 = s.val.toNat % 2 ^ 16 := by
  simp only [bigEndian, State.valBytes2, List.foldl_cons, List.foldl_nil, BitVec.extractLsb'_toNat,
    Nat.shiftRight_eq_div_pow]
  omega

theorem State.bigEndian_valBytes4 (s : State) : bigEndian s.valBytes4 = s.val.toNat := by
  have := s.val.isLt
  simp only [bigEndian, State.valBytes4, List.foldl_cons, List.foldl_nil, BitVec.extractLsb'_toNat,
    Nat.shiftRight_eq_div_pow]
  omega

/-- Settles O34: one byte field each, of the bytes of `VAL` or of `SCALE`. -/
theorem byteFieldsAreAppendedBigEndian : Obligations.ByteFieldsAreAppendedBigEndian := by
  intro s
  refine ⟨fun room => ?putu8, fun room => ?putu16, fun room => ?putu32, writerCommand_byteField s.scale []⟩
  case putu8 =>
    obtain ⟨t, ht, done⟩ := writerCommand_byteField _ [] room
    exact ⟨t, _, ht, done, (Nat.zero_add _).symm.trans s.bigEndian_valBytes1⟩
  case putu16 =>
    obtain ⟨t, ht, done⟩ := writerCommand_byteField _ [_] room
    exact ⟨t, _, _, ht, done, s.bigEndian_valBytes2⟩
  case putu32 =>
    obtain ⟨t, ht, done⟩ := writerCommand_byteField _ [_, _, _] room
    exact ⟨t, _, _, _, _, ht, done, s.bigEndian_valBytes4⟩

/-! ## `OutFull` (R159, R177) -/

theorem writerCommand_byteField_full (x : Byte) (xs : List Byte) (hcap : s.wr.ob.length ≤ s.cfg.obBytes)
    (hfull : s.cfg.obBytes < s.wr.padded.length + (x :: xs).length) :
    s.Raises .outFull (writerCommand (byteField s.cfg.obBytes (x :: xs)) s) :=
  writerCommand_none ((byteField_spec _ x xs _ hcap).2 hfull)

theorem exec_rleenc_full (hb : s.BlockSide) (h : rleEnc s.cfg.obBytes s.sq s.sqIndices s.wr = some none) :
    s.Raises .outFull (exec .rleenc s) := by
  simp only [exec, execRleenc, s.blockOk_iff.2 hb, h]
  exact writerCommand_none (work := fun _ => none) rfl

theorem range_eq_append_of_lt {k n : Nat} (h : k < n) : ∃ bs, List.range n = List.range k ++ k :: bs := by
  obtain ⟨m, rfl⟩ := Nat.exists_eq_add_of_lt h
  exact ⟨_, by rw [Nat.add_assoc, List.range_add, List.range_succ_eq_map, List.map_cons]; rfl⟩

theorem pairsCode_dropLast_length_le (ps : List (Nat × Sample)) :
    (pairsCode ps.dropLast).length ≤ (pairsCode ps).length :=
  ((List.dropLast_sublist ps).flatMap _).length_le

section
variable {xs : List Sample} (hcap : s.wr.ob.length ≤ s.cfg.obBytes) (hl : s.wr.Legal)
  (hread : readWords s.sq (List.range xs.length) = some xs)
include hcap hl hread

/-- The pairs of the whole sequence find no room. -/
theorem rleEnc_full_of_runs (hlen : xs.length = s.side * s.side)
    (hfull : ¬ s.wr.HasRoom s.cfg.obBytes (pairsCode (runs xs)).length) :
    rleEnc s.cfg.obBytes s.sq s.sqIndices s.wr = some none := by
  rw [State.sqIndices, ← hlen, rleEnc_complete hread, (Writer.putList_spec _ _ _ hl hcap).2 hfull]

/-- The pairs that end within the words read so far find no room, and a word more is still to be read. -/
theorem rleEnc_full_of_prefix (hlen : xs.length < s.side * s.side)
    (hfull : ¬ s.wr.HasRoom s.cfg.obBytes (pairsCode (runs xs).dropLast).length) :
    rleEnc s.cfg.obBytes s.sq s.sqIndices s.wr = some none := by
  obtain ⟨bs, hbs⟩ := range_eq_append_of_lt hlen
  rw [State.sqIndices, hbs]
  exact (rleEnc_prefix hread).1 ((Writer.putList_spec _ _ _ hl hcap).2 hfull)

end

/-- Settles O35: each command's work on the writer finds no room. Where the beginning of `SQ` is the whole sequence, all
its pairs need no less room than those that have ended. -/
theorem writerCommandsRaiseOutFull : Obligations.WriterCommandsRaiseOutFull := by
  intro s hcap hl
  refine ⟨fun n hfull => ?putbits, fun hc hob => ?flush,
    fun hfull => ⟨writerCommand_byteField_full _ [] hcap hfull, writerCommand_byteField_full _ [] hcap hfull⟩,
    writerCommand_byteField_full _ [_] hcap, writerCommand_byteField_full _ [_, _, _] hcap,
    fun k hfull => ?riceenc, fun xs hb hx => ?rleenc⟩
  case putbits =>
    refine writerCommand_none ((Writer.putBits_eq_putList _ _ _ _).trans ((Writer.putList_spec _ _ _ hl hcap).2 ?_))
    rwa [msbBits_length]
  case flush => exact writerCommand_none (by simp only [Writer.flush, if_neg hc, Writer.appendByte, if_pos hob])
  case riceenc =>
    exact writerCommand_none ((riceEnc_eq_putList _ _ _ _).trans ((Writer.putList_spec _ _ _ hl hcap).2 hfull))
  case rleenc =>
    have hread : readWords s.sq (List.range xs.length) = some xs := by
      simpa using readWords_map_range (addr := id) rfl hx
    have whole (hlen : xs.length = s.side * s.side) hfull :=
      exec_rleenc_full hb (rleEnc_full_of_runs hcap hl hread hlen hfull)
    refine ⟨whole, fun hlen hfull => ?_⟩
    rcases hlen.eq_or_lt with heq | hlt
    · exact whole heq fun hroom => hfull (hroom.mono (pairsCode_dropLast_length_le _))
    · exact exec_rleenc_full hb (rleEnc_full_of_prefix hcap hl hread hlt hfull)

/-- `OutFull` has one state after it: no other effect of a running sequencer's command raises it. -/
theorem Effect.eq_of_outFull {i : Instr} (h : Effect i s t) (hr : s.run = .running) (hf : t.fcode = some .outFull)
    (ht : t.run = .faulted) : t = s.forgetWriter.nextDraw.takeFault .outFull := by
  cases h with
  | full => rfl
  | checked f _ hc | lostVal f _ _ hc | lostSq f _ _ hc =>
    cases hf
    simp at hc
  | lostScale => cases hf
  | halt => cases ht
  | _ => cases hr.symm.trans ht

/-- Settles O36: what the free values of the writer leave. -/
theorem stateAfterOutFull : Obligations.StateAfterOutFull := by
  intro i s t hr hcap h hf ht
  obtain rfl := (exec_effect h).eq_of_outFull hr hf ht
  exact ⟨rfl, s.forgetWriter_prefix, s.forgetWriter_capacity hcap, s.forgetWriter_legal⟩

/-! ## A command that reads `IB` -/

theorem readerCommand_error {α : Type} {work : Reader → Except FaultCode (α × Reader)} {store : α → State → State}
    {forget : State → State} {f : FaultCode} (hpc : ∀ s, (forget s).pc = s.pc) (h : work s.rd = .error f) :
    s.Raises f (readerCommand work store forget s) :=
  ⟨(forget s.forgetReader).nextDraw.takeFault f, by simp only [readerCommand, h], rfl, rfl, hpc _, hpc _⟩

/-- A command that reads a value of at most 32 bits into `VAL`. -/
theorem readerCommand_val {work : Reader → Except FaultCode (Nat × Reader)} {x : Nat} {r : Reader}
    (h : work s.rd = .ok (x, r)) (hx : x < 2 ^ 32) :
    ∃ t, readerCommand work State.setVal State.forgetVal s = .next t ∧
      t = { s with rd := t.rd, val := t.val, pc := s.pc + 1 } ∧ t.val.toNat = x ∧ t.rd = r :=
  ⟨(State.setVal x { s with rd := r }).advance, by simp only [readerCommand, h], rfl, Nat.mod_eq_of_lt hx, rfl⟩

/-! ## `GETBITS` and `RALIGN` (R171, R172) -/

/-- Settles O37: `GetBits` on as many bits as are left, and at most 32 of them fit `VAL`. -/
theorem getbitsReadsTheNextBits : Obligations.GetbitsReadsTheNextBits := by
  intro s n hn hl
  obtain ⟨enough, few⟩ := Reader.getBits_spec n.toNat 0 s.rd hl
  rw [Reader.avail_eq _ hl]
  refine ⟨fun hle => ?_, fun hlt => readerCommand_error (fun _ => rfl) (few hlt)⟩
  obtain ⟨r, hr, hlegal, hib, -, hpos⟩ := enough hle
  rw [Nat.zero_mul, Nat.zero_add] at hr
  have fits : bitsValue (s.rd.rest.take n.toNat) < 2 ^ 32 :=
    (bitsValue_lt _).trans_le (Nat.pow_le_pow_right (by decide) ((List.length_take_le _ _).trans hn))
  obtain ⟨t, ht, hframe, hval, rfl⟩ := readerCommand_val hr fits
  exact ⟨t, ht, hframe, hval, hlegal, hib, hpos⟩

/-- Settles O38: `Align`. -/
theorem ralignMovesToTheNextByte : Obligations.RalignMovesToTheNextByte := by
  intro s hl
  obtain ⟨hlegal, hib, hbit, hpos⟩ := Reader.align_spec s.rd hl
  exact ⟨_, rfl, rfl, hib, hbit, hpos, hlegal⟩

/-! ## The byte fields (R173 to R176) -/

theorem bigEndian_foldl_lt (xs : List Byte) (v : Nat) :
    xs.foldl (fun v x => 256 * v + x.toNat) v < (v + 1) * 256 ^ xs.length := by
  induction xs generalizing v with
  | nil => simp
  | cons x xs ih =>
    have hx : x.toNat < 256 := x.isLt
    calc _ < (256 * v + x.toNat + 1) * 256 ^ xs.length := ih _
      _ ≤ ((v + 1) * 256) * 256 ^ xs.length := Nat.mul_le_mul_right _ (by omega)
      _ = (v + 1) * 256 ^ (x :: xs).length := by rw [List.length_cons, Nat.pow_succ', Nat.mul_assoc]

theorem bigEndian_lt (xs : List Byte) : bigEndian xs < 256 ^ xs.length := by
  simpa [bigEndian] using bigEndian_foldl_lt xs 0

/-- A byte field of at most four bytes read into `VAL`: they are there, or `Eof`. -/
theorem readerCommand_byteField (hl : s.rd.Legal) {n : Nat} (hn : n ≤ 4) :
    (s.rd.nextByte + n ≤ s.rd.ib.length →
      ∃ t, readerCommand (fun r => Reader.takeBytes n 0 r.align) State.setVal State.forgetVal s = .next t ∧
        t = { s with rd := t.rd, val := t.val, pc := s.pc + 1 } ∧
        t.val.toNat = bigEndian ((s.rd.ib.drop s.rd.nextByte).take n) ∧
        t.rd.ib = s.rd.ib ∧ t.rd.rbit = 0 ∧ t.rd.rpos.toNat = s.rd.nextByte + n) ∧
    (s.rd.ib.length < s.rd.nextByte + n →
      s.Raises .eof (readerCommand (fun r => Reader.takeBytes n 0 r.align) State.setVal State.forgetVal s)) := by
  obtain ⟨hlegal, hib, hbit, hpos⟩ := Reader.align_spec s.rd hl
  obtain ⟨there, missing⟩ := Reader.takeBytes_spec n 0 s.rd.align hlegal hbit
  rw [hib, hpos] at there missing
  refine ⟨fun hle => ?_, fun hlt => readerCommand_error (fun _ => rfl) (missing hlt)⟩
  obtain ⟨r, hr, -, hrbit, hrib, hrpos⟩ := there hle
  have fits : bigEndian ((s.rd.ib.drop s.rd.nextByte).take n) < 2 ^ 32 :=
    (bigEndian_lt _).trans_le (Nat.pow_le_pow_right (by decide : 0 < 256) ((List.length_take_le _ _).trans hn))
  obtain ⟨t, ht, hframe, hval, rfl⟩ := readerCommand_val (work := fun r => Reader.takeBytes n 0 r.align) hr fits
  exact ⟨t, ht, hframe, hval, hrib, hrbit, hrpos⟩

/-- Settles O39: three fields into `VAL`, and `TakeByte` into `SCALE`. -/
theorem byteFieldsAreReadBigEndian : Obligations.ByteFieldsAreReadBigEndian := by
  intro s hl
  obtain ⟨hlegal, hib, hbit, hpos⟩ := Reader.align_spec s.rd hl
  obtain ⟨missing, there⟩ := Reader.takeByte_spec s.rd.align hlegal hbit
  rw [hib, hpos] at there missing
  refine ⟨readerCommand_byteField hl (by decide), readerCommand_byteField hl (by decide),
    readerCommand_byteField hl (by decide), fun hle => ?getscale, fun hlt => ?eof⟩
  case getscale =>
    obtain ⟨r, hr, -, hrbit, hrib, hrpos⟩ := there _ (List.getElem?_eq_getElem hle)
    exact ⟨_, _, by simp only [exec, execGetscale, readerCommand, hr]; rfl, rfl,
      List.take_one_drop_eq_of_lt_length hle, hrib, hrbit, hrpos⟩
  case eof =>
    unfold exec execGetscale
    exact readerCommand_error (fun _ => rfl) (missing (Nat.le_of_lt_succ hlt))

end Sys2Proof.Machine
end

section
/-! SUPPORT. The entropy commands (`44_entropy.md`): the Rice code of one value (R180 to R187), the pairs of a sequence
(R188, R193), and what `RLEENC` writes and `RLEDEC` reads or rejects (R188, R189, R192, R194). -/

namespace Sys2Proof.Machine

variable {s : State} {f : FaultCode}

/-! ## `RICEENC` and `RICEDEC` (R186, R187) -/

/-- Settles O41: `RiceEnc` writes the list of the code's bits. -/
theorem riceencAppendsTheCode : Obligations.RiceencAppendsTheCode := by
  intro s k _ hl
  refine ⟨riceCode_length _ _, fun hroom => ?_⟩
  obtain ⟨w, hw, hlegal, hbits⟩ := (Writer.putList_spec _ _ s.wr hl hroom.capacity).1 hroom
  rw [← riceEnc_eq_putList] at hw
  exact ⟨_, writerCommand_some hw, rfl, hlegal, hbits⟩

/-- Settles O42: `RiceDec` on a code; the value fits `VAL`. -/
theorem ricedecReadsTheCode : Obligations.RicedecReadsTheCode := by
  intro s k v tail hk hv hl hrest
  obtain ⟨r, hr, hlegal, hib, -, hpos⟩ := riceDec_riceCode hk hv s.rd hl tail hrest
  obtain ⟨t, ht, hframe, hval, rfl⟩ := readerCommand_val hr (hv.trans (by decide))
  exact ⟨t, ht, hframe, hval, hlegal, hib, hpos⟩

/-- `RiceDec(k)` raises `f` on the bits `bs`, wherever in `IB` they are what is left. -/
def RiceRejects (k : Nat) (f : FaultCode) (bs : List Bool) : Prop :=
  ∀ r : Reader, r.Legal → r.rest = bs → riceDec k r = .error f

theorem riceRejects_ones (k : Nat) (tail : List Bool) :
    RiceRejects k .badCode (List.replicate (2 ^ (16 - k)) true ++ tail) :=
  fun r hl => (riceDec_errors r hl).1 tail

theorem EndsInsideCode.riceRejects {k : Nat} {bs : List Bool} (h : EndsInsideCode k bs) : RiceRejects k .eof bs := by
  obtain ⟨q, hq, rfl | ⟨rem, hrem, rfl⟩⟩ := h
  · exact fun r hl => (riceDec_errors r hl).2.1 q hq
  · exact fun r hl => (riceDec_errors r hl).2.2 q rem hq hrem

theorem exec_ricedec_rejects {k : BitVec 8} (hl : s.rd.Legal) (h : RiceRejects k.toNat f s.rd.rest) :
    s.Raises f (exec (.ricedec k) s) :=
  readerCommand_error (fun _ => rfl) (h s.rd hl rfl)

/-- Settles O43: the bits that `RiceDec` rejects. -/
theorem ricedecRejectsWhatIsNoCode : Obligations.RicedecRejectsWhatIsNoCode := by
  intro s k _ hl
  refine ⟨fun tail hr => exec_ricedec_rejects hl ?ones, fun q hq hr => exec_ricedec_rejects hl ?unary,
    fun q bs hq hbs hr => exec_ricedec_rejects hl ?remainder⟩
  case ones => exact hr ▸ riceRejects_ones _ tail
  case unary => exact EndsInsideCode.riceRejects ⟨q, hq, .inl hr⟩
  case remainder => exact EndsInsideCode.riceRejects ⟨q, hq, .inr ⟨bs, hbs, hr⟩⟩

/-! ## The pairs of a sequence (R188) -/

theorem expand_runsFrom (v : Sample) (len : Nat) (xs : List Sample) :
    expand (runsFrom v len xs) = List.replicate len v ++ xs := by
  induction xs generalizing v len with
  | nil => simp [runsFrom]
  | cons x xs ih =>
    rw [runsFrom]
    split
    · obtain ⟨rfl, -⟩ := ‹x = v ∧ len < rleMaxRun›
      rw [ih, List.replicate_succ', List.append_assoc]
      rfl
    · rw [expand_cons, ih]
      rfl

theorem expand_runs (xs : List Sample) : expand (runs xs) = xs := by
  cases xs with
  | nil => rfl
  | cons x xs => exact expand_runsFrom x 1 xs

theorem runsFrom_lengths {v : Sample} {len : Nat} {xs : List Sample} (h1 : 1 ≤ len) (h2 : len ≤ rleMaxRun) :
    ∀ p ∈ runsFrom v len xs, 1 ≤ p.1 ∧ p.1 ≤ rleMaxRun := by
  induction xs generalizing v len with
  | nil => simpa [runsFrom] using ⟨h1, h2⟩
  | cons x xs ih =>
    rw [runsFrom]
    split
    · exact ih (Nat.le_succ_of_le h1) ‹x = v ∧ len < rleMaxRun›.2
    · exact List.forall_mem_cons.2 ⟨⟨h1, h2⟩, ih (Nat.le_refl 1) (by decide)⟩

theorem runs_lengths (xs : List Sample) : ∀ p ∈ runs xs, 1 ≤ p.1 ∧ p.1 ≤ rleMaxRun := by
  cases xs with
  | nil => exact List.forall_mem_nil _
  | cons x xs => exact runsFrom_lengths (Nat.le_refl 1) (by decide)

/-- The first pair carries the value of the run that the sequence continues. -/
theorem value_of_mem_head?_runsFrom {v : Sample} {len : Nat} {xs : List Sample} {p : Nat × Sample}
    (h : p ∈ (runsFrom v len xs).head?) : p.2 = v := by
  induction xs generalizing len with
  | nil =>
    cases h
    rfl
  | cons x xs ih =>
    rw [runsFrom] at h
    split at h
    · exact ih h
    · cases h
      rfl

/-- Neighbours differ unless the first was cut: a run of `v` ends before an `x` only where `x` is another value or the
run is as long as it may be. -/
theorem runsFrom_isChain {v : Sample} {len : Nat} {xs : List Sample} (h : len ≤ rleMaxRun) :
    (runsFrom v len xs).IsChain (fun p q => p.2 ≠ q.2 ∨ p.1 = rleMaxRun) := by
  induction xs generalizing v len with
  | nil => exact .singleton _
  | cons x xs ih =>
    rw [runsFrom]
    split
    · exact ih ‹x = v ∧ len < rleMaxRun›.2
    · rename_i ends
      refine List.isChain_cons.2 ⟨fun q hq => ?_, ih (by decide)⟩
      rw [value_of_mem_head?_runsFrom hq]
      by_cases hx : x = v
      · exact .inr (h.antisymm (Nat.le_of_not_lt fun hlt => ends ⟨hx, hlt⟩))
      · exact .inl (Ne.symm hx)

/-- Settles O44: the expansion, the lengths and the neighbours of the pairs. -/
theorem pairsAreMaximalRuns : Obligations.PairsAreMaximalRuns := by
  refine fun xs => ⟨expand_runs xs, runs_lengths xs, ?_⟩
  cases xs with
  | nil => exact .nil
  | cons x xs => exact runsFrom_isChain (by decide)

/-! ## `RLEENC` (R188) -/

/-- R193: a pair takes at most 19 bits for each coefficient it stands for. -/
theorem pairsCode_length_le {ps : List (Nat × Sample)} (h : ∀ p ∈ ps, 1 ≤ p.1) :
    (pairsCode ps).length ≤ 19 * (expand ps).length := by
  induction ps with
  | nil => simp
  | cons p ps ih =>
    obtain ⟨hp, hps⟩ := List.forall_mem_cons.1 h
    have hv : p.2.toNat < 65536 := p.2.isLt
    have := ih hps
    simp only [pairsCode_cons, expand_cons, List.length_append, riceCode_length, List.length_replicate]
    omega

theorem State.blockOk_eq_false (h : ¬ s.BlockSide) : s.blockOk = false :=
  Bool.eq_false_iff.2 (mt s.blockOk_iff.1 h)

theorem exec_rleenc_written {xs : List Sample} {w : Writer} (hb : s.BlockSide)
    (hread : readWords s.sq s.sqIndices = some xs)
    (hw : Writer.putList s.cfg.obBytes (pairsCode (runs xs)) s.wr = some w) :
    exec .rleenc s = .next { s with wr := w, pc := s.pc + 1 } := by
  simp only [exec, execRleenc, s.blockOk_iff.2 hb, rleEnc_complete hread, hw]
  exact writerCommand_some (work := fun _ => some w) rfl

/-- Settles O45: the encoder writes the list of the code's bits, and the pairs' lengths are at least 1. -/
theorem rleencAppendsThePairs : Obligations.RleencAppendsThePairs := by
  refine ⟨fun s xs hb hl hlen hx => ⟨?bound, fun hroom => ?complete⟩, fun s hb => if_pos (State.blockOk_eq_false hb)⟩
  case bound =>
    have := pairsCode_length_le fun p hp => (runs_lengths xs p hp).1
    rwa [expand_runs] at this
  case complete =>
    have hread : readWords s.sq s.sqIndices = some xs := by
      simpa [State.sqIndices, State.side] using readWords_map_range (addr := id) hlen hx
    obtain ⟨w, hw, hlegal, hbits⟩ := (Writer.putList_spec _ _ s.wr hl hroom.capacity).1 hroom
    exact ⟨_, exec_rleenc_written hb hread hw, rfl, hlegal, hbits⟩

/-! ## `RLEDEC` (R189) -/

theorem exec_rledec_of_blockSide (hb : s.BlockSide) :
    exec .rledec s = readerCommand (rleDec (s.side * s.side))
      (fun xs s => { s with sq := writeWords s.sq s.sqIndices xs }) (State.forgetSq (s.side * s.side)) s := by
  simp only [exec, execRledec, s.blockOk_iff.2 hb, Bool.true_eq_false, if_false]

theorem exec_rledec_decoded {xs : List Sample} {r : Reader} (hb : s.BlockSide)
    (h : rleDec (s.side * s.side) s.rd = .ok (xs, r)) :
    exec .rledec s = .next { s with rd := r, sq := writeWords s.sq s.sqIndices xs, pc := s.pc + 1 } := by
  rw [exec_rledec_of_blockSide hb, readerCommand, h]
  rfl

theorem exec_rledec_rejected (hb : s.BlockSide) (h : rleDec (s.side * s.side) s.rd = .error f) :
    s.Raises f (exec .rledec s) := by
  rw [exec_rledec_of_blockSide hb]
  exact readerCommand_error (fun _ => rfl) h

/-- Settles O46: the decoder's loop on pairs, then `SQ` as it was written. -/
theorem rledecReadsThePairs : Obligations.RledecReadsThePairs := by
  intro s ps len v tail hb hl hps h1 h2 hsum hrest
  have hfuel : ps.length < 8 * s.rd.ib.length + 1 := by
    have := Reader.fuel_suffices hrest
    rw [List.length_append, List.length_singleton] at this
    omega
  obtain ⟨r, hr, hlegal, hib, -, hpos⟩ := rleLoop_pairs s.rd hl hps h1 h2 hsum hfuel hrest
  refine ⟨_, exec_rledec_decoded hb hr, rfl, fun i hi => ?written, fun i hi => ?other, hlegal, hib, hpos⟩
  case written =>
    have := read_writeWords_getElem (m := s.sq) s.sqIndices_nodup (vs := expand (ps ++ [(len, v)]))
      (by rw [hsum, State.sqIndices, List.length_range]; rfl) (i := i)
      (by rwa [State.sqIndices, List.length_range])
    simpa [State.sqIndices] using this
  case other => exact read_writeWords_other fun hmem => absurd (List.mem_range.1 hmem) (Nat.not_lt.2 hi)

/-- Settles O47: the pairs of a sequence are pairs that `RLEDEC` reads, and they stand for the sequence. -/
theorem runLengthRoundTrip : Obligations.RunLengthRoundTrip := by
  intro s xs tail hb hl hlen hrest
  have bounds := runs_lengths xs
  have hexp := expand_runs xs
  rcases (runs xs).eq_nil_or_concat with hnil | ⟨ps, ⟨len, v⟩, hruns⟩
  · rw [hnil] at hexp
    subst hexp
    have side_pos : 0 < s.w.toNat := by
      obtain ⟨-, hw⟩ := hb
      omega
    exact absurd hlen (Nat.mul_pos side_pos side_pos).ne
  · rw [List.concat_eq_append] at hruns
    rw [hruns] at bounds hexp hrest
    obtain ⟨hps, hlast⟩ := List.forall_mem_append.1 bounds
    obtain ⟨h1, h2⟩ := hlast (len, v) List.mem_cons_self
    obtain ⟨t, ht, hframe, hread, -⟩ := rledecReadsThePairs s ps len v tail hb hl
      (fun p hp => Nat.lt_succ_of_le (hps p hp).2) h1 (Nat.lt_succ_of_le h2) (hexp ▸ hlen) hrest
    exact ⟨t, ht, by rw [hframe], by rw [hframe], hexp ▸ hread⟩

/-! ## What `RLEDEC` rejects (R189, R194) -/

/-- The decoder's loop raises `f` on the bits `bs` as long as a coefficient is missing. -/
def RleRejects (f : FaultCode) (bs : List Bool) : Prop :=
  ∀ (fuel n : Nat) (r : Reader), r.Legal → r.rest = bs → rleLoop (fuel + 1) (n + 1) r = .error f

theorem RiceRejects.rleRejects {bs : List Bool} (h : RiceRejects 1 f bs) : RleRejects f bs :=
  fun fuel n r hl hr => by simp only [rleLoop, h r hl hr]

theorem RiceRejects.rleRejects_after_length {len : Nat} {cs : List Bool} (hlen : len < 65536)
    (h : RiceRejects 15 f cs) : RleRejects f (riceCode 1 len ++ cs) := by
  intro fuel n r hl hr
  obtain ⟨r1, hr1, hl1, -, hrest1, -⟩ := riceDec_riceCode (by decide) hlen r hl cs hr
  simp only [rleLoop, hr1, h r1 hl1 hrest1]

/-- The decoder reads pairs that leave coefficients missing, then meets what follows them. -/
theorem RleRejects.after_pairs {ps : List (Nat × Sample)} {bs : List Bool} {fuel n : Nat} (hbs : RleRejects f bs)
    (r : Reader) (hl : r.Legal) (hps : ∀ p ∈ ps, p.1 < 65536) (hn : (expand ps).length < n) (hf : ps.length < fuel)
    (hr : r.rest = pairsCode ps ++ bs) : rleLoop fuel n r = .error f := by
  induction ps generalizing fuel n r with
  | nil =>
    obtain ⟨fuel, rfl⟩ := Nat.exists_eq_add_one_of_ne_zero (Nat.ne_zero_of_lt hf)
    obtain ⟨n, rfl⟩ := Nat.exists_eq_add_one_of_ne_zero (Nat.ne_zero_of_lt hn)
    exact hbs fuel n r hl hr
  | cons p ps ih =>
    obtain ⟨fuel, rfl⟩ := Nat.exists_eq_add_one_of_ne_zero (Nat.ne_zero_of_lt hf)
    obtain ⟨n, rfl⟩ := Nat.exists_eq_add_one_of_ne_zero (Nat.ne_zero_of_lt hn)
    obtain ⟨hp, hps⟩ := List.forall_mem_cons.1 hps
    rw [pairsCode_cons, List.append_assoc] at hr
    rw [expand_cons, List.length_append, List.length_replicate] at hn
    obtain ⟨r1, hl1, -, hr1, -, turn⟩ := rleLoop_pair (fuel := fuel) (n := n) r hl hp hr
    rw [turn, if_neg (by omega), ih r1 hl1 hps (by omega) (Nat.lt_of_succ_lt_succ hf) hr1]

/-- Settles O48: the loop reads the pairs, then an overrunning pair or bits that are no code. -/
theorem rledecRejectsOverruns : Obligations.RledecRejectsOverruns := by
  refine ⟨fun s hb => if_pos (State.blockOk_eq_false hb), fun s ps bs hb hl hps hmissing hrest => ?_⟩
  have hfuel := Reader.fuel_suffices hrest
  have raises {f : FaultCode} (hbs : RleRejects f bs) : s.Raises f (exec .rledec s) :=
    exec_rledec_rejected hb (hbs.after_pairs s.rd hl hps hmissing hfuel hrest)
  refine ⟨fun len v tail hlen hover hbs => ?overrun, fun hbs => raises hbs.riceRejects.rleRejects,
    fun tail hbs => raises (hbs ▸ (riceRejects_ones 1 tail).rleRejects), fun len cs hlen hbs => ⟨fun hcs => ?valueEof,
    fun tail hcs => ?valueBadCode⟩⟩
  case overrun =>
    refine exec_rledec_rejected hb (rleLoop_overrun (v := v) (tail := tail) s.rd hl hps hlen hmissing hover hfuel ?_)
    rw [hrest, hbs, pairsCode, pairsCode, pairsCode, List.flatMap_append, List.append_assoc]
  case valueEof => exact raises (hbs ▸ hcs.riceRejects.rleRejects_after_length hlen)
  case valueBadCode =>
    subst hcs
    exact raises (hbs ▸ (riceRejects_ones 15 tail).rleRejects_after_length hlen)

end Sys2Proof.Machine
end

section
/-! SUPPORT. The system commands (`45_system.md`): what each leaves (R200 to R205), the step that executes a decoded
command, and the length of a run (R207). -/

namespace Sys2Proof.Machine

variable {i : Instr} {s t : State}

/-! ## `NOP`, `CLRF` and `HALT` (R200, R205, R201) -/

/-- Settles O6: the word by evaluation, and `NOP` is `State.advance` alone. -/
theorem nopOnlyAdvances : Obligations.NopOnlyAdvances := ⟨by decide, fun _ => rfl⟩

/-- Settles O11: the word by evaluation, and `CLRF` clears the flag and advances. -/
theorem clrfClearsOnlyOvf : Obligations.ClrfClearsOnlyOvf := ⟨by decide, fun _ => rfl⟩

theorem exec_halt_run (h : exec .halt s = .next t) : t.run = .halted := by
  cases h
  rfl

/-- R37 allows `H_START` from HALTED. -/
theorem hostAct_start_of_halted (h : s.run = .halted) : hostAct .start s = .ok s.start := by
  rw [hostAct_of_stopped (by simp [h])]
  exact if_pos (.inr h)

/-- A running sequencer that a command halts has executed `HALT`: the other ends of a command are RUNNING and FAULTED. -/
theorem eq_halt_of_run_halted (hr : s.run = .running) (h : exec i s = .next t) (ht : t.run = .halted) : i = .halt := by
  rcases pcAdvancesByOne i s t hr h with ⟨-, run, -⟩ | ⟨hi, -⟩ | ⟨run, -⟩
  · exact absurd (ht.symm.trans run) (by decide)
  · exact hi
  · exact absurd (ht.symm.trans run) (by decide)

/-- Settles O7: of the ends of a command only that of `HALT` is HALTED, and from there `H_START` is allowed. -/
theorem haltIsTheNormalEnd : Obligations.HaltIsTheNormalEnd :=
  ⟨by decide, fun _ => rfl, fun _ _ _ => eq_halt_of_run_halted, fun _ _ h => hostAct_start_of_halted (exec_halt_run h)⟩

/-! ## `SETR`, `LDVAL` and `LDVALH` (R202 to R204) -/

/-- The illegal words of opcode 3: R77's list at the row of `SETR`. -/
theorem decode_setr_error_iff {cw : CmdWord} (h : (fieldsOf cw).op = 0x03) :
    (∃ e, decode cw = .error e) ↔
      4 < (fieldsOf cw).a.toNat ∨ ((fieldsOf cw).a.toNat = 4 ∧ 255 < (fieldsOf cw).imm.toNat) := by
  have row := (opcodeRow (fieldsOf cw)).error_iff
  rw [h] at row
  exact row.trans (listedIllegal_setr _ _)

/-- Settles O8: one assignment per register, `SCALE` narrowed; the illegal words by the row of `SETR`. -/
theorem setrWritesTheNamedRegister : Obligations.SetrWritesTheNamedRegister := by
  refine ⟨fun v s => ⟨rfl, rfl, rfl, rfl, _, rfl, rfl, fun hv => ?_⟩, fun cw hop => ?_, by decide,
    .operandOutOfRange, by decide⟩
  · exact (BitVec.toNat_setWidth 8 v).trans (Nat.mod_eq_of_lt (Nat.lt_succ_of_le hv))
  · rw [decode_setr_error_iff hop, BitVec.toNat_eq]
    rfl

/-- A legal command is read back from the word whose number is its formula (`30_encoding.md` R75, R76). -/
theorem decode_of_toNat_eq {cw : CmdWord} (hw : i.WellFormed = true)
    (h : cw.toNat = (encodeFields i).op.toNat * 2 ^ 24 + (encodeFields i).a.toNat * 2 ^ 16 + (encodeFields i).imm.toNat) :
    decode cw = .ok i :=
  (decodeAcceptsExactlyTheEncodings cw i).2 ⟨hw, BitVec.eq_of_toNat_eq ((wordOf_toNat (encodeFields i)).trans h.symm)⟩

/-- Settles O9: the word by its number; zero extension keeps the value. -/
theorem ldvalLoadsAndClearsTheUpperHalf : Obligations.LdvalLoadsAndClearsTheUpperHalf := by
  refine ⟨fun v => decode_of_toNat_eq rfl ?_, fun v s => ⟨_, rfl, rfl, ?_⟩⟩
  · simp only [encodeFields]
    bv_omega
  · exact BitVec.toNat_setWidth_of_le (by decide)

/-- The number of `{v, x[15:0]}`. -/
theorem toNat_append_low16 (v : BitVec 16) (x : BitVec 32) :
    (v ++ x.extractLsb' 0 16).toNat = v.toNat * 65536 + x.toNat % 65536 := by
  rw [BitVec.toNat_append, ← Nat.shiftLeft_add_eq_or_of_lt (BitVec.isLt _), Nat.shiftLeft_eq, BitVec.extractLsb'_toNat]
  rfl

/-- Settles O10: the word by its number, the value by the two halves; `LDVAL` does not read the old value. -/
theorem ldvalhLoadsTheUpperHalf : Obligations.LdvalhLoadsTheUpperHalf := by
  refine ⟨fun v => decode_of_toNat_eq rfl ?_, fun v s => ⟨_, rfl, rfl, toNat_append_low16 v s.val⟩,
    fun _ _ t _ u t' h => ?_⟩
  · simp only [encodeFields]
    bv_omega
  · obtain ⟨t₁, ht₁, -, hval⟩ := ldvalLoadsAndClearsTheUpperHalf.2 u t
    cases h.symm.trans ht₁
    exact hval

/-! ## The step and the run (R207) -/

theorem step_of_decoded {cw : CmdWord} (hr : s.run = .running) (hf : s.fetch = some cw) (hd : decode cw = .ok i) :
    step s = exec i s := by
  simp [step, hr, hf, hd]

/-- Settles O4: `PM[pc]` is the word that the step fetches. -/
theorem stepRunsTheDecodedCommand : Obligations.StepRunsTheDecodedCommand := fun _ _ _ => step_of_decoded

/-- A step after which the sequencer still runs has executed a word of the program and moved to the next one. -/
theorem step_stays_running (h : step s = .next t) (ht : t.run = .running) :
    s.pc.toNat < s.pm.length ∧ t.pm = s.pm ∧ t.pc = s.pc + 1 := by
  obtain ⟨hr, ⟨-, rfl⟩ | ⟨cw, _, -, -, rfl⟩ | ⟨cw, i, hf, -, hx⟩⟩ := step_cases h
  · cases ht
  · cases ht
  · refine ⟨(List.getElem?_eq_some_iff.1 hf).1, (exec_effect hx).pm, ?_⟩
    rcases pcAdvancesByOne i s t hr hx with ⟨-, -, pc⟩ | ⟨-, run, -⟩ | ⟨run, -⟩
    · exact pc
    · exact absurd (ht.symm.trans run) (by decide)
    · exact absurd (ht.symm.trans run) (by decide)

theorem run_succ {M : Host.Core} {n : Nat} {s t : M.State} (h : M.run (n + 1) s = .next t) :
    ∃ u, M.step s = .next u ∧ M.run n u = .next t := by
  simp only [Host.Core.run] at h
  split at h
  · exact ⟨_, ‹_›, h⟩
  · cases h
  · cases h

/-- A run that ends in RUNNING began in RUNNING. -/
theorem running_of_run_running {n : Nat} (h : Host.Core.run core n s = .next t) (ht : t.run = .running) :
    s.run = .running := by
  cases n with
  | zero => cases h; exact ht
  | succ n =>
    obtain ⟨u, hu, -⟩ := run_succ h
    exact (step_cases hu).1

/-- Settles O55: by induction on the steps; each of them uses up one word of the program. -/
theorem runsAreBoundedByTheProgram : Obligations.RunsAreBoundedByTheProgram := by
  intro n
  induction n with
  | zero => exact fun _ _ hpc _ _ _ _ => hpc
  | succ n ih =>
    intro s t _ hlen _ h ht
    obtain ⟨u, hu, hrun⟩ := run_succ h
    have hur := running_of_run_running hrun ht
    obtain ⟨hlt, hpm, hpc⟩ := step_stays_running hu hur
    have hnext : u.pc.toNat = s.pc.toNat + 1 := by
      rw [hpc]
      bv_omega
    have bound := ih u t
    rw [hnext, hpm] at bound
    have := bound hlt hlen hur hrun ht
    omega

end Sys2Proof.Machine
end

section
/-! SUPPORT. Faults (`60_exceptions.md`): what fault entry writes (R244), which faults a command raises (R242), and what a
data-dependent fault of a command that reads `IB` leaves (R246). -/

namespace Sys2Proof.Machine

variable {i : Instr} {s t : State}

/-! ## Fault entry (R241, R244) -/

/-- `STATUS` after fault entry: `RUN` is FAULTED, `OVF` as before, `FCODE` the code of the fault (`10_state.md` R30). -/
theorem State.takeFault_status (f : FaultCode) (s : State) :
    (s.takeFault f).status.toNat = 3 + 4 * s.ovf.toNat + 16 * f.code.toNat :=
  (s.takeFault f).status_toNat

/-- Settles O49: the three assignments by definition, `STATUS` by its fields and the code of each fault. -/
theorem faultEntryWritesOnlyTheFaultRegisters : Obligations.FaultEntryWritesOnlyTheFaultRegisters := by
  intro f s
  refine ⟨rfl, (s.takeFault_status f).trans ?_⟩
  cases f <;> rfl

/-! ## The faults of a command (R242) -/

/-- From a running sequencer only the effects that take a fault end FAULTED, and each takes one that is listed. -/
theorem Effect.raises_listed (h : Effect i s t) (hr : s.run = .running) (ht : t.run = .faulted) :
    ∃ f ∈ mayRaise i, t.fcode = some f ∧ t.fpc = s.pc := by
  cases h with
  | checked f hm | lostVal f _ hm => exact ⟨f, hm, rfl, rfl⟩
  | full _ hm => exact ⟨.outFull, hm, rfl, rfl⟩
  | lostScale e =>
    subst e
    exact ⟨.eof, List.mem_singleton_self _, rfl, rfl⟩
  | lostSq f e _ hf =>
    subst e
    exact ⟨f, List.mem_cons_of_mem _ (by simpa using hf), rfl, rfl⟩
  | halt => cases ht
  | _ => cases hr.symm.trans ht

/-- Settles O50: the faults that the effects of a command take. -/
theorem commandsRaiseOnlyTheirFaults : Obligations.CommandsRaiseOnlyTheirFaults := fun _ _ _ hr h ht =>
  (exec_effect h).raises_listed hr ht

/-! ## After a data-dependent fault of a reader command (R246, `43_bitstream.md` R177) -/

/-- Settles O40: the reader by the lemmas about every effect, the destination by the effect. A failed check and a full
`OB` raise other faults, and what completes leaves a running sequencer RUNNING or HALTED. -/
theorem stateAfterAReaderFault : Obligations.StateAfterAReaderFault := by
  intro i s t hr hl h ht hf
  have he := exec_effect h
  refine ⟨he.ib, he.reader_legal hl, ?_⟩
  cases he with
  | lostVal f hi =>
    refine ⟨fun _ => rfl, fun e => ?_, fun e => ?_⟩
    · exact absurd (e ▸ hi.1) nofun
    · exact absurd (e ▸ hi.1) nofun
  | lostScale e =>
    subst e
    exact ⟨nofun, fun _ => rfl, nofun⟩
  | lostSq f e =>
    subst e
    exact ⟨nofun, nofun, fun _ => ⟨rfl, fun _ hj => s.forgetReader.read_forgetSq hj⟩⟩
  | checked f _ hc => rcases hc with rfl | rfl <;> simp at hf
  | full => simp at hf
  | halt => cases ht
  | _ => cases hr.symm.trans ht

end Sys2Proof.Machine
end

section
/-! SUPPORT. Unwritten words (`70_reset_and_hazards.md` R273, `10_state.md` R42): a command that reaches one in `CM` or
`SQ` is refused by the memory's name. -/

namespace Sys2Proof.Machine

variable {s : State}

/-! ## What meets an unwritten word -/

theorem readWords_none {w : Nat} {m : Memory w} {as : List Nat} {b : Nat} (hb : b ∈ as) (hn : Memory.read m b = none) :
    readWords m as = none := by
  refine Option.not_isSome_iff_eq_none.1 fun h => ?_
  have hw := readWords_isSome.1 h b hb
  simp [hn] at hw

theorem State.exists_unwritten (h : ¬ s.RegionWritten) :
    ∃ b, s.InRect s.w.toNat s.h.toNat b ∧ Memory.read s.cm b = none := by
  simp only [State.RegionWritten, not_forall, Option.not_isSome_iff_eq_none] at h
  obtain ⟨r, hr, c, hc, hn⟩ := h
  exact ⟨_, ⟨r, hr, c, hc, rfl⟩, hn⟩

/-- A scan order leaves out no word of a block. -/
theorem State.mem_cellAddrs_of_inRect (hb : s.BlockSide) {ps : List (Nat × Nat)} (hs : IsScan s.side ps) {a : Nat}
    (ha : s.InRect s.w.toNat s.h.toNat a) : a ∈ s.cellAddrs ps := by
  rw [← hb.1] at ha
  exact (s.mem_cellAddrs hs).2 ha

section
variable {w h b : Nat} {a : LiftState}

theorem liftLine_none {step : List Sample → LineResult} {as : List Nat} (hb : b ∈ as)
    (hn : Memory.read a.cm b = none) : liftLine step as a = none := by
  simp only [liftLine, readWords_none hb hn]

variable (hw : w ≤ s.stride.toNat)
include hw

theorem fwd2D_none (hb : s.InRect w h b) (hn : Memory.read a.cm b = none) : fwd2D s w h a = none := by
  obtain ⟨l, hl, hbl⟩ := s.inRect_rows.1 hb
  rw [fwd2D, liftLines_none hl hbl hn (s.rows_disjoint hw), Option.bind_none]

theorem inv2D_none (hb : s.InRect w h b) (hn : Memory.read a.cm b = none) : inv2D s w h a = none := by
  obtain ⟨l, hl, hbl⟩ := s.inRect_cols.1 hb
  rw [inv2D, liftLines_none hl hbl hn (s.cols_disjoint hw), Option.bind_none]

/-- The quarter comes first and writes no word beyond itself, so a word that it does not reach is still unwritten when the
whole region is transformed. -/
theorem inv2D_levels_none (hb : s.InRect w h b) (hn : Memory.read a.cm b = none) :
    (inv2D s (w / 2) (h / 2) a).bind (inv2D s w h) = none := by
  cases hq : inv2D s (w / 2) (h / 2) a with
  | none => rfl
  | some a' =>
    have houtside : ¬ s.InRect (w / 2) (h / 2) b := fun hin => by
      rw [inv2D_none ((Nat.div_le_self w 2).trans hw) hin hn] at hq
      cases hq
    exact inv2D_none hw hb (((inv2D_within hq).other b houtside).trans hn)

end

/-! ## The commands that use the region -/

section
variable (hf : s.RegionFits) {b : Nat}
include hf

theorem quantCommand_unwritten {value : Int → Nat → Int} (hq : s.quantOk = true)
    (hb : s.InRect s.w.toNat s.h.toNat b) (hn : Memory.read s.cm b = none) :
    quantCommand value s = .refused (.unwritten .cm) := by
  have hm := State.mem_cellAddrs_of_inRect (s.quantOk_iff.1 hq).1 (isScan_blockCells s.side) hb
  simp only [quantCommand, (s.regionFault_none _).2 ⟨hq, hf⟩, readWords_none hm hn]

theorem execZigzag_unwritten (hs : s.BlockSide) (hb : b ∈ s.scanAddrs) (hn : Memory.read s.cm b = none) :
    execZigzag s = .refused (.unwritten .cm) := by
  simp only [execZigzag, (s.regionFault_none _).2 ⟨s.blockOk_iff.2 hs, hf⟩, readWords_none hb hn]

theorem execUnzigzag_unwritten (hs : s.BlockSide) (hb : b ∈ s.sqIndices) (hn : Memory.read s.sq b = none) :
    execUnzigzag s = .refused (.unwritten .sq) := by
  simp only [execUnzigzag, (s.regionFault_none _).2 ⟨s.blockOk_iff.2 hs, hf⟩, readWords_none hb hn]

/-- The commands that read the whole region, whatever the scan order. -/
theorem exec_plane_unwritten {i : Instr} (hi : i ∈ [.fdwt2, .idwt2, .fdwt2l, .idwt2l, .quant, .dequant])
    (hd : DimensionsOk i s) (hb : s.InRect s.w.toNat s.h.toNat b) (hn : Memory.read s.cm b = none) :
    exec i s = .refused (.unwritten .cm) := by
  simp only [List.mem_cons, List.not_mem_nil, or_false] at hi
  rcases hi with rfl | rfl | rfl | rfl | rfl | rfl
  · exact liftCommand_unwritten (s.planeOk_iff.2 hd) hf (fwd2D_none hf.1 hb hn)
  · exact liftCommand_unwritten (s.planeOk_iff.2 hd) hf (inv2D_none hf.1 hb hn)
  · have hwork : (fwd2D s s.w.toNat s.h.toNat ⟨s.cm, s.ovf⟩).bind (fwd2D s (s.w.toNat / 2) (s.h.toNat / 2)) = none := by
      rw [fwd2D_none hf.1 hb hn, Option.bind_none]
    exact show execFdwt2l s = _ from liftCommand_unwritten (s.plane2Ok_iff.2 hd) hf hwork
  · exact show execIdwt2l s = _ from liftCommand_unwritten (s.plane2Ok_iff.2 hd) hf (inv2D_levels_none hf.1 hb hn)
  · exact quantCommand_unwritten hf (s.quantOk_iff_dimensionsOk.2 hd) hb hn
  · exact quantCommand_unwritten hf (s.quantOk_iff_dimensionsOk.2 hd) hb hn

theorem exec_rowLine_unwritten {i : Instr} {k : BitVec 16} (hi : i = .fliftr k ∨ i = .iliftr k) (hd : DimensionsOk i s)
    (hb : b ∈ s.rowLine s.w.toNat k.toNat) (hn : Memory.read s.cm b = none) :
    exec i s = .refused (.unwritten .cm) := by
  rcases hi with rfl | rfl <;> exact liftCommand_unwritten ((s.rowOk_iff k).2 hd) hf (liftLine_none hb hn)

theorem exec_colLine_unwritten {i : Instr} {k : BitVec 16} (hi : i = .fliftc k ∨ i = .iliftc k) (hd : DimensionsOk i s)
    (hb : b ∈ s.colLine s.h.toNat k.toNat) (hn : Memory.read s.cm b = none) :
    exec i s = .refused (.unwritten .cm) := by
  rcases hi with rfl | rfl <;> exact liftCommand_unwritten ((s.colOk_iff k).2 hd) hf (liftLine_none hb hn)

end

/-! ## `RLEENC` (`44_entropy.md` R188) -/

/-- The pairs that end within the words read so far find room, and the next word is unwritten. -/
theorem rleEnc_unwritten {xs : List Sample} (hl : s.wr.Legal) (hread : readWords s.sq (List.range xs.length) = some xs)
    (hlen : xs.length < s.side * s.side) (hn : Memory.read s.sq xs.length = none)
    (hroom : s.wr.HasRoom s.cfg.obBytes (pairsCode (runs xs).dropLast).length) :
    rleEnc s.cfg.obBytes s.sq s.sqIndices s.wr = none := by
  obtain ⟨bs, hbs⟩ := range_eq_append_of_lt hlen
  obtain ⟨w, hw, -⟩ := (Writer.putList_spec _ _ s.wr hl hroom.capacity).1 hroom
  rw [State.sqIndices, hbs]
  exact (rleEnc_prefix hread).2 (Option.isSome_of_eq_some hw) hn

theorem exec_rleenc_unwritten (hb : s.BlockSide) (h : rleEnc s.cfg.obBytes s.sq s.sqIndices s.wr = none) :
    exec .rleenc s = .refused (.unwritten .sq) := by
  simp only [exec, execRleenc, s.blockOk_iff.2 hb, h]
  rfl

/-- Settles O23: each command of the region reads the unwritten word once its checks have passed, and `RLEENC` reaches it
once the pairs that end before it are written. -/
theorem unwrittenWordsAreRefused : Obligations.UnwrittenWordsAreRefused := by
  refine ⟨fun i s hf hd => ⟨fun hi hw => ?plane, ?zigzag, fun k hi hline => ?row, fun k hi hline => ?col, ?unzigzag⟩,
    fun s xs hb hl _ hlen hx hroom => ?rleenc⟩
  case plane =>
    obtain ⟨b, hb, hn⟩ := State.exists_unwritten hw
    exact exec_plane_unwritten hf hi hd hb hn
  case zigzag =>
    rintro rfl hs hw
    obtain ⟨b, hb, hn⟩ := State.exists_unwritten hw
    exact execZigzag_unwritten hf hd (State.mem_cellAddrs_of_inRect hd hs hb) hn
  case row =>
    obtain ⟨c, hc, hn⟩ := hline
    exact exec_rowLine_unwritten hf hi hd (s.mem_rowLine.2 ⟨c, hc, rfl⟩) hn
  case col =>
    obtain ⟨r, hr, hn⟩ := hline
    exact exec_colLine_unwritten hf hi hd (s.mem_colLine.2 ⟨r, hr, rfl⟩) hn
  case unzigzag =>
    rintro rfl ⟨j, hj, hn⟩
    exact execUnzigzag_unwritten hf hd (List.mem_range.2 hj) hn
  case rleenc =>
    have hread : readWords s.sq (List.range xs.length) = some xs := by
      simpa using readWords_map_range (addr := id) rfl fun j hj => hx j hj.le
    have hn : Memory.read s.sq xs.length = none := by simpa using hx xs.length (Nat.le_refl _)
    exact exec_rleenc_unwritten hb (rleEnc_unwritten hl hread hlen hn hroom)

end Sys2Proof.Machine
end
